-- ==== Sys2Proof/Word.lean ====
section
/-! DEFINITION. The word types: the 32-bit word of the bus and of the command (00_scope.md R7), and the
byte of a message in the host sequences (44_host_sequences.md R171). -/

namespace Sys2Proof

/-- A 32-bit quantity, "word" in 00_scope.md R7. -/
abbrev Word := BitVec 32

/-- One byte of a message (44_host_sequences.md R171). -/
abbrev Byte := BitVec 8

end Sys2Proof
end

