-- ==== Sys2Proof/Syntax.lean ====
section
/-! DEFINITION. The commands of RAB command set version 1, one constructor per row of the opcode table
(30_encoding.md R71, R73). A register field is a 3-bit register number (30_encoding.md R72). -/

namespace Sys2Proof

/-- A register number: `k` names `x[k]` (30_encoding.md R72). -/
abbrev RegNo := Fin 8

/-- The six commands, destinations first, in the order of the format's fields (30_encoding.md R80). -/
inductive Instr where
  /-- MODEXP rd, rb, re, rm (43_modexp.md R152). -/
  | modexp (rd rb re rm : RegNo)
  /-- EGCD rg, rx, ry, ra, rb (42_modinv.md R134). -/
  | egcd (rg rx ry ra rb : RegNo)
  /-- MODINV rd, ra, rm (42_modinv.md R136). -/
  | modinv (rd ra rm : RegNo)
  /-- MRTEST rn (40_primality.md R104). -/
  | mrtest (rn : RegNo)
  /-- MRTRIAL rn, ra (40_primality.md R106). -/
  | mrtrial (rn ra : RegNo)
  /-- SAMPLE rd, rlo, rhi (41_sampler.md R124). -/
  | sample (rd rlo rhi : RegNo)
  deriving DecidableEq, Repr

end Sys2Proof
end

