-- ==== Sys2Proof/WellFormed.lean ====
section
/-! DEFINITION. Which terms of `Instr` some legal word encodes: all but EGCD with two equal destinations
(30_encoding.md R74 c). -/

namespace Sys2Proof

/-- The three destinations of EGCD are pairwise different (30_encoding.md R74 c). -/
def distinctDests (rg rx ry : RegNo) : Bool := rg != rx && rg != ry && rx != ry

/-- The command has an encoding that is not illegal (30_encoding.md R74). -/
def Instr.wellFormed : Instr → Bool
  | .modexp _ _ _ _ => true
  | .egcd rg rx ry _ _ => distinctDests rg rx ry
  | .modinv _ _ _ => true
  | .mrtest _ => true
  | .mrtrial _ _ => true
  | .sample _ _ _ => true

end Sys2Proof
end

