-- ==== Sys2Proof/Decode.lean ====
section
/-! DEFINITION. The command word: its fields, the decoder, the encoder and the assembler's line
(30_encoding.md R70 to R78, R80). Decoding is total; an illegal word is rejected under the name of the
clause of R74 that makes it illegal. -/

namespace Sys2Proof

/-- Why a command word is illegal (30_encoding.md R74). -/
inductive IllegalReason where
  /-- (a): opcode 0x00, or 0x07 and above. -/
  | opcode
  /-- (b): a bit of the reserved field [31:23] is 1. -/
  | reserved
  /-- (b): a bit of a field the format does not use is 1. -/
  | unusedField
  /-- (c): two of EGCD's three destination fields are equal. -/
  | equalDestinations
  deriving DecidableEq, Repr

/-- The decoder's answer (30_encoding.md R77). -/
inductive Decoded where
  | command (i : Instr)
  | illegal (why : IllegalReason)
  deriving DecidableEq, Repr

/-- `w[lo+len-1 : lo]` of a command word (00_scope.md R7). -/
def wordField (w : Word) (lo len : Nat) : Nat := w.toNat / 2 ^ lo % 2 ^ len

/-- The 3-bit register field whose least bit is `lo` (30_encoding.md R70, R72). -/
def regField (w : Word) (lo : Nat) : RegNo := Fin.ofNat 8 (w.toNat / 2 ^ lo)

/-- `Decode(w)` (30_encoding.md R77). -/
def decode (w : Word) : Decoded :=
  let f0 := regField w 8
  let f1 := regField w 11
  let f2 := regField w 14
  let f3 := regField w 17
  let f4 := regField w 20
  if wordField w 23 9 ≠ 0 then .illegal .reserved
  else
    match wordField w 0 8 with
    | 0x01 => if f4 ≠ 0 then .illegal .unusedField else .command (.modexp f0 f1 f2 f3)
    | 0x02 =>
      if distinctDests f0 f1 f2 then .command (.egcd f0 f1 f2 f3 f4) else .illegal .equalDestinations
    | 0x03 => if f3 ≠ 0 ∨ f4 ≠ 0 then .illegal .unusedField else .command (.modinv f0 f1 f2)
    | 0x04 =>
      if f0 ≠ 0 ∨ f2 ≠ 0 ∨ f3 ≠ 0 ∨ f4 ≠ 0 then .illegal .unusedField else .command (.mrtest f1)
    | 0x05 =>
      if f0 ≠ 0 ∨ f3 ≠ 0 ∨ f4 ≠ 0 then .illegal .unusedField else .command (.mrtrial f1 f2)
    | 0x06 => if f3 ≠ 0 ∨ f4 ≠ 0 then .illegal .unusedField else .command (.sample f0 f1 f2)
    | _ => .illegal .opcode

/-- `opcode + f0·2^8 + f1·2^11 + f2·2^14 + f3·2^17 + f4·2^20` (30_encoding.md R70). -/
def buildWord (opcode : Nat) (f0 f1 f2 f3 f4 : RegNo) : Word :=
  BitVec.ofNat 32 (opcode + f0.val * 2 ^ 8 + f1.val * 2 ^ 11 + f2.val * 2 ^ 14 + f3.val * 2 ^ 17
    + f4.val * 2 ^ 20)

/-- The command word of a command, unused fields 0 (30_encoding.md R70, R71). -/
def encode : Instr → Word
  | .modexp rd rb re rm => buildWord 0x01 rd rb re rm 0
  | .egcd rg rx ry ra rb => buildWord 0x02 rg rx ry ra rb
  | .modinv rd ra rm => buildWord 0x03 rd ra rm 0 0
  | .mrtest rn => buildWord 0x04 0 rn 0 0 0
  | .mrtrial rn ra => buildWord 0x05 0 rn ra 0 0
  | .sample rd rlo rhi => buildWord 0x06 rd rlo rhi 0 0

/-- `r0` to `r7` (30_encoding.md R80). -/
def regName (k : RegNo) : String := "r" ++ toString k.val

/-- A mnemonic and a comma-separated register list (30_encoding.md R80). -/
def asmLine (mnemonic : String) (regs : List RegNo) : String :=
  mnemonic ++ " " ++ String.intercalate ", " (regs.map regName)

/-- The assembler's line for a command, destinations first (30_encoding.md R80). -/
def assemblyOf : Instr → String
  | .modexp rd rb re rm => asmLine "MODEXP" [rd, rb, re, rm]
  | .egcd rg rx ry ra rb => asmLine "EGCD" [rg, rx, ry, ra, rb]
  | .modinv rd ra rm => asmLine "MODINV" [rd, ra, rm]
  | .mrtest rn => asmLine "MRTEST" [rn]
  | .mrtrial rn ra => asmLine "MRTRIAL" [rn, ra]
  | .sample rd rlo rhi => asmLine "SAMPLE" [rd, rlo, rhi]

/-- The command the decoder reads from the low `nbits` bits of `w`, every bit above them 0. A command is one
32-bit word and the bus carries it as a number, so no byte order enters (20_memory.md R56, 30_encoding.md R78;
log 16). -/
def decodeTableWord (nbits w : Nat) : Option Instr :=
  match decode (BitVec.ofNat 32 (w % 2 ^ nbits)) with
  | .command i => some i
  | .illegal _ => none

end Sys2Proof
end

