-- ==== Sys2Proof/Config.lean ====
section
/-! DEFINITION. The parameters of 00_scope.md R6. `W` is OPEN: an instance of the block is a `Config`, every
state carries its own, and statements quantify over it (log 1). `ENC` is OPEN: an argument of the host
sequences that use it (44_host_sequences.md R170; log 15). -/

namespace Sys2Proof

/-- The parameters of one instance of the block (00_scope.md R6). -/
structure Config where
  /-- `LIMBS`, the number of 32-bit words of an operand register. -/
  limbs : Nat
  deriving DecidableEq, Repr

/-- `W = 32 · LIMBS`, the width in bits of every operand register (00_scope.md R6). -/
def Config.width (c : Config) : Nat := 32 * c.limbs

/-- `1 ≤ LIMBS ≤ 128`, that is `32 ≤ W ≤ 4096` (00_scope.md R6). -/
abbrev Config.Wf (c : Config) : Prop := 1 ≤ c.limbs ∧ c.limbs ≤ 128

/-- The reference instance, `W = 1024` (00_scope.md R6). -/
def Config.reference : Config := ⟨32⟩

/-- `ROUNDS_RESET` (00_scope.md R6). -/
def Config.roundsReset : Word := 5

/-- `ENC` (44_host_sequences.md R170): a total function from text to bytes and a partial inverse. -/
structure TextEncoding (Text : Type) where
  encode : Text → List Byte
  decode : List Byte → Option Text
  decode_encode : ∀ t : Text, decode (encode t) = some t

end Sys2Proof
end

