-- ==== Sys2Proof/Machine/State.lean ====
section
/-! DEFINITION. The state of the block, plain data, with everything 10_state.md gives it; the steps of the
four agents as data (00_scope.md R3); the reasons a step can stop; and the state after reset (10_state.md
R36). The block has no memory and no program counter (10_state.md R23, R34). -/

namespace Sys2Proof.Machine

/-- The fields of STATUS (10_state.md R30). Its reserved bits read 0 and cannot be written, so they are not
stored; `statusWord` in Flags.lean is the word the host reads (log 13). -/
structure Status where
  /-- BUSY, bit 0: a command is in flight. -/
  busy : Bool
  /-- DONE, bit 1: a command has completed since the last launch or reset. -/
  done : Bool
  /-- ERR, bit 2: the last completed command ended with an error. -/
  err : Bool
  /-- VERDICT, bit 3 (10_state.md R24). -/
  verdict : Bool
  /-- XNEG, bit 4 (10_state.md R24). -/
  xneg : Bool
  /-- YNEG, bit 5 (10_state.md R24). -/
  yneg : Bool
  /-- ERRCODE, bits 15:8 (60_exceptions.md R180). -/
  errCode : BitVec 8
  deriving DecidableEq, Repr

/-- The errors a command can end with (60_exceptions.md R180). -/
inductive CmdError where
  /-- E_ILLEGAL: the command word is illegal. -/
  | illegal
  /-- E_NOINVERSE: the document's NoInverseError. -/
  | noInverse
  /-- E_ZEROMOD: the modulus register holds 0. -/
  | zeroMod
  /-- E_OPERAND: a source value is outside the command's domain. -/
  | operand
  /-- E_RANGE: a result would not fit in W bits. -/
  | range
  deriving DecidableEq, Repr

/-- One host bus access, at a byte offset from the window's base and of a size in bytes
(20_memory.md R50, R51; log 19). -/
inductive Access where
  | read (addr size : Nat)
  | write (addr size : Nat) (data : Word)
  deriving DecidableEq, Repr

/-- What the bus answers to an access (00_scope.md R12). -/
inductive BusResponse where
  /-- `OK(data)`, a read that succeeds. -/
  | okData (data : Word)
  /-- `OK`, a write that succeeds. -/
  | ok
  /-- `ERR`, an access the block refuses. -/
  | err
  deriving DecidableEq, Repr

/-- One step of one agent (00_scope.md R3). -/
inductive Event where
  /-- The engine's turn: the completion step, if it is enabled (30_encoding.md R76). -/
  | engine
  /-- The host's bus access; any response is taken. -/
  | host (a : Access)
  /-- A primitive line of a host program, WR or RD: the program requires OK (30_encoding.md R81). -/
  | hostLine (a : Access)
  /-- The entropy source supplies the next word (41_sampler.md R120). -/
  | entropy (w : Word)
  /-- Reset (70_reset_and_hazards.md R200); `lost` is how many entropy words the command it abandons had
  already popped (R201). -/
  | reset (lost : Nat)
  deriving DecidableEq, Repr

/-- Why a step stops. No command stops the machine: a command's error is a next state (60_exceptions.md
R185). -/
inductive Fault where
  /-- Raised by `perform` for a line of a host program that got `ERR` where it required `OK`: a fault of the
  program, not of the block (30_encoding.md R81, 93_implementation_defined.md Z17). Safe: the run stops. -/
  | errWhereOkRequired
  deriving DecidableEq, Repr

/-- Why a step is refused. -/
inductive Refusal where
  /-- Raised by no arm of `exec` any more: the instruction has no meaning yet. Safe: the run stops. -/
  | notModelled (mnemonic : String)
  deriving DecidableEq, Repr

/-- The whole state: the block's registers (10_state.md R20, R25), the environment's part the block's
behaviour depends on (10_state.md R35), and two fields of the model's own (`agenda`, `response`). -/
structure State where
  /-- The parameters of this instance (00_scope.md R6); no step changes them. -/
  config : Config
  /-- The operand registers `x[0]` to `x[7]`, each a natural below 2^W (10_state.md R20). -/
  x : Vector Nat 8
  /-- CMD (10_state.md R29). -/
  cmd : Word
  /-- STATUS (10_state.md R30). -/
  status : Status
  /-- ROUNDS (10_state.md R31). -/
  rounds : Word
  /-- TRIALCNT (10_state.md R32). -/
  trialcnt : Word
  /-- The entropy words supplied and not yet popped, the next one first (41_sampler.md R120; log 2). -/
  entropy : List Word
  /-- The entropy stream position: how many words have been popped (10_state.md R35; log 3). -/
  entropyPos : Nat
  /-- The model's own: the agents' steps still to come, in the order they happen (20_memory.md R61; log 4). -/
  agenda : List Event
  /-- The model's own: what the bus answered to the last host access (00_scope.md R12; log 7). -/
  response : Option BusResponse
  deriving DecidableEq, Repr

/-- STATUS = 0x0000_0000. -/
def Status.clear : Status := ⟨false, false, false, false, false, false, 0⟩

/-- The state of an instance right after reset (10_state.md R36), with no word supplied, no step to come. -/
def State.resetOf (c : Config) : State where
  config := c
  x := Vector.replicate 8 0
  cmd := 0
  status := .clear
  rounds := Config.roundsReset
  trialcnt := 0
  entropy := []
  entropyPos := 0
  agenda := []
  response := none

/-- The reference instance right after reset (10_state.md R36, 00_scope.md R6). -/
def State.reset : State := State.resetOf Config.reference

end Sys2Proof.Machine
end

