-- ==== Sys2Proof/Machine/Flags.lean ====
section
/-! DEFINITION. STATUS: its word, its value at launch and after each kind of completion, the sign flags and
the error codes (10_state.md R24, R30; 30_encoding.md R75, R76; 60_exceptions.md R180). -/

namespace Sys2Proof.Machine

/-- The 32-bit STATUS register as the host reads it: bit 0 BUSY, 1 DONE, 2 ERR, 3 VERDICT, 4 XNEG, 5 YNEG,
bits 15:8 ERRCODE, every other bit 0 (10_state.md R30). -/
def statusWord (f : Status) : Word :=
  BitVec.ofNat 32 (f.busy.toNat + f.done.toNat * 2 ^ 1 + f.err.toNat * 2 ^ 2 + f.verdict.toNat * 2 ^ 3
    + f.xneg.toNat * 2 ^ 4 + f.yneg.toNat * 2 ^ 5 + f.errCode.toNat * 2 ^ 8)

/-- STATUS right after a launch: BUSY = 1, every other field 0 (30_encoding.md R75). -/
def launchedStatus : Status := ⟨true, false, false, false, false, false, 0⟩

/-- STATUS after a completion without error (30_encoding.md R76). -/
def successStatus (verdict xneg yneg : Bool) : Status := ⟨false, true, false, verdict, xneg, yneg, 0⟩

/-- The number of an error (60_exceptions.md R180). -/
def errorCode : CmdError → BitVec 8
  | .illegal => 1
  | .noInverse => 2
  | .zeroMod => 3
  | .operand => 4
  | .range => 5

/-- STATUS after a completion with an error (30_encoding.md R76, 60_exceptions.md R185). -/
def errorStatus (e : CmdError) : Status := ⟨false, true, true, false, false, false, errorCode e⟩

/-- The sign flag of a coefficient: 1 exactly when it is negative, 0 for zero (10_state.md R24). -/
def signFlag (c : Int) : Bool := decide (c < 0)

end Sys2Proof.Machine
end

