-- ==== Sys2Proof/Machine/Operands.lean ====
section
/-! DEFINITION. Numbers and operands: the helper functions of 00_scope.md R7 to R11, the one operand form
(a register, 30_encoding.md R72) and the limbs of a register (20_memory.md R53, R54). -/

namespace Sys2Proof.Machine

/-- `v[hi:lo]` (00_scope.md R7). -/
def slice (v hi lo : Nat) : Nat := v / 2 ^ lo % 2 ^ (hi + 1 - lo)

/-- `bitlen(v)` (00_scope.md R10). -/
def bitLen (v : Nat) : Nat := if v = 0 then 0 else v.log2 + 1

/-- `ceil(a / b)` for `b > 0` (00_scope.md R10). -/
def ceilDiv (a b : Nat) : Nat := (a + b - 1) / b

/-- `a mod b` for `b > 0`, in `[0, b)` also for a negative `a` (00_scope.md R9). -/
def floorMod (a : Int) (b : Nat) : Nat := (a % (b : Int)).toNat

/-- `zext_N(v)` (00_scope.md R11). -/
def zext {m : Nat} (n : Nat) (v : BitVec m) : BitVec n := v.setWidth n

/-- `sext_N(v)`, "defined for completeness, no rule uses it" (00_scope.md R11). -/
def sext {m : Nat} (n : Nat) (v : BitVec m) : BitVec n := v.signExtend n

/-- `x[k]` (00_scope.md R11). -/
def readReg (k : RegNo) (s : State) : Nat := s.x.get k

/-- `x[k] <- v` (00_scope.md R11). -/
def writeReg (k : RegNo) (v : Nat) (s : State) : State := { s with x := s.x.set k.val v }

/-- The writes of a command, one after the other. -/
def writeRegs (writes : List (RegNo × Nat)) (s : State) : State :=
  writes.foldl (fun t p => writeReg p.1 p.2 t) s

/-- Limb `i` of a value: `v[32i+31 : 32i]` (20_memory.md R53). -/
def limbOf (v i : Nat) : Word := BitVec.ofNat 32 (slice v (32 * i + 31) (32 * i))

/-- `v` with limb `i` replaced by `d` (20_memory.md R54). -/
def withLimb (v i : Nat) (d : Word) : Nat :=
  v - slice v (32 * i + 31) (32 * i) * 2 ^ (32 * i) + d.toNat * 2 ^ (32 * i)

/-- The number whose 32-bit words are listed, the first the least significant (20_memory.md R53,
41_sampler.md R122). -/
def assemble : List Word → Nat
  | [] => 0
  | w :: ws => w.toNat + 2 ^ 32 * assemble ws

end Sys2Proof.Machine
end

