-- ==== Sys2Proof/Machine/Ops.lean ====
section
/-! DEFINITION. The named operations: launch, completion with its error branch (the block's exception entry,
60_exceptions.md R185), entropy, and the host's access to the register window (20_memory.md). -/

namespace Sys2Proof.Machine

/-- How a command's pseudocode ends (00_scope.md R14, 30_encoding.md R76). -/
inductive CmdOutcome where
  | success (writes : List (RegNo × Nat)) (verdict xneg yneg : Bool) (trials : Nat)
  | error (e : CmdError)
  deriving DecidableEq, Repr

/-- The success branch of the completion step (30_encoding.md R76). -/
def publish (writes : List (RegNo × Nat)) (verdict xneg yneg : Bool) (trials : Nat) (s : State) : State :=
  { writeRegs writes s with
    status := successStatus verdict xneg yneg, trialcnt := BitVec.ofNat 32 trials }

/-- `raise E`, the error branch of the completion step: STATUS and TRIALCNT change, nothing else
(60_exceptions.md R185). -/
def raiseError (e : CmdError) (s : State) : State := { s with status := errorStatus e, trialcnt := 0 }

/-- The completion step for an outcome (30_encoding.md R76). -/
def complete (o : CmdOutcome) (s : State) : State :=
  match o with
  | .success writes verdict xneg yneg trials => publish writes verdict xneg yneg trials s
  | .error e => raiseError e s

/-- The launch step (30_encoding.md R75). -/
def launch (w : Word) (s : State) : State := { s with cmd := w, status := launchedStatus, trialcnt := 0 }

/-- The command the latched word selects; the block fetches nothing else (10_state.md R23, 30_encoding.md
R76). -/
def fetch (s : State) : Decoded := decode s.cmd

/-- Entropy words popped, `rest` left in the stream (41_sampler.md R120). -/
def popTo (rest : List Word) (s : State) : State :=
  { s with entropy := rest, entropyPos := s.entropyPos + (s.entropy.length - rest.length) }

/-- The source supplies the next word (41_sampler.md R120). -/
def supplyEntropy (w : Word) (s : State) : State := { s with entropy := s.entropy ++ [w] }

/-- ID, "RSA1" (10_state.md R27). -/
def idWord : Word := 0x52534131

/-- CFG: bits 7:0 are LIMBS, bits 31:8 read 0 (10_state.md R28). -/
def cfgWord (c : Config) : Word := zext 32 (BitVec.ofNat 8 c.limbs)

/-- What a mapped offset of the window holds (20_memory.md R52). -/
inductive Target where
  | id
  | cfg
  | cmd
  | status
  | rounds
  | trialcnt
  /-- Limb `i` of `x[k]`. -/
  | limb (k : RegNo) (i : Nat)
  deriving DecidableEq, Repr

/-- Where limb `i` of `x[k]` stands in the window (20_memory.md R52). -/
def limbAddr (k : RegNo) (i : Nat) : Nat := 0x1000 + 0x200 * k.val + 4 * i

/-- The target of an offset, none where the map has none (20_memory.md R52, R57). -/
def targetAt (c : Config) (addr : Nat) : Option Target :=
  if addr % 4 ≠ 0 then none
  else if addr < 0x1000 then
    match addr with
    | 0x000 => some .id
    | 0x004 => some .cfg
    | 0x008 => some .cmd
    | 0x00C => some .status
    | 0x010 => some .rounds
    | 0x014 => some .trialcnt
    | _ => none
  else if addr < 0x2000 then
    let i := addr % 0x200 / 4
    if i < c.limbs then some (.limb (Fin.ofNat 8 ((addr - 0x1000) / 0x200)) i) else none
  else none

/-- The word a target reads as (10_state.md R27 to R32, 20_memory.md R53). -/
def readTarget (t : Target) (s : State) : Word :=
  match t with
  | .id => idWord
  | .cfg => cfgWord s.config
  | .cmd => s.cmd
  | .status => statusWord s.status
  | .rounds => s.rounds
  | .trialcnt => s.trialcnt
  | .limb k i => limbOf (readReg k s) i

/-- Whether BUSY lets the host read the target (20_memory.md R55). -/
def mayRead (t : Target) (s : State) : Bool :=
  match t with
  | .limb _ _ => !s.status.busy
  | _ => true

/-- Whether the target is writable and BUSY lets the host write it (20_memory.md R52, R55). -/
def mayWrite (t : Target) (s : State) : Bool :=
  match t with
  | .cmd | .rounds | .limb _ _ => !s.status.busy
  | _ => false

/-- An admitted write: a launch, ROUNDS or one limb (10_state.md R29, R31; 20_memory.md R54). -/
def writeTarget (t : Target) (v : Word) (s : State) : State :=
  match t with
  | .cmd => launch v s
  | .rounds => { s with rounds := v }
  | .limb k i => writeReg k (withLimb (readReg k s) i v) s
  | _ => s

/-- `MemRead(addr, n)`: the response; a read changes no state (20_memory.md R50). -/
def memRead (addr n : Nat) (s : State) : BusResponse :=
  match targetAt s.config addr with
  | some t => if n = 4 ∧ mayRead t s then .okData (readTarget t s) else .err
  | none => .err

/-- `MemWrite(addr, n, v)`: the response and the state after it (20_memory.md R51). -/
def memWrite (addr n : Nat) (v : Word) (s : State) : BusResponse × State :=
  match targetAt s.config addr with
  | some t => if n = 4 ∧ mayWrite t s then (.ok, writeTarget t v s) else (.err, s)
  | none => (.err, s)

/-- The response to an access (20_memory.md R50, R51). -/
def accessResponse (a : Access) (s : State) : BusResponse :=
  match a with
  | .read addr n => memRead addr n s
  | .write addr n v => (memWrite addr n v s).1

/-- The block's state after an access (20_memory.md R50, R51). -/
def accessEffect (a : Access) (s : State) : State :=
  match a with
  | .read _ _ => s
  | .write addr n v => (memWrite addr n v s).2

/-- One host step: the access is performed and the bus answers (20_memory.md R61). -/
def hostAccess (a : Access) (s : State) : State :=
  { accessEffect a s with response := some (accessResponse a s) }

end Sys2Proof.Machine
end

