-- ==== Sys2Proof/Machine/Modexp.lean ====
section
/-! DEFINITION. The modular exponentiation family: ModExp by its value, the reference algorithm, MODEXP
(43_modexp.md R150 to R154). -/

namespace Sys2Proof.Machine

/-- `ModExp(b, e, m)`, the normative value, for `m > 0` (43_modexp.md R150). -/
def modExp (b e m : Nat) : Nat := b ^ e % m

/-- The loop of the reference algorithm: bits `i - 1` down to 0 of `e` are still to do
(43_modexp.md R151). -/
def modExpLoop (b e m : Nat) : Nat → Nat → Nat
  | 0, r => r
  | i + 1, r =>
    let sq := r * r % m
    modExpLoop b e m i (if e.testBit i then sq * b % m else sq)

/-- `ModExpRef(b, e, m)`, left-to-right binary (43_modexp.md R151). -/
def modExpRef (b e m : Nat) : Nat := modExpLoop b e m (bitLen e) (1 % m)

/-- The pseudocode of MODEXP on the values of its sources (43_modexp.md R152). The engine runs the reference
algorithm; only its value is normative (log 10). -/
def modexpOutcome (rd : RegNo) (b e m : Nat) : CmdOutcome :=
  if m = 0 then .error .zeroMod else .success [(rd, modExpRef b e m)] false false false 0

/-- MODEXP rd, rb, re, rm (43_modexp.md R152). -/
def execModexp (rd rb re rm : RegNo) (s : State) : Host.Outcome State Fault Refusal :=
  .next (complete (modexpOutcome rd (readReg rb s) (readReg re s) (readReg rm s)) s)

end Sys2Proof.Machine
end

