-- ==== Sys2Proof/Machine/Modinv.lean ====
section
/-! DEFINITION. The modular inverse family: the extended Euclidean algorithm, EGCD and MODINV
(42_modinv.md R130 to R137). -/

namespace Sys2Proof.Machine

/-- A gcd and two Bézout coefficients (42_modinv.md R130). -/
abbrev GcdTriple := Nat × Int × Int

/-- `adjust`: the triple of `(b mod a, a)` to the triple of `(a, b)`, `q = b div a` (42_modinv.md R131). -/
def adjust (q : Nat) (t : GcdTriple) : GcdTriple := (t.1, t.2.2 - (q : Int) * t.2.1, t.2.1)

/-- The recursion of `ExtendedGcd`, cut off after `fuel` steps; `fuel = a` never cuts it, since
`b mod a < a` (42_modinv.md R130; log 11). -/
def extendedGcdFrom : (fuel : Nat) → (a b : Nat) → GcdTriple
  | 0, _, b => (b, 0, 1)
  | fuel + 1, a, b => if a = 0 then (b, 0, 1) else adjust (b / a) (extendedGcdFrom fuel (b % a) a)

/-- `ExtendedGcd(a, b)`, the normative triple (42_modinv.md R130). -/
def extendedGcd (a b : Nat) : GcdTriple := extendedGcdFrom a a b

/-- The loop of the iterative form, cut off after `fuel` rounds (42_modinv.md R132). -/
def iterateGcd : (fuel : Nat) → (r0 r1 : Nat) → (s0 s1 t0 t1 : Int) → GcdTriple
  | 0, r0, _, s0, _, t0, _ => (r0, s0, t0)
  | fuel + 1, r0, r1, s0, s1, t0, t1 =>
    if r1 = 0 then (r0, s0, t0)
    else
      let q : Int := (r0 / r1 : Nat)
      iterateGcd fuel r1 (r0 - r0 / r1 * r1) s1 (s0 - q * s1) t1 (t0 - q * t1)

/-- `ExtendedGcdIter(a, b)`: the first division is `b` by `a` (42_modinv.md R132). -/
def extendedGcdIter (a b : Nat) : GcdTriple := iterateGcd a b a 0 1 1 0

/-- The pseudocode of EGCD on the values of its sources (42_modinv.md R134); `width` is W. Equal destinations
are an illegal word (30_encoding.md R74 c), which `decode` never yields as a command (log 12). -/
def egcdOutcome (width : Nat) (rg rx ry : RegNo) (a b : Nat) : CmdOutcome :=
  if !distinctDests rg rx ry then .error .illegal
  else
    let t := extendedGcd a b
    if 2 ^ width ≤ t.1 ∨ 2 ^ width ≤ t.2.1.natAbs ∨ 2 ^ width ≤ t.2.2.natAbs then .error .range
    else
      .success [(rg, t.1), (rx, t.2.1.natAbs), (ry, t.2.2.natAbs)] false (signFlag t.2.1) (signFlag t.2.2) 0

/-- EGCD rg, rx, ry, ra, rb (42_modinv.md R134). -/
def execEgcd (rg rx ry ra rb : RegNo) (s : State) : Host.Outcome State Fault Refusal :=
  .next (complete (egcdOutcome s.config.width rg rx ry (readReg ra s) (readReg rb s)) s)

/-- `ModInverse(a, m)` for `m > 0`, none where it is NoInverse (42_modinv.md R135). -/
def modInverse (a m : Nat) : Option Nat :=
  let t := extendedGcd (a % m) m
  if t.1 ≠ 1 then none else some (floorMod t.2.1 m)

/-- The pseudocode of MODINV on the values of its sources (42_modinv.md R136). -/
def modinvOutcome (rd : RegNo) (a m : Nat) : CmdOutcome :=
  if m = 0 then .error .zeroMod
  else
    match modInverse a m with
    | none => .error .noInverse
    | some r => .success [(rd, r)] false false false 0

/-- MODINV rd, ra, rm (42_modinv.md R136). -/
def execModinv (rd ra rm : RegNo) (s : State) : Host.Outcome State Fault Refusal :=
  .next (complete (modinvOutcome rd (readReg ra s) (readReg rm s)) s)

end Sys2Proof.Machine
end

