-- ==== Sys2Proof/Machine/Sampler.lean ====
section
/-! DEFINITION. The uniform sampler and SAMPLE (41_sampler.md R120 to R125). The stream is what the source has
supplied so far; where it does not let the pseudocode end, the completion step is not enabled
(30_encoding.md R79; log 6). -/

namespace Sys2Proof.Machine

/-- The attempts of `SampleRange`: each takes `nw` words and accepts or rejects them (41_sampler.md R122).
`none`: the supplied words run out first. Every rejected attempt takes at least one word, so `fuel` attempts,
one more than there are words, never cut the loop off. -/
def sampleAttempts (lo span k nw : Nat) : (fuel : Nat) → List Word → Option (Nat × List Word)
  | 0, _ => none
  | fuel + 1, ws =>
    if ws.length < nw then none
    else
      let r := assemble (ws.take nw) % 2 ^ k
      if r < span then some (lo + r, ws.drop nw) else sampleAttempts lo span k nw fuel (ws.drop nw)

/-- `span`, the number of values in `[lo, hi]` (41_sampler.md R122). -/
def sampleSpan (lo hi : Nat) : Nat := hi - lo + 1

/-- `k`, the bits one attempt keeps (41_sampler.md R122). -/
def sampleBits (lo hi : Nat) : Nat := bitLen (sampleSpan lo hi - 1)

/-- `nw`, the words one attempt pops (41_sampler.md R122). -/
def sampleWords (lo hi : Nat) : Nat := ceilDiv (sampleBits lo hi) 32

/-- `SampleRange(lo, hi)` for `lo ≤ hi` on a stream: the draw and the words left (41_sampler.md R122). -/
def sampleRange (lo hi : Nat) (ws : List Word) : Option (Nat × List Word) :=
  sampleAttempts lo (sampleSpan lo hi) (sampleBits lo hi) (sampleWords lo hi) (ws.length + 1) ws

/-- SAMPLE rd, rlo, rhi (41_sampler.md R124); it waits while the supplied words do not let it end. -/
def execSample (rd rlo rhi : RegNo) (s : State) : Host.Outcome State Fault Refusal :=
  if readReg rhi s < readReg rlo s then .next (raiseError .operand s)
  else
    match sampleRange (readReg rlo s) (readReg rhi s) s.entropy with
    | none => .next s
    | some (v, rest) => .next (complete (.success [(rd, v)] false false false 0) (popTo rest s))

end Sys2Proof.Machine
end

