-- ==== Sys2Proof/Machine/Primality.lean ====
section
/-! DEFINITION. The primality family: Miller-Rabin, MRTEST and MRTRIAL (40_primality.md R100 to R108). -/

namespace Sys2Proof.Machine

/-- The three answers of `Prescreen` (40_primality.md R100). -/
inductive Screen where
  | reject
  | accept
  | goOn
  deriving DecidableEq, Repr

/-- `Prescreen(n)` (40_primality.md R100). -/
def prescreen (n : Nat) : Screen :=
  if n ≤ 1 then .reject else if n = 2 ∨ n = 3 then .accept else if n % 2 = 0 then .reject else .goOn

/-- The loop of `Decompose`: halve `d` while it is even (40_primality.md R101). From `d ≥ 1` it ends within
`d` rounds. -/
def halveWhileEven : (fuel : Nat) → (d s : Nat) → Nat × Nat
  | 0, d, s => (d, s)
  | fuel + 1, d, s => if d % 2 = 0 then halveWhileEven fuel (d / 2) (s + 1) else (d, s)

/-- `Decompose(n)` for odd `n ≥ 5`: `(d, s)` with `n - 1 = d · 2^s`, `d` odd (40_primality.md R101). -/
def decompose (n : Nat) : Nat × Nat := halveWhileEven (n - 1) (n - 1) 0

/-- The squarings of a trial: pass if one of the next `count` squares is `n - 1` (40_primality.md R102). -/
def squaresReach (n : Nat) : (count : Nat) → (x : Nat) → Bool
  | 0, _ => false
  | count + 1, x => let y := x * x % n; if y = n - 1 then true else squaresReach n count y

/-- `Trial(n, a, d, s)`: true is pass (40_primality.md R102). -/
def trial (n a d s : Nat) : Bool :=
  let x := modExpRef a d n
  if x = 1 ∨ x = n - 1 then true else squaresReach n (s - 1) x

/-- The trials of `IsProbablyPrime`: `left` still to run, `done` run and passed. One fresh base a trial, drawn
just before it; no draw after a failing trial (40_primality.md R103). -/
def runTrials (n d s : Nat) : (left done : Nat) → List Word → Option (Bool × Nat × List Word)
  | 0, done, ws => some (true, done, ws)
  | left + 1, done, ws =>
    match sampleRange 2 (n - 2) ws with
    | none => none
    | some (a, rest) =>
      if trial n a d s then runTrials n d s left (done + 1) rest else some (false, done + 1, rest)

/-- `IsProbablyPrime(n, rounds)` on a stream: result, trials, words left (40_primality.md R103). -/
def isProbablyPrime (n rounds : Nat) (ws : List Word) : Option (Bool × Nat × List Word) :=
  match prescreen n with
  | .reject => some (false, 0, ws)
  | .accept => some (true, 0, ws)
  | .goOn => runTrials n (decompose n).1 (decompose n).2 rounds 0 ws

/-- MRTEST rn (40_primality.md R104); it waits while the supplied words do not let it end. -/
def execMrtest (rn : RegNo) (s : State) : Host.Outcome State Fault Refusal :=
  match isProbablyPrime (readReg rn s) s.rounds.toNat s.entropy with
  | none => .next s
  | some (result, trials, rest) =>
    .next (complete (.success [] result false false trials) (popTo rest s))

/-- The pseudocode of MRTRIAL on the values of its sources (40_primality.md R106). -/
def mrtrialOutcome (n a : Nat) : CmdOutcome :=
  if n < 5 ∨ n % 2 = 0 then .error .operand
  else if a < 2 ∨ n - 2 < a then .error .operand
  else .success [] (trial n a (decompose n).1 (decompose n).2) false false 1

/-- MRTRIAL rn, ra (40_primality.md R106). -/
def execMrtrial (rn ra : RegNo) (s : State) : Host.Outcome State Fault Refusal :=
  .next (complete (mrtrialOutcome (readReg rn s) (readReg ra s)) s)

end Sys2Proof.Machine
end

