-- ==== Sys2Proof/Machine/Dispatch.lean ====
section
/-! DEFINITION. exec: the completion step of each command, one arm a constructor (30_encoding.md R76). -/

namespace Sys2Proof.Machine

def exec (i : Instr) (s : State) : Host.Outcome State Fault Refusal :=
  match i with
  | .modexp rd rb re rm => Sys2Proof.Machine.execModexp rd rb re rm s
  | .egcd rg rx ry ra rb => Sys2Proof.Machine.execEgcd rg rx ry ra rb s
  | .modinv rd ra rm => Sys2Proof.Machine.execModinv rd ra rm s
  | .mrtest rn => Sys2Proof.Machine.execMrtest rn s
  | .mrtrial rn ra => Sys2Proof.Machine.execMrtrial rn ra s
  | .sample rd rlo rhi => Sys2Proof.Machine.execSample rd rlo rhi s

end Sys2Proof.Machine
end

