-- ==== Sys2Proof/Machine/Engine.lean ====
section
/-! DEFINITION. What each agent's step does to the machine (00_scope.md R3): the engine, the host, the entropy
source, reset. -/

namespace Sys2Proof.Machine

/-- The engine's turn: with a command in flight, its completion step; when idle, nothing
(30_encoding.md R76, 60_exceptions.md R197). -/
def engineStep (s : State) : Host.Outcome State Fault Refusal :=
  if s.status.busy then
    match fetch s with
    | .command i => exec i s
    | .illegal _ => .next (raiseError .illegal s)
  else .next s

/-- The most entropy words the command in flight can have popped from the supplied stream: those its
completion would consume, or all of them while it waits for more (70_reset_and_hazards.md R201, 30_encoding.md
R79). -/
def poppable (s : State) : Nat :=
  match engineStep s with
  | .next t => if t.status.busy then s.entropy.length else s.entropy.length - t.entropy.length
  | .fault _ => 0
  | .refused _ => 0

/-- Reset: every register to its reset value, the command in flight abandoned without trace; the stream goes
on after the words already popped (70_reset_and_hazards.md R200 to R202; log 5). The parameters, the stream
and the steps to come are the environment's. -/
def resetStep (lost : Nat) (s : State) : State :=
  let n := if s.status.busy then min lost (poppable s) else 0
  { State.resetOf s.config with
    entropy := s.entropy.drop n, entropyPos := s.entropyPos + n, agenda := s.agenda }

/-- One step of one agent. -/
def perform (e : Event) (s : State) : Host.Outcome State Fault Refusal :=
  match e with
  | .engine => engineStep s
  | .host a => .next (hostAccess a s)
  | .hostLine a =>
    if accessResponse a s = .err then .fault .errWhereOkRequired else .next (hostAccess a s)
  | .entropy w => .next (supplyEntropy w s)
  | .reset lost => .next (resetStep lost s)

/-- The state in which `w` has been launched and the engine moves next. An empty agenda is the engine's turn
already (log 9). -/
def launchForEngine (w : Word) (s : State) : State :=
  { launch w s with agenda := if s.agenda = [] then [] else .engine :: s.agenda }

end Sys2Proof.Machine
end

