-- ==== Sys2Proof/Machine/Step.lean ====
section
/-! DEFINITION. One step of the machine: the next agent in the agenda moves; with nothing more to come, the
engine does (20_memory.md R61; log 4). Steps are untimed (70_reset_and_hazards.md R212; log 18). -/

namespace Sys2Proof.Machine

/-- One atomic step of the agent that moves next. -/
def step (s : State) : Host.Outcome State Fault Refusal :=
  match s.agenda with
  | [] => engineStep s
  | e :: rest => perform e { s with agenda := rest }

/-- `s` with the command word `w` launched, so that the very next step completes it (log 9). -/
def State.withFetchWord (s : State) (nbits w : Nat) : State :=
  launchForEngine (BitVec.ofNat 32 (w % 2 ^ nbits)) s

end Sys2Proof.Machine
end

