-- ==== Sys2Proof/Machine/HostLines.lean ====
section
/-! DEFINITION. Host programs: the lines of 30_encoding.md R81 as operations of a host that runs alone with the
block. The engine may take its turn before any access of the program (30_encoding.md R76,
93_implementation_defined.md Z15; log 14). -/

namespace Sys2Proof.Machine

/-- Why a host program fails. -/
inductive HostFault where
  /-- A line got `ERR` where the program requires `OK` (30_encoding.md R81). -/
  | errResponse
  /-- A program that needs a value of 2^W or more in a register (93_implementation_defined.md Z20; log 17). -/
  | tooWide
  /-- A sequence called outside its domain (93_implementation_defined.md U10, Z20; log 17). -/
  | domain
  /-- The document's NoInverseError (44_host_sequences.md R164, R175). -/
  | noInverse
  /-- The document's DecodeError (44_host_sequences.md R173, R175). -/
  | decode
  deriving DecidableEq, Repr

/-- A host program under way: the block, and the environment's choice when a command completes: for each access
the program still makes, in order, whether the engine takes its turn just before it. Past the end of the list it
always does (93_implementation_defined.md Z15; log 14). -/
structure HostRun where
  state : State
  turns : List Bool
  deriving DecidableEq, Repr

/-- The state after the engine's turn (30_encoding.md R76). -/
def engineTurn (s : State) : State :=
  match engineStep s with
  | .next t => t
  | .fault _ => s
  | .refused _ => s

/-- What happens before the program's next access: the engine's turn, or nothing (30_encoding.md R76). -/
def HostRun.advance (r : HostRun) : HostRun where
  state := if r.turns.headD true then engineTurn r.state else r.state
  turns := r.turns.tail

/-- Where a host program stands: done with a value, failed, or waiting in a WAIT for entropy the source has
not supplied (70_reset_and_hazards.md R211). -/
inductive HostResult (α : Type) where
  | done (a : α) (r : HostRun)
  | failed (f : HostFault) (r : HostRun)
  | waiting (r : HostRun)
  deriving DecidableEq, Repr

/-- A host program that returns an `α`. -/
abbrev HostProg (α : Type) := HostRun → HostResult α

/-- The program that returns `a` at once. -/
def hostReturn {α : Type} (a : α) : HostProg α := fun r => .done a r

/-- The program that fails. -/
def hostFail {α : Type} (f : HostFault) : HostProg α := fun r => .failed f r

/-- One program after another. -/
def hostThen {α β : Type} (p : HostProg α) (q : α → HostProg β) : HostProg β := fun r =>
  match p r with
  | .done a t => q a t
  | .failed f t => .failed f t
  | .waiting t => .waiting t

/-- A program that needs registers to hold these values: refused before any access where one is 2^W or more
(93_implementation_defined.md Z20; log 17). -/
def hostNeeds {α : Type} (values : List Nat) (p : HostProg α) : HostProg α := fun r =>
  if ∀ V ∈ values, V < 2 ^ r.state.config.width then p r else .failed .tooWide r

/-- One access of the program, the engine's turn before it. -/
def hostLine (a : Access) : HostProg BusResponse := fun r =>
  .done (accessResponse a r.advance.state) { r.advance with state := hostAccess a r.advance.state }

/-- `WR off, v` (30_encoding.md R81). -/
def wr (off : Nat) (v : Word) : HostProg Unit :=
  hostThen (hostLine (.write off 4 v)) fun answer =>
  match answer with
  | .ok => hostReturn ()
  | .okData _ => hostFail .errResponse
  | .err => hostFail .errResponse

/-- `RD off` (30_encoding.md R81). -/
def rd (off : Nat) : HostProg Word :=
  hostThen (hostLine (.read off 4)) fun answer =>
  match answer with
  | .okData w => hostReturn w
  | .ok => hostFail .errResponse
  | .err => hostFail .errResponse

/-- A command line stands for `WR 0x008, word` (30_encoding.md R80). -/
def launchLine (i : Instr) : HostProg Unit := wr 0x008 (encode i)

/-- `SETROUNDS v` (30_encoding.md R81). -/
def setRounds (v : Word) : HostProg Unit := wr 0x010 v

/-- Limb writes of `V` to `x[k]`, one for each listed index. -/
def loadLimbs (k : RegNo) (V : Nat) : List Nat → HostProg Unit
  | [] => hostReturn ()
  | i :: is => hostThen (wr (limbAddr k i) (limbOf V i)) fun _ => loadLimbs k V is

/-- `LDI rk, V`; requires `V < 2^W` (30_encoding.md R81). -/
def ldi (k : RegNo) (V : Nat) : HostProg Unit :=
  hostNeeds [V] fun r => loadLimbs k V (List.range r.state.config.limbs) r

/-- Limb reads of `x[k]`, one for each listed index. -/
def fetchLimbs (k : RegNo) : List Nat → HostProg (List Word)
  | [] => hostReturn []
  | i :: is =>
    hostThen (rd (limbAddr k i)) fun w => hostThen (fetchLimbs k is) fun ws => hostReturn (w :: ws)

/-- `RDR rk`: the sum of `data_i · 2^(32i)` (30_encoding.md R81). -/
def rdr (k : RegNo) : HostProg Nat := fun r =>
  hostThen (fetchLimbs k (List.range r.state.config.limbs)) (fun ws => hostReturn (assemble ws)) r

/-- At most `polls + 1` reads of STATUS, the last of them answered when it shows BUSY = 0. -/
def waitPolls : (polls : Nat) → HostProg Word
  | 0 => hostThen (rd 0x00C) fun w r => if w.getLsbD 0 then .waiting r else .done w r
  | polls + 1 => hostThen (rd 0x00C) fun w => if w.getLsbD 0 then waitPolls polls else hostReturn w

/-- `WAIT`: read STATUS until BUSY = 0 (30_encoding.md R81). It reads BUSY = 1 as often as the turns to come have
the engine wait, possibly never; a read after the last of them follows the engine's turn, so BUSY = 1 there means
that the command waits for entropy (log 14). -/
def wait : HostProg Word := fun r => waitPolls r.turns.length r

/-- A command line and the WAIT after it: the status of the command. -/
def runCommand (i : Instr) : HostProg Word := hostThen (launchLine i) fun _ => wait

/-- A line of a host program (30_encoding.md R81). -/
inductive HostLine where
  | wr (off : Nat) (v : Word)
  | rd (off : Nat)
  | command (i : Instr)
  | ldi (k : RegNo) (V : Nat)
  | rdr (k : RegNo)
  | setRounds (v : Word)
  | wait
  deriving DecidableEq, Repr

/-- Run a line; what it reads is the answer, 0 where it reads nothing. -/
def runLine : HostLine → HostProg Nat
  | .wr off v => hostThen (wr off v) fun _ => hostReturn 0
  | .rd off => hostThen (rd off) fun w => hostReturn w.toNat
  | .command i => hostThen (launchLine i) fun _ => hostReturn 0
  | .ldi k V => hostThen (ldi k V) fun _ => hostReturn 0
  | .rdr k => rdr k
  | .setRounds v => hostThen (setRounds v) fun _ => hostReturn 0
  | .wait => hostThen wait fun w => hostReturn w.toNat

/-- The values a program's LDI lines load. -/
def loadedValues : List HostLine → List Nat
  | [] => []
  | .ldi _ V :: ls => V :: loadedValues ls
  | .wr _ _ :: ls => loadedValues ls
  | .rd _ :: ls => loadedValues ls
  | .command _ :: ls => loadedValues ls
  | .rdr _ :: ls => loadedValues ls
  | .setRounds _ :: ls => loadedValues ls
  | .wait :: ls => loadedValues ls

/-- Lines one after the other (30_encoding.md R81). -/
def runLines : List HostLine → HostProg (List Nat)
  | [] => hostReturn []
  | l :: ls => hostThen (runLine l) fun v => hostThen (runLines ls) fun vs => hostReturn (v :: vs)

/-- A host program is a list of lines, refused where a value it loads is 2^W or more (30_encoding.md R81,
93_implementation_defined.md Z20). -/
def runProgram (ls : List HostLine) : HostProg (List Nat) := hostNeeds (loadedValues ls) (runLines ls)

end Sys2Proof.Machine
end

