-- ==== Sys2Proof/Machine/HostSequences.lean ====
section
/-! DEFINITION. The host sequences GENPRIME, KEYGEN, ENCRYPT and DECRYPT (44_host_sequences.md R160 to R175):
software over the block's commands, not hardware. Their loops have no cap: they end, fail, or wait for entropy
(log 14). -/

namespace Sys2Proof.Machine

/-- PublicKey, the pair (e, n) (44_host_sequences.md R160). -/
structure PublicKey where
  e : Nat
  n : Nat
  deriving DecidableEq, Repr

/-- PrivateKey, the pair (d, n) (44_host_sequences.md R160). -/
structure PrivateKey where
  d : Nat
  n : Nat
  deriving DecidableEq, Repr

/-- KeyPair (44_host_sequences.md R160). -/
structure KeyPair where
  pub : PublicKey
  priv : PrivateKey
  deriving DecidableEq, Repr

/-- The candidate: top bit and bottom bit forced (44_host_sequences.md R162). -/
def forceBits (bits c : Nat) : Nat := (c ||| 2 ^ (bits - 1)) ||| 1

/-- The candidate loop of GENPRIME. Every round pops at least one word, so `rounds`, one more than the words
supplied, never cut it off (44_host_sequences.md R162). -/
def genPrimeLoop (bits : Nat) : (rounds : Nat) → HostProg Nat
  | 0 => fun r => .waiting r
  | rounds + 1 =>
    hostThen (runCommand (.sample 0 6 7)) fun _ =>
    hostThen (rdr 0) fun c =>
    hostThen (ldi 0 (forceBits bits c)) fun _ =>
    hostThen (runCommand (.mrtest 0)) fun st =>
    if st.getLsbD 3 then hostReturn (forceBits bits c) else genPrimeLoop bits rounds

/-- GENPRIME(bits), whose ROUNDS must hold 5 (44_host_sequences.md R162). `bits = 0` has no candidate and is
refused (93_implementation_defined.md U10), and so are `bits > W` (Z20) and another ROUNDS, before any access
(log 17). -/
def genPrime (bits : Nat) : HostProg Nat :=
  hostNeeds [2 ^ bits - 1] fun r =>
  if bits = 0 ∨ r.state.rounds ≠ 5 then .failed .domain r
  else
    hostThen (ldi 6 0) (fun _ =>
    hostThen (ldi 7 (2 ^ bits - 1)) fun _ =>
    genPrimeLoop bits (r.state.entropy.length + 1)) r

/-- EGCD of e in r1 and φ in r6, the gcd read back (44_host_sequences.md R164). -/
def gcdOfExponent : HostProg Nat := hostThen (runCommand (.egcd 3 4 5 1 6)) fun _ => rdr 3

/-- The fallback loop of KEYGEN: resample e until it is coprime to φ (44_host_sequences.md R164). -/
def exponentLoop : (rounds : Nat) → HostProg Nat
  | 0 => fun r => .waiting r
  | rounds + 1 =>
    hostThen (runCommand (.sample 1 0 7)) fun _ =>
    hostThen gcdOfExponent fun g =>
    if g = 1 then rdr 1 else exponentLoop rounds

/-- The public exponent: 65537, or the fallback exactly when its gcd with φ is not 1 (44_host_sequences.md
R164, R166). -/
def chooseExponent (phi : Nat) : HostProg Nat :=
  hostThen (ldi 1 65537) fun _ =>
  hostThen (ldi 6 phi) fun _ =>
  hostThen gcdOfExponent fun g =>
  if g = 1 then hostReturn 65537
  else
    hostThen (ldi 0 2) fun _ =>
    hostThen (ldi 7 (phi - 1)) fun _ r =>
    exponentLoop (r.state.entropy.length + 1) r

/-- MODINV of e in r1 modulo φ in r6, its error turned into a failure of the call (44_host_sequences.md R164,
R175). -/
def privateExponent : HostProg Nat :=
  hostThen (runCommand (.modinv 2 1 6)) fun st =>
  if st.getLsbD 2 ∧ st.extractLsb' 8 8 = 2 then hostFail .noInverse else rdr 2

/-- KEYGEN(bits) for `2 ≤ bits div 2` and `bits ≤ W`, and ROUNDS as GENPRIME needs it; nothing compares q with p
(44_host_sequences.md R164, R165; log 17). -/
def keyGen (bits : Nat) : HostProg KeyPair := fun r =>
  if bits / 2 < 2 ∨ r.state.config.width < bits then .failed .domain r
  else
    hostThen (genPrime (bits / 2)) (fun p =>
    hostThen (genPrime (bits / 2)) fun q =>
    hostThen (chooseExponent ((p - 1) * (q - 1))) fun e =>
    hostThen privateExponent fun d =>
    hostReturn ⟨⟨e, p * q⟩, ⟨d, p * q⟩⟩) r

/-- `BytesToInt`: big-endian, the first byte most significant (44_host_sequences.md R171). -/
def bytesToInt (bs : List Byte) : Nat := bs.foldl (fun acc b => acc * 256 + b.toNat) 0

/-- How many bytes `IntToBytes(v)` has (44_host_sequences.md R171). -/
def byteLength (v : Nat) : Nat := ceilDiv (bitLen v) 8

/-- `IntToBytes(v)`: the minimal big-endian byte sequence (44_host_sequences.md R171). -/
def intToBytes (v : Nat) : List Byte :=
  (List.range (byteLength v)).map fun j => BitVec.ofNat 8 (v / 2 ^ (8 * (byteLength v - 1 - j)))

/-- ENCRYPT(text, (e, n)); `m < n` is not checked, but `m`, `e` and `n` must fit a register
(44_host_sequences.md R172, 93_implementation_defined.md Z20). -/
def encrypt {Text : Type} (enc : TextEncoding Text) (text : Text) (key : PublicKey) : HostProg Nat :=
  hostNeeds [bytesToInt (enc.encode text), key.e, key.n] <|
  hostThen (ldi 0 (bytesToInt (enc.encode text))) fun _ =>
  hostThen (ldi 1 key.e) fun _ =>
  hostThen (ldi 3 key.n) fun _ =>
  hostThen (runCommand (.modexp 4 0 1 3)) fun _ => rdr 4

/-- DECRYPT(c, (d, n)), whose numbers must fit a register (44_host_sequences.md R173,
93_implementation_defined.md Z20). -/
def decrypt {Text : Type} (enc : TextEncoding Text) (c : Nat) (key : PrivateKey) : HostProg Text :=
  hostNeeds [c, key.d, key.n] <|
  hostThen (ldi 4 c) fun _ =>
  hostThen (ldi 2 key.d) fun _ =>
  hostThen (ldi 3 key.n) fun _ =>
  hostThen (runCommand (.modexp 5 4 2 3)) fun _ =>
  hostThen (rdr 5) fun m =>
  match enc.decode (intToBytes m) with
  | some t => hostReturn t
  | none => hostFail .decode

end Sys2Proof.Machine
end

