-- ==== Sys2Proof/Safety.lean ====
section
/-! DEFINITION. The terms the claims use: the invariants of 10_state.md R37, a command's sources and
destinations and its frame (10_state.md R21), the illegal words (30_encoding.md R74), the accesses the bus
refuses (60_exceptions.md R182), what a passing trial means (40_primality.md R102), and the attempts of the
sampler (41_sampler.md R122), each written from the spec's rule and not from the model's function. -/

namespace Sys2Proof.Machine

/-- The opcode of the latched command word, `CMD[7:0]`. -/
def cmdOpcode (s : State) : Nat := s.cmd.toNat % 2 ^ 8

/-- The invariants of every state reachable from reset (10_state.md R37), with the count of trials
(10_state.md R32), the known error codes (60_exceptions.md R180) and the parameters' range (00_scope.md R6). -/
structure State.Inv (s : State) : Prop where
  config_wf : s.config.Wf
  regs_fit : ∀ k : RegNo, readReg k s < 2 ^ s.config.width
  busy_or_done : ¬ (s.status.busy = true ∧ s.status.done = true)
  err_done : s.status.err = true → s.status.done = true
  code_iff_err : s.status.errCode ≠ 0 ↔ s.status.err = true
  code_known : s.status.errCode.toNat ≤ 5
  busy_clear : s.status.busy = true → s.status.err = false ∧ s.status.verdict = false ∧
    s.status.xneg = false ∧ s.status.yneg = false ∧ s.status.errCode = 0 ∧ s.trialcnt = 0
  signs_egcd : s.status.xneg = true ∨ s.status.yneg = true →
    s.status.done = true ∧ s.status.err = false ∧ cmdOpcode s = 0x02
  verdict_mr : s.status.verdict = true →
    s.status.done = true ∧ s.status.err = false ∧ (cmdOpcode s = 0x04 ∨ cmdOpcode s = 0x05)
  trials_mr : s.trialcnt ≠ 0 →
    s.status.done = true ∧ s.status.err = false ∧ (cmdOpcode s = 0x04 ∨ cmdOpcode s = 0x05)

/-- The bound of the last clause of 10_state.md R37. -/
def State.TrialsWithinRounds (s : State) : Prop :=
  cmdOpcode s = 0x04 ∧ s.status.done = true → s.trialcnt.toNat ≤ s.rounds.toNat

/-- The registers a command writes (10_state.md R21). -/
def dests : Instr → List RegNo
  | .modexp rd _ _ _ => [rd]
  | .egcd rg rx ry _ _ => [rg, rx, ry]
  | .modinv rd _ _ => [rd]
  | .mrtest _ => []
  | .mrtrial _ _ => []
  | .sample rd _ _ => [rd]

/-- The registers a command reads (10_state.md R21). -/
def sources : Instr → List RegNo
  | .modexp _ rb re rm => [rb, re, rm]
  | .egcd _ _ _ ra rb => [ra, rb]
  | .modinv _ ra rm => [ra, rm]
  | .mrtest rn => [rn]
  | .mrtrial rn ra => [rn, ra]
  | .sample _ rlo rhi => [rlo, rhi]

/-- The commands that pop entropy words (41_sampler.md R120). -/
def popsEntropy : Instr → Bool
  | .mrtest _ => true
  | .sample _ _ _ => true
  | .modexp _ _ _ _ => false
  | .egcd _ _ _ _ _ => false
  | .modinv _ _ _ => false
  | .mrtrial _ _ => false

/-- The values of 10_state.md R36, of the registers and of what the bus reads. -/
structure HasResetValues (t : State) : Prop where
  regs_zero : ∀ k : RegNo, readReg k t = 0
  cmd_zero : t.cmd = 0
  status_zero : statusWord t.status = 0
  not_in_flight : t.status.busy = false
  rounds_five : t.rounds = 5
  trialcnt_zero : t.trialcnt = 0
  id_reads : memRead 0x000 4 t = .okData 0x52534131
  cfg_reads : t.config.Wf → memRead 0x004 4 t = .okData (BitVec.ofNat 32 t.config.limbs)

/-- A completion's frame: what stays, the registers outside `ds` among it (30_encoding.md R76). -/
structure KeepsAllBut (ds : List RegNo) (s t : State) : Prop where
  config_eq : t.config = s.config
  cmd_eq : t.cmd = s.cmd
  rounds_eq : t.rounds = s.rounds
  agenda_eq : t.agenda = s.agenda
  response_eq : t.response = s.response
  regs_eq : ∀ k : RegNo, k ∉ ds → readReg k t = readReg k s

/-- The state after a command that pops nothing and ends without error: the flags and TRIALCNT given, one
operand register file, nothing else changed (30_encoding.md R76). -/
def completedWith (x : Vector Nat 8) (verdict xneg yneg : Bool) (trials : Nat) (s : State) : State :=
  { s with
    x := x
    status :=
      { busy := false, done := true, err := false, verdict := verdict, xneg := xneg, yneg := yneg,
        errCode := 0 }
    trialcnt := BitVec.ofNat 32 trials }

/-- The state after a command that ends with the error of that number (60_exceptions.md R185). -/
def failedWith (code : BitVec 8) (s : State) : State :=
  { s with
    status :=
      { busy := false, done := true, err := true, verdict := false, xneg := false, yneg := false,
        errCode := code }
    trialcnt := 0 }

/-- The state with the first `n` supplied entropy words popped (41_sampler.md R120). -/
def poppedBy (n : Nat) (s : State) : State :=
  { s with entropy := s.entropy.drop n, entropyPos := s.entropyPos + n }

/-- Bits `[lo+len-1 : lo]` of a command word as a number (30_encoding.md R70). -/
def bitsAt (w : Word) (lo len : Nat) : Nat := w.toNat / 2 ^ lo % 2 ^ len

/-- A bit of a field the word's format does not use is 1 (30_encoding.md R71, R74 b). -/
def UsesUnusedField (w : Word) : Prop :=
  (bitsAt w 0 8 = 0x01 ∧ bitsAt w 20 3 ≠ 0) ∨
  (bitsAt w 0 8 = 0x03 ∧ bitsAt w 17 6 ≠ 0) ∨
  (bitsAt w 0 8 = 0x04 ∧ (bitsAt w 8 3 ≠ 0 ∨ bitsAt w 14 9 ≠ 0)) ∨
  (bitsAt w 0 8 = 0x05 ∧ (bitsAt w 8 3 ≠ 0 ∨ bitsAt w 17 6 ≠ 0)) ∨
  (bitsAt w 0 8 = 0x06 ∧ bitsAt w 17 6 ≠ 0)

/-- The word is illegal by (a), (b) or (c) of 30_encoding.md R74. -/
def IllegalWord (w : Word) : Prop :=
  (bitsAt w 0 8 = 0 ∨ 7 ≤ bitsAt w 0 8) ∨
  (bitsAt w 23 9 ≠ 0 ∨ UsesUnusedField w) ∨
  (bitsAt w 0 8 = 0x02 ∧
    (bitsAt w 8 3 = bitsAt w 11 3 ∨ bitsAt w 8 3 = bitsAt w 14 3 ∨ bitsAt w 11 3 = bitsAt w 14 3))

/-- An aligned offset of the window the map leaves empty (20_memory.md R52). -/
def Unmapped (c : Config) (addr : Nat) : Prop :=
  (0x18 ≤ addr ∧ addr < 0x1000) ∨ (0x1000 ≤ addr ∧ c.limbs ≤ addr % 0x200 / 4)

/-- An offset of the operand window, 0x1000 to 0x1FFC (20_memory.md R55). -/
def InOperandWindow (addr : Nat) : Prop := 0x1000 ≤ addr ∧ addr < 0x2000

/-- The accesses the bus refuses, the list of 60_exceptions.md R182. -/
def Refused (s : State) : Access → Prop
  | .read addr n =>
    n ≠ 4 ∨ addr % 4 ≠ 0 ∨ 0x2000 ≤ addr ∨ Unmapped s.config addr ∨
      (s.status.busy = true ∧ InOperandWindow addr)
  | .write addr n _ =>
    n ≠ 4 ∨ addr % 4 ≠ 0 ∨ 0x2000 ≤ addr ∨ Unmapped s.config addr ∨
      (addr = 0x000 ∨ addr = 0x004 ∨ addr = 0x00C ∨ addr = 0x014) ∨
      (s.status.busy = true ∧ (addr = 0x008 ∨ addr = 0x010)) ∨
      (s.status.busy = true ∧ InOperandWindow addr)

/-- `a` is a base on which `n` passes a trial: with `n - 1 = d · 2^s`, `d` odd, `a^d` is 1 or one of
`a^d, a^(2d), …, a^(2^(s-1) d)` is -1 modulo `n` (40_primality.md R101, R102). -/
def PassesTrial (n a : Nat) : Prop :=
  ∃ d s : Nat, d % 2 = 1 ∧ n - 1 = d * 2 ^ s ∧
    (a ^ d % n = 1 ∨ ∃ i < s, a ^ (d * 2 ^ i) % n = n - 1)

/-- The words one attempt of the sampler pops, `ceil(bitlen(hi - lo) / 32)` (41_sampler.md R122). -/
def attemptWords (lo hi : Nat) : Nat := ((hi - lo).size + 31) / 32

/-- The value an attempt assembles from its words: the low `bitlen(hi - lo)` bits (41_sampler.md R122). -/
def attemptValue (lo hi : Nat) (block : List Word) : Nat := assemble block % 2 ^ (hi - lo).size

/-- An attempt on these words is rejected (41_sampler.md R122). -/
def RejectedAttempt (lo hi : Nat) (block : List Word) : Prop :=
  block.length = attemptWords lo hi ∧ hi - lo < attemptValue lo hi block

/-- An attempt on these words is accepted (41_sampler.md R122). -/
def AcceptedAttempt (lo hi : Nat) (block : List Word) : Prop :=
  block.length = attemptWords lo hi ∧ attemptValue lo hi block ≤ hi - lo

/-- The bases MRTEST draws one after the other for `n`, and the words left (40_primality.md R103). -/
def DrawnBases (n : Nat) : (bases : List Nat) → (ws rest : List Word) → Prop
  | [], ws, rest => rest = ws
  | a :: as, ws, rest => ∃ mid, sampleRange 2 (n - 2) ws = some (a, mid) ∧ DrawnBases n as mid rest

/-- The next event is a host access or line that the block admits and that writes this offset. -/
def NextWrites (s : State) (addr : Nat) : Prop :=
  ∃ v rest, (s.agenda = .host (.write addr 4 v) :: rest ∨ s.agenda = .hostLine (.write addr 4 v) :: rest) ∧
    s.status.busy = false

/-- The next event is a reset. -/
def NextResets (s : State) : Prop := ∃ lost rest, s.agenda = .reset lost :: rest

/-- The next event is a line of a host program that the bus refuses: the only step that stops
(30_encoding.md R81). -/
def NextLineRefused (s : State) : Prop :=
  ∃ a rest, s.agenda = .hostLine a :: rest ∧ Refused s a

end Sys2Proof.Machine
end

