-- ==== Sys2Proof/Certificates/Slice0/Obligations.lean ====
section
/-! DEFINITION. The statements for the provers, from the spec's numbered rules. A state `s` in a statement about
a command is the state at completion: BUSY = 1, CMD holds the word (30_encoding.md R76). -/

open Sys2Proof Sys2Proof.Machine

/-! ### Encoding -/

/-- 30_encoding.md R77: encoding followed by Decode gives the command back, every operand at every value. -/
def Obligations.DecodeOfEncodeIsTheCommand : Prop :=
  ∀ i : Instr, i.wellFormed = true → decode (encode i) = .command i

/-- 30_encoding.md R77: two different legal words decode to different commands; what decodes is well-formed. -/
def Obligations.DecodedCommandsEncodeBack : Prop :=
  ∀ (w : Word) (i : Instr), decode w = .command i → encode i = w ∧ i.wellFormed = true

/-- 30_encoding.md R71: a word selects a row exactly when `(w AND mask) = match`, for EGCD with the condition of
R74 (c) besides; the operands are the row's fields. -/
def Obligations.DecodeSelectsByMaskAndMatch : Prop :=
  ∀ (w : Word) (a b c d e : RegNo),
    (decode w = .command (.modexp a b c d) ↔
      w &&& 0xFFF000FF = 0x00000001 ∧ bitsAt w 8 3 = a.val ∧ bitsAt w 11 3 = b.val ∧ bitsAt w 14 3 = c.val ∧
        bitsAt w 17 3 = d.val) ∧
    (decode w = .command (.egcd a b c d e) ↔
      w &&& 0xFF8000FF = 0x00000002 ∧ (a ≠ b ∧ a ≠ c ∧ b ≠ c) ∧ bitsAt w 8 3 = a.val ∧ bitsAt w 11 3 = b.val ∧
        bitsAt w 14 3 = c.val ∧ bitsAt w 17 3 = d.val ∧ bitsAt w 20 3 = e.val) ∧
    (decode w = .command (.modinv a b c) ↔
      w &&& 0xFFFE00FF = 0x00000003 ∧ bitsAt w 8 3 = a.val ∧ bitsAt w 11 3 = b.val ∧ bitsAt w 14 3 = c.val) ∧
    (decode w = .command (.mrtest a) ↔ w &&& 0xFFFFC7FF = 0x00000004 ∧ bitsAt w 11 3 = a.val) ∧
    (decode w = .command (.mrtrial a b) ↔
      w &&& 0xFFFE07FF = 0x00000005 ∧ bitsAt w 11 3 = a.val ∧ bitsAt w 14 3 = b.val) ∧
    (decode w = .command (.sample a b c) ↔
      w &&& 0xFFFE00FF = 0x00000006 ∧ bitsAt w 8 3 = a.val ∧ bitsAt w 11 3 = b.val ∧ bitsAt w 14 3 = c.val)

/-- 30_encoding.md R74: an illegal word launches like any other and completes with E_ILLEGAL, no register
changed; every other word is a command. -/
def Obligations.IllegalWordsLaunchAndFail : Prop :=
  ∀ w : Word,
    (IllegalWord w →
      (∀ s : State, s.status.busy = false → memWrite 0x008 4 w s = (.ok, launch w s)) ∧
      (∀ s : State, s.status.busy = true → s.cmd = w → engineStep s = .next (failedWith 1 s))) ∧
    (¬ IllegalWord w → ∃ i : Instr, decode w = .command i)

/-- Words written out bit by bit from 30_encoding.md R70 and R71, one a command (95_test_vectors.md section
2.7). -/
def Obligations.SpecWordsDecode : Prop :=
  decode 0b00000000000001000100001100000001 = .command (.modexp 3 0 1 2) ∧
  decode 0b00000000000100010001101000000010 = .command (.egcd 2 3 4 0 1) ∧
  decode 0b00000000000000000100001000000011 = .command (.modinv 2 0 1) ∧
  decode 0b00000000000000000010100000000100 = .command (.mrtest 5) ∧
  decode 0b00000000000000011010100000000101 = .command (.mrtrial 5 6) ∧
  decode 0b00000000000000011111000000000110 = .command (.sample 0 6 7)

/-! ### One step -/

/-- 30_encoding.md R76: when the engine moves next and a legal command is in flight, the step is its completion.
That an empty agenda is the engine's turn is the model's choice (log 4). -/
def Obligations.StepRunsTheDecodedCommand : Prop :=
  ∀ (s : State) (i : Instr), s.status.busy = true → decode s.cmd = .command i →
    (s.agenda = [] → step s = exec i s) ∧
    (∀ rest, s.agenda = .engine :: rest → step s = exec i { s with agenda := rest })

/-- 60_exceptions.md R197: when idle the block does nothing and keeps all state. That an empty agenda is the
engine's turn is the model's choice (log 4). -/
def Obligations.IdleBlockKeepsItsState : Prop :=
  ∀ s : State, s.status.busy = false →
    (s.agenda = [] → step s = .next s) ∧
    (∀ rest, s.agenda = .engine :: rest → step s = .next { s with agenda := rest })

/-- 20_memory.md R50, R51, R61: the host's step performs every access the block admits, a plain one and a line of a
host program alike, and the bus answers OK(data) to a read and OK to a write; 30_encoding.md R75: the step that
launches a command; 41_sampler.md R120: the entropy source's step puts its word after those supplied. That the head
of the agenda moves, and that words can come before they are popped, is the model's choice (logs 4, 2). -/
def Obligations.HostAndEntropyStepsDoTheirWork : Prop :=
  ∀ (s : State) (rest : List Event),
    (∀ a, ¬ Refused s a → ∀ e, e = .host a ∨ e = .hostLine a →
      step { s with agenda := e :: rest } =
        .next { accessEffect a s with agenda := rest, response := some (accessResponse a s) }) ∧
    (∀ addr n, ¬ Refused s (.read addr n) →
      accessEffect (.read addr n) s = s ∧ ∃ w, accessResponse (.read addr n) s = .okData w) ∧
    (∀ addr n v, ¬ Refused s (.write addr n v) → accessResponse (.write addr n v) s = .ok) ∧
    (∀ v, s.status.busy = false →
      step { s with agenda := .host (.write 0x008 4 v) :: rest } = .next
        { s with
          agenda := rest, response := some .ok, cmd := v, trialcnt := 0
          status :=
            { busy := true, done := false, err := false, verdict := false, xneg := false, yneg := false,
              errCode := 0 } }) ∧
    (∀ w, step { s with agenda := .entropy w :: rest } =
      .next { s with agenda := rest, entropy := s.entropy ++ [w] })

/-- 30_encoding.md R81, 93_implementation_defined.md Z17: the machine stops exactly at a line of a host program
that gets ERR where it requires OK (log 8); every other step has a next state. -/
def Obligations.StepStopsOnlyAtARefusedLine : Prop :=
  ∀ s : State,
    (NextLineRefused s → step s = .fault .errWhereOkRequired) ∧
    (¬ NextLineRefused s → ∃ t, step s = .next t)

/-! ### The register window -/

/-- 60_exceptions.md R182: the bus answers ERR in exactly the listed cases; then nothing changes but the answer on
the bus, and a host program that required OK has faulted. -/
def Obligations.BusRefusesExactlyTheListedAccesses : Prop :=
  ∀ (s : State) (a : Access),
    (accessResponse a s = .err ↔ Refused s a) ∧
    (Refused s a → accessEffect a s = s ∧
      ∀ rest,
        step { s with agenda := .host a :: rest } = .next { s with agenda := rest, response := some .err } ∧
        step { s with agenda := .hostLine a :: rest } = .fault .errWhereOkRequired)

/-- 10_state.md R27, R28 and R29 to R32: what the six control registers read, at any time; the four read-only ones
refuse every write. -/
def Obligations.ControlRegistersRead : Prop :=
  ∀ s : State,
    memRead 0x000 4 s = .okData 0x52534131 ∧
    (s.config.Wf → ∃ w : Word, memRead 0x004 4 s = .okData w ∧ w.toNat = s.config.limbs) ∧
    memRead 0x008 4 s = .okData s.cmd ∧
    memRead 0x00C 4 s = .okData (statusWord s.status) ∧
    memRead 0x010 4 s = .okData s.rounds ∧
    memRead 0x014 4 s = .okData s.trialcnt ∧
    ∀ n v, memWrite 0x000 n v s = (.err, s) ∧ memWrite 0x004 n v s = (.err, s) ∧
      memWrite 0x00C n v s = (.err, s) ∧ memWrite 0x014 n v s = (.err, s)

/-- 10_state.md R30: every field of STATUS in its bits, reserved bits 0. -/
def Obligations.StatusWordHoldsEveryField : Prop :=
  ∀ f : Status,
    bitsAt (statusWord f) 0 1 = f.busy.toNat ∧ bitsAt (statusWord f) 1 1 = f.done.toNat ∧
    bitsAt (statusWord f) 2 1 = f.err.toNat ∧ bitsAt (statusWord f) 3 1 = f.verdict.toNat ∧
    bitsAt (statusWord f) 4 1 = f.xneg.toNat ∧ bitsAt (statusWord f) 5 1 = f.yneg.toNat ∧
    bitsAt (statusWord f) 6 2 = 0 ∧ bitsAt (statusWord f) 8 8 = f.errCode.toNat ∧
    bitsAt (statusWord f) 16 16 = 0

/-- 20_memory.md R53: a register is the sum of its limbs, little-endian, and a limb read returns its 32 bits. -/
def Obligations.OperandReadsReturnTheLimbs : Prop :=
  ∀ (s : State) (k : RegNo), s.config.Wf → readReg k s < 2 ^ s.config.width →
    readReg k s =
      ((List.range s.config.limbs).map fun i => readReg k s / 2 ^ (32 * i) % 2 ^ 32 * 2 ^ (32 * i)).sum ∧
    ∀ i < s.config.limbs, s.status.busy = false →
      ∃ w : Word, memRead (0x1000 + 0x200 * k.val + 4 * i) 4 s = .okData w ∧
        w.toNat = readReg k s / 2 ^ (32 * i) % 2 ^ 32

/-- 20_memory.md R54: a limb write replaces 32 bits of one register; the new limb reads as written, every other
limb as before, and nothing else of the state changes. -/
def Obligations.LimbWriteReplacesOneLimb : Prop :=
  ∀ (s : State) (k : RegNo) (i : Nat) (v : Word), s.config.Wf → i < s.config.limbs →
    s.status.busy = false →
    ∃ y : Nat, memWrite (0x1000 + 0x200 * k.val + 4 * i) 4 v s = (.ok, { s with x := s.x.set k.val y }) ∧
      y = readReg k s - readReg k s / 2 ^ (32 * i) % 2 ^ 32 * 2 ^ (32 * i) + v.toNat * 2 ^ (32 * i) ∧
      y / 2 ^ (32 * i) % 2 ^ 32 = v.toNat ∧
      ∀ j, j ≠ i → y / 2 ^ (32 * j) % 2 ^ 32 = readReg k s / 2 ^ (32 * j) % 2 ^ 32

/-- 20_memory.md R55: while BUSY = 1 the operand window, CMD writes and ROUNDS writes are refused without a
change; the six control registers are readable at any time. -/
def Obligations.BusyBlockRefusesAndKeepsItsState : Prop :=
  ∀ s : State,
    (s.status.busy = true →
      (∀ addr n, InOperandWindow addr → memRead addr n s = .err ∧ ∀ v, memWrite addr n v s = (.err, s)) ∧
      (∀ n v, memWrite 0x008 n v s = (.err, s) ∧ memWrite 0x010 n v s = (.err, s))) ∧
    (∀ addr ∈ [0x000, 0x004, 0x008, 0x00C, 0x010, 0x014], ∃ w, memRead addr 4 s = .okData w)

/-- 10_state.md R31: a ROUNDS write while idle stores the word; while BUSY = 1 it is refused. -/
def Obligations.RoundsWriteStoresTheWord : Prop :=
  ∀ (s : State) (v : Word),
    (s.status.busy = false → memWrite 0x010 4 v s = (.ok, { s with rounds := v })) ∧
    (s.status.busy = true → memWrite 0x010 4 v s = (.err, s))

/-- 20_memory.md R58: a write to ROUNDS or to an operand limb done twice equals it done once. -/
def Obligations.WritesButLaunchesAreIdempotent : Prop :=
  ∀ (s : State) (addr n : Nat) (v : Word), addr ≠ 0x008 →
    memWrite addr n v (memWrite addr n v s).2 = memWrite addr n v s

/-- 30_encoding.md R75: the launch step, whatever the word, and its refusal while BUSY = 1. -/
def Obligations.LaunchIsOneWriteToCmd : Prop :=
  ∀ (s : State) (v : Word),
    (s.status.busy = false → memWrite 0x008 4 v s =
      (.ok,
        { s with
          cmd := v, trialcnt := 0
          status :=
            { busy := true, done := false, err := false, verdict := false, xneg := false, yneg := false,
              errCode := 0 } })) ∧
    (s.status.busy = true → memWrite 0x008 4 v s = (.err, s))

/-! ### Completion and errors -/

/-- 60_exceptions.md R180, R185: raising an error changes STATUS and TRIALCNT and nothing else. -/
def Obligations.RaiseChangesOnlyStatusAndTrialcnt : Prop :=
  ∀ s : State,
    complete (.error .illegal) s = failedWith 1 s ∧
    complete (.error .noInverse) s = failedWith 2 s ∧
    complete (.error .zeroMod) s = failedWith 3 s ∧
    complete (.error .operand) s = failedWith 4 s ∧
    complete (.error .range) s = failedWith 5 s

/-- 30_encoding.md R76, R79: with a command in flight the engine's step completes it, changing neither CMD nor
ROUNDS and writing no register on an error; only MRTEST and SAMPLE can wait for entropy words. That the engine's
turn is then a step that changes nothing is the model's choice (log 6). -/
def Obligations.CompletionEndsTheCommand : Prop :=
  ∀ s : State, s.status.busy = true →
    ∃ t, engineStep s = .next t ∧
      ((t = s ∧ ∃ i, decode s.cmd = .command i ∧ popsEntropy i = true) ∨
       (t.status.busy = false ∧ t.status.done = true ∧ t.cmd = s.cmd ∧ t.rounds = s.rounds ∧
        (t.status.err = true → t.x = s.x ∧ t.trialcnt = 0 ∧ t.status.verdict = false ∧
          t.status.xneg = false ∧ t.status.yneg = false ∧ t.status.errCode ≠ 0) ∧
        (t.status.err = false → t.status.errCode = 0)))

/-- 10_state.md R24: VERDICT is set only by MRTEST and MRTRIAL, XNEG and YNEG only by EGCD, and only without an
error; `s` is a state right after a launch. -/
def Obligations.FlagsAreSetByTheirCommandsOnly : Prop :=
  ∀ (i : Instr) (s t : State),
    s.status = { busy := true, done := false, err := false, verdict := false, xneg := false, yneg := false,
                 errCode := 0 } →
    exec i s = .next t →
    (t.status.verdict = true →
      ((∃ rn, i = .mrtest rn) ∨ ∃ rn ra, i = .mrtrial rn ra) ∧ t.status.err = false ∧ t.status.done = true) ∧
    (t.status.xneg = true ∨ t.status.yneg = true →
      (∃ rg rx ry ra rb, i = .egcd rg rx ry ra rb) ∧ t.status.err = false ∧ t.status.done = true)

/-- 10_state.md R21, 41_sampler.md R120: a command changes no register but its destinations, none when it ends
with an error, and pops entropy words in order, none unless it is MRTEST or SAMPLE. -/
def Obligations.CommandsWriteOnlyTheirDestinations : Prop :=
  ∀ (i : Instr) (s t : State), exec i s = .next t →
    KeepsAllBut (dests i) s t ∧
    (s.status.err = false → t.status.err = true → t.x = s.x) ∧
    (∃ n ≤ s.entropy.length, t.entropy = s.entropy.drop n ∧ t.entropyPos = s.entropyPos + n ∧
      (popsEntropy i = false → n = 0))

/-- 60_exceptions.md R181: a command ends only with the errors of its row, under their conditions; EGCD and
MRTEST with none. -/
def Obligations.ErrorsByCommand : Prop :=
  ∀ (i : Instr) (s t : State), i.wellFormed = true → s.Inv → s.status.busy = true → exec i s = .next t →
    t.status.err = true →
    match i with
    | .modexp _ _ _ rm => t.status.errCode = 3 ∧ readReg rm s = 0
    | .egcd _ _ _ _ _ => False
    | .modinv _ ra rm =>
      (t.status.errCode = 3 ∧ readReg rm s = 0) ∨
      (t.status.errCode = 2 ∧ readReg rm s ≠ 0 ∧ Nat.gcd (readReg ra s % readReg rm s) (readReg rm s) ≠ 1)
    | .mrtest _ => False
    | .mrtrial rn ra =>
      t.status.errCode = 4 ∧
        (readReg rn s < 5 ∨ readReg rn s % 2 = 0 ∨ readReg ra s < 2 ∨ readReg rn s < readReg ra s + 2)
    | .sample _ rlo rhi => t.status.errCode = 4 ∧ readReg rhi s < readReg rlo s

/-! ### MODEXP -/

/-- 43_modexp.md R152: MODEXP's encoding and effect: E_ZEROMOD when the modulus is 0, else the exact power
modulo x[rm], for any registers, equal ones too. -/
def Obligations.ModexpResult : Prop :=
  ∀ (rd rb re rm : RegNo) (s : State),
    (encode (.modexp rd rb re rm)).toNat =
      0x01 + rd.val * 2 ^ 8 + rb.val * 2 ^ 11 + re.val * 2 ^ 14 + rm.val * 2 ^ 17 ∧
    (readReg rm s = 0 → exec (.modexp rd rb re rm) s = .next (failedWith 3 s)) ∧
    (readReg rm s ≠ 0 →
      exec (.modexp rd rb re rm) s =
        .next (completedWith (s.x.set rd.val (readReg rb s ^ readReg re s % readReg rm s)) false false false 0 s))

/-- 43_modexp.md R153: the corner cases, read back from the destination. -/
def Obligations.ModexpCornerCases : Prop :=
  ∀ (rd rb re rm : RegNo) (s : State),
    ∃ t, exec (.modexp rd rb re rm) s = .next t ∧
      (readReg re s = 0 → 2 ≤ readReg rm s → readReg rd t = 1) ∧
      (readReg rm s = 1 → readReg rd t = 0) ∧
      (readReg rb s = 0 → 1 ≤ readReg re s → 1 ≤ readReg rm s → readReg rd t = 0) ∧
      (readReg rb s = 1 → 2 ≤ readReg rm s → readReg rd t = 1) ∧
      (1 ≤ readReg rm s → readReg rd t = (readReg rb s % readReg rm s) ^ readReg re s % readReg rm s) ∧
      (readReg rb s = readReg rm s - 1 → readReg re s % 2 = 1 → 2 ≤ readReg rm s →
        readReg rd t = readReg rm s - 1) ∧
      (readReg rb s = readReg rm s - 1 → readReg re s % 2 = 0 → 2 ≤ readReg re s → 2 ≤ readReg rm s →
        readReg rd t = 1) ∧
      (readReg rm s = 0 → readReg rd t = readReg rd s ∧ t.status.err = true ∧ t.status.errCode = 3)

/-- 43_modexp.md R151: the reference algorithm computes the normative value. -/
def Obligations.ReferenceAlgorithmComputesThePower : Prop :=
  ∀ b e m : Nat, 0 < m → modExpRef b e m = b ^ e % m ∧ modExpRef b e m < m

/-- 43_modexp.md R155, the RSA law, run as two MODEXP commands: raising to `e` and then to `d` modulo
`n = p · q`, `p` and `q` different primes, gives a message below `n` back. -/
def Obligations.RsaRoundTrip : Prop :=
  ∀ (s : State) (rm re rd rn rc rr : RegNo) (p q : Nat),
    p.Prime → q.Prime → p ≠ q → readReg rn s = p * q →
    readReg rd s * readReg re s % ((p - 1) * (q - 1)) = 1 % ((p - 1) * (q - 1)) →
    readReg rm s < p * q → rc ≠ rd → rc ≠ rn →
    ∃ t u, exec (.modexp rc rm re rn) s = .next t ∧ exec (.modexp rr rc rd rn) t = .next u ∧
      u.status.err = false ∧ readReg rr u = readReg rm s

/-! ### EGCD and MODINV -/

/-- 42_modinv.md R130, R131: the recursion, the base case and the adjust step, which keeps the invariant. -/
def Obligations.ExtendedGcdRecursion : Prop :=
  (∀ b : Nat, extendedGcd 0 b = (b, 0, 1)) ∧
  ∀ (a b g : Nat) (x1 y1 : Int), a ≠ 0 → extendedGcd (b % a) a = (g, x1, y1) →
    extendedGcd a b = (g, y1 - ((b / a : Nat) : Int) * x1, x1) ∧
    ((b % a : Nat) : Int) * x1 + (a : Int) * y1 = (g : Int) ∧
    (a : Int) * (y1 - ((b / a : Nat) : Int) * x1) + (b : Int) * x1 = (g : Int)

/-- 42_modinv.md R132: the iterative form returns the same triple for all inputs. -/
def Obligations.IterativeGcdEqualsTheRecursion : Prop :=
  ∀ a b : Nat, extendedGcdIter a b = extendedGcd a b

/-- 42_modinv.md R133: the gcd, the Bézout identity, the special values, the bounds, and the two examples of
(e). -/
def Obligations.ExtendedGcdProperties : Prop :=
  (∀ (a b g : Nat) (x y : Int), extendedGcd a b = (g, x, y) →
    g = Nat.gcd a b ∧ (a : Int) * x + (b : Int) * y = (g : Int) ∧
    x.natAbs ≤ max 1 b ∧ y.natAbs ≤ max 1 a ∧
    (0 < g → x.natAbs ≤ max 1 (b / g) ∧ y.natAbs ≤ max 1 (a / g)) ∧
    ∀ w, 1 ≤ w → a < 2 ^ w → b < 2 ^ w → g < 2 ^ w ∧ x.natAbs < 2 ^ w ∧ y.natAbs < 2 ^ w) ∧
  (∀ b : Nat, extendedGcd 0 b = (b, 0, 1)) ∧
  (∀ a : Nat, 0 < a → extendedGcd a 0 = (a, 1, 0) ∧ extendedGcd a a = (a, 1, 0)) ∧
  (∀ b : Nat, extendedGcd 1 b = (1, 1, 0)) ∧
  (∀ a : Nat, 1 < a → extendedGcd a 1 = (1, 0, 1)) ∧
  extendedGcd 240 46 = (2, -9, 47) ∧ extendedGcd 46 240 = (2, 47, -9)

/-- 42_modinv.md R134: EGCD's encoding and effect: the triple's magnitudes in three different registers, the
signs in XNEG and YNEG, for every two operands a register can hold; E_RANGE never; two equal destinations make the
word illegal. -/
def Obligations.EgcdResult : Prop :=
  ∀ (rg rx ry ra rb : RegNo) (s : State) (g : Nat) (cx cy : Int),
    (encode (.egcd rg rx ry ra rb)).toNat =
      0x02 + rg.val * 2 ^ 8 + rx.val * 2 ^ 11 + ry.val * 2 ^ 14 + ra.val * 2 ^ 17 + rb.val * 2 ^ 20 ∧
    (rg = rx ∨ rg = ry ∨ rx = ry → ∃ why, decode (encode (.egcd rg rx ry ra rb)) = .illegal why) ∧
    (rg ≠ rx → rg ≠ ry → rx ≠ ry → s.config.Wf →
      readReg ra s < 2 ^ s.config.width → readReg rb s < 2 ^ s.config.width →
      extendedGcd (readReg ra s) (readReg rb s) = (g, cx, cy) →
      exec (.egcd rg rx ry ra rb) s =
        .next (completedWith (((s.x.set rg.val g).set rx.val cx.natAbs).set ry.val cy.natAbs) false
          (decide (cx < 0)) (decide (cy < 0)) 0 s))

/-- 42_modinv.md R137: the inverse when there is one, NoInverse when not, modulus 1, and independence of the
Bézout pair. -/
def Obligations.ModInverseProperties : Prop :=
  ∀ a m : Nat,
    (1 < m → Nat.gcd a m = 1 → ∃ d, modInverse a m = some d ∧ a * d % m = 1 ∧ 0 < d ∧ d < m) ∧
    (1 < m → Nat.gcd a m ≠ 1 → modInverse a m = none) ∧
    (m = 1 → modInverse a m = some 0) ∧
    (∀ x y : Int, 0 < m → ((a % m : Nat) : Int) * x + (m : Int) * y = 1 →
      modInverse a m = some (x % (m : Int)).toNat)

/-- 42_modinv.md R136: MODINV's encoding and effect: E_ZEROMOD first, then E_NOINVERSE, else the one `r` below
the modulus with `a · r ≡ 1`. -/
def Obligations.ModinvResult : Prop :=
  ∀ (rd ra rm : RegNo) (s : State),
    (encode (.modinv rd ra rm)).toNat = 0x03 + rd.val * 2 ^ 8 + ra.val * 2 ^ 11 + rm.val * 2 ^ 14 ∧
    (readReg rm s = 0 → exec (.modinv rd ra rm) s = .next (failedWith 3 s)) ∧
    (readReg rm s ≠ 0 → Nat.gcd (readReg ra s % readReg rm s) (readReg rm s) ≠ 1 →
      exec (.modinv rd ra rm) s = .next (failedWith 2 s)) ∧
    (readReg rm s ≠ 0 → Nat.gcd (readReg ra s % readReg rm s) (readReg rm s) = 1 →
      ∃ r, r < readReg rm s ∧ readReg ra s * r % readReg rm s = 1 % readReg rm s ∧
        exec (.modinv rd ra rm) s = .next (completedWith (s.x.set rd.val r) false false false 0 s))

/-! ### MRTEST and MRTRIAL -/

/-- 40_primality.md R101: the decomposition and that it is the only one. -/
def Obligations.DecomposeIsTheOnlyDecomposition : Prop :=
  ∀ n : Nat, 5 ≤ n → n % 2 = 1 →
    (decompose n).1 % 2 = 1 ∧ n - 1 = (decompose n).1 * 2 ^ (decompose n).2 ∧ 1 ≤ (decompose n).2 ∧
    ∀ d s : Nat, d % 2 = 1 → n - 1 = d * 2 ^ s → decompose n = (d, s)

/-- 40_primality.md R102: a trial passes exactly when `a^d` is 1 or one of its first `s` squares is `n - 1`. -/
def Obligations.TrialPassesExactlyOnStrongLiars : Prop :=
  ∀ n a : Nat, 5 ≤ n → n % 2 = 1 → 2 ≤ a → a ≤ n - 2 →
    (trial n a (decompose n).1 (decompose n).2 = true ↔ PassesTrial n a)

/-- 40_primality.md R106: MRTRIAL's encoding, its domain error, and its verdict. -/
def Obligations.MrtrialResult : Prop :=
  ∀ (rn ra : RegNo) (s : State),
    (encode (.mrtrial rn ra)).toNat = 0x05 + rn.val * 2 ^ 11 + ra.val * 2 ^ 14 ∧
    (readReg rn s < 5 ∨ readReg rn s % 2 = 0 ∨ readReg ra s < 2 ∨ readReg rn s - 2 < readReg ra s →
      exec (.mrtrial rn ra) s = .next (failedWith 4 s)) ∧
    (5 ≤ readReg rn s → readReg rn s % 2 = 1 → 2 ≤ readReg ra s → readReg ra s ≤ readReg rn s - 2 →
      ∃ v : Bool, (v = true ↔ PassesTrial (readReg rn s) (readReg ra s)) ∧
        exec (.mrtrial rn ra) s = .next (completedWith s.x v false false 1 s))

/-- 40_primality.md R100, R104, R107: the rows of MRTEST's table that draw no base: nothing is popped and
TRIALCNT is 0. -/
def Obligations.MrtestWithoutADraw : Prop :=
  ∀ (rn : RegNo) (s : State),
    (encode (.mrtest rn)).toNat = 0x04 + rn.val * 2 ^ 11 ∧
    (readReg rn s ≤ 1 → exec (.mrtest rn) s = .next (completedWith s.x false false false 0 s)) ∧
    (readReg rn s = 2 ∨ readReg rn s = 3 →
      exec (.mrtest rn) s = .next (completedWith s.x true false false 0 s)) ∧
    (4 ≤ readReg rn s → readReg rn s % 2 = 0 →
      exec (.mrtest rn) s = .next (completedWith s.x false false false 0 s)) ∧
    (5 ≤ readReg rn s → readReg rn s % 2 = 1 → s.rounds = 0 →
      exec (.mrtest rn) s = .next (completedWith s.x true false false 0 s))

/-- 40_primality.md R103, R104: on odd `n ≥ 5` MRTEST draws one fresh base a trial; ROUNDS passing trials give
VERDICT = 1, the first failing one VERDICT = 0 with its index in TRIALCNT, and no word after it is popped. -/
def Obligations.MrtestRunsTrialsInSequence : Prop :=
  ∀ (rn : RegNo) (s : State) (bases : List Nat) (rest : List Word),
    5 ≤ readReg rn s → readReg rn s % 2 = 1 → DrawnBases (readReg rn s) bases s.entropy rest →
    (bases.length = s.rounds.toNat → (∀ a ∈ bases, PassesTrial (readReg rn s) a) →
      exec (.mrtest rn) s =
        .next (completedWith s.x true false false bases.length
          (poppedBy (s.entropy.length - rest.length) s))) ∧
    (∀ init a, bases = init ++ [a] → bases.length ≤ s.rounds.toNat →
      (∀ a' ∈ init, PassesTrial (readReg rn s) a') → ¬ PassesTrial (readReg rn s) a →
      exec (.mrtest rn) s =
        .next (completedWith s.x false false false bases.length
          (poppedBy (s.entropy.length - rest.length) s)))

/-- 40_primality.md R105: a prime passes every trial, and MRTEST on a prime never ends with VERDICT = 0; from 5
on it runs all ROUNDS trials. -/
def Obligations.PrimesAreNeverRejected : Prop :=
  (∀ n a : Nat, n.Prime → 5 ≤ n → 2 ≤ a → a ≤ n - 2 → PassesTrial n a) ∧
  ∀ (rn : RegNo) (s t : State), (readReg rn s).Prime → s.status.busy = true →
    exec (.mrtest rn) s = .next t → t.status.busy = false →
    t.status.verdict = true ∧ t.status.err = false ∧ (5 ≤ readReg rn s → t.trialcnt = s.rounds)

/-! ### SAMPLE and the sampler -/

/-- 41_sampler.md R122: SampleRange returns exactly the value of the first accepted attempt, every attempt before
it rejected, each of `nw` words, and leaves the rest. -/
def Obligations.SampleRangeIsRejectionSampling : Prop :=
  ∀ (lo hi : Nat) (ws rest : List Word) (v : Nat), lo ≤ hi →
    (sampleRange lo hi ws = some (v, rest) ↔
      ∃ (rejected : List (List Word)) (block : List Word),
        (∀ b ∈ rejected, RejectedAttempt lo hi b) ∧ AcceptedAttempt lo hi block ∧
        ws = rejected.flatten ++ block ++ rest ∧ v = lo + attemptValue lo hi block)

/-- 41_sampler.md R123 (a) to (d), (f): range, reachability, dependence on the words used alone, acceptance above
one half, and no result while every attempt is rejected. -/
def Obligations.SampleRangeProperties : Prop :=
  ∀ lo hi : Nat, lo ≤ hi →
    (∀ ws v rest, sampleRange lo hi ws = some (v, rest) →
      lo ≤ v ∧ v ≤ hi ∧ ∀ more, sampleRange lo hi (ws ++ more) = some (v, rest ++ more)) ∧
    (∀ v, lo ≤ v → v ≤ hi →
      ∃ block : List Word, block.length = attemptWords lo hi ∧
        ∀ rest, sampleRange lo hi (block ++ rest) = some (v, rest)) ∧
    (lo < hi → 2 ^ (hi - lo).size < 2 * (hi - lo + 1)) ∧
    (∀ (rejected : List (List Word)) (short : List Word), (∀ b ∈ rejected, RejectedAttempt lo hi b) →
      short.length < attemptWords lo hi → sampleRange lo hi (rejected.flatten ++ short) = none)

/-- 41_sampler.md R123 (e), as a count: every value of the range is the first attempt's result for the same
number of word blocks, so uniform words give a uniform draw. -/
def Obligations.EveryDrawHasEquallyManyBlocks : Prop :=
  ∀ lo hi v : Nat, lo ≤ v → v ≤ hi →
    Nat.card { b : Fin (attemptWords lo hi) → Word // sampleRange lo hi (List.ofFn b) = some (v, []) } =
      2 ^ (32 * attemptWords lo hi - (hi - lo).size)

/-- 41_sampler.md R124: SAMPLE's encoding, its domain error before any word is popped, and its draw. -/
def Obligations.SampleResult : Prop :=
  ∀ (rd rlo rhi : RegNo) (s : State),
    (encode (.sample rd rlo rhi)).toNat = 0x06 + rd.val * 2 ^ 8 + rlo.val * 2 ^ 11 + rhi.val * 2 ^ 14 ∧
    (readReg rhi s < readReg rlo s → exec (.sample rd rlo rhi) s = .next (failedWith 4 s)) ∧
    (∀ (rejected : List (List Word)) (block rest : List Word), readReg rlo s ≤ readReg rhi s →
      (∀ b ∈ rejected, RejectedAttempt (readReg rlo s) (readReg rhi s) b) →
      AcceptedAttempt (readReg rlo s) (readReg rhi s) block →
      s.entropy = rejected.flatten ++ block ++ rest →
      exec (.sample rd rlo rhi) s =
        .next (completedWith
          (s.x.set rd.val (readReg rlo s + attemptValue (readReg rlo s) (readReg rhi s) block))
          false false false 0 (poppedBy (rejected.flatten.length + block.length) s)))

/-- 30_encoding.md R79, 70_reset_and_hazards.md R211: where the supplied words do not let SampleRange end, SAMPLE
and MRTEST stay in flight and nothing changes. That the engine's turn is then a step without effect is the model's
choice (log 6). -/
def Obligations.CommandsWaitForEntropy : Prop :=
  ∀ s : State,
    (∀ (rd rlo rhi : RegNo) (rejected : List (List Word)) (short : List Word),
      readReg rlo s ≤ readReg rhi s →
      (∀ b ∈ rejected, RejectedAttempt (readReg rlo s) (readReg rhi s) b) →
      short.length < attemptWords (readReg rlo s) (readReg rhi s) →
      s.entropy = rejected.flatten ++ short →
      exec (.sample rd rlo rhi) s = .next s) ∧
    (∀ (rn : RegNo) (bases : List Nat) (mid : List Word),
      5 ≤ readReg rn s → readReg rn s % 2 = 1 → DrawnBases (readReg rn s) bases s.entropy mid →
      (∀ a ∈ bases, PassesTrial (readReg rn s) a) → bases.length < s.rounds.toNat →
      sampleRange 2 (readReg rn s - 2) mid = none →
      exec (.mrtest rn) s = .next s)

/-! ### Reset and the whole machine -/

/-- 10_state.md R36: the values after reset, ID and CFG included, in the reset state of every instance and after a
reset of any state; the entropy stream goes on, nothing popped before is popped again. -/
def Obligations.ResetValues : Prop :=
  (∀ c : Config, HasResetValues (State.resetOf c)) ∧
  ∀ (lost : Nat) (s : State) (rest : List Event),
    ∃ t n, step { s with agenda := .reset lost :: rest } = .next t ∧ HasResetValues t ∧ t.config = s.config ∧
      t.entropy = s.entropy.drop n ∧ t.entropyPos = s.entropyPos + n

/-- 70_reset_and_hazards.md R200, R201, R202: reset, at any time, leaves the reset state whatever was in flight;
the entropy stream goes on after the words an abandoned MRTEST or SAMPLE had popped. How many those were is an
argument of the model's reset step, bounded by what the command could have popped: the words its completion would
pop, or all the supplied ones while it waits (the model's choice, log 5). -/
def Obligations.ResetForcesTheResetState : Prop :=
  ∀ (lost : Nat) (s : State),
    ∃ n, perform (.reset lost) s =
        .next { State.resetOf s.config with
          entropy := s.entropy.drop n, entropyPos := s.entropyPos + n, agenda := s.agenda } ∧
      n ≤ lost ∧ n ≤ s.entropy.length ∧
      (s.status.busy = false → n = 0) ∧
      (∀ i, decode s.cmd = .command i → popsEntropy i = false → n = 0) ∧
      (∀ why, decode s.cmd = .illegal why → n = 0) ∧
      (s.status.busy = true → engineStep s = .next s → n = min lost s.entropy.length) ∧
      (∀ t, s.status.busy = true → engineStep s = .next t → t.status.busy = false →
        n = min lost (s.entropy.length - t.entropy.length))

/-- 70_reset_and_hazards.md R204: what each command does on registers that were never loaded. -/
def Obligations.NeverLoadedRegistersHoldZero : Prop :=
  ∀ (c : Config) (w : Word) (a b d e f : RegNo) (s : State), c.Wf → s = launch w (State.resetOf c) →
    exec (.modexp a b d e) s = .next (failedWith 3 s) ∧
    exec (.modinv a b d) s = .next (failedWith 3 s) ∧
    (a ≠ b → a ≠ d → b ≠ d →
      exec (.egcd a b d e f) s = .next (completedWith (s.x.set d.val 1) false false false 0 s)) ∧
    exec (.mrtest a) s = .next (completedWith s.x false false false 0 s) ∧
    exec (.mrtrial a b) s = .next (failedWith 4 s) ∧
    exec (.sample a b d) s = .next (completedWith s.x false false false 0 s)

/-- 10_state.md R37: the reset state of every instance meets the invariants. -/
def Obligations.ResetMeetsTheInvariants : Prop :=
  (∀ c : Config, c.Wf → (State.resetOf c).Inv) ∧ State.reset.Inv

/-- 10_state.md R37: every step, of any agent, from any state that meets the invariants leads to one that does. -/
def Obligations.StepKeepsTheInvariants : Prop :=
  ∀ s t : State, s.Inv → step s = .next t → t.Inv

/-- 10_state.md R37, last clause: TRIALCNT ≤ ROUNDS after an MRTEST, kept by every step but a ROUNDS write. -/
def Obligations.TrialsStayWithinRounds : Prop :=
  ∀ s t : State, s.TrialsWithinRounds → ¬ NextWrites s 0x010 → step s = .next t → t.TrialsWithinRounds

/-- 70_reset_and_hazards.md R200, 00_scope.md R6: no step changes the parameters, so ID and CFG always read the
same. -/
def Obligations.IdAndCfgNeverChange : Prop :=
  ∀ s t : State, step s = .next t →
    t.config = s.config ∧ memRead 0x000 4 t = memRead 0x000 4 s ∧ memRead 0x004 4 t = memRead 0x004 4 s

/-- 10_state.md R22: between launch and completion no step changes an operand register, CMD or ROUNDS. -/
def Obligations.SourcesDoNotChangeUnderACommand : Prop :=
  ∀ s t : State, s.status.busy = true → step s = .next t → t.status.busy = true →
    t.x = s.x ∧ t.cmd = s.cmd ∧ t.rounds = s.rounds

/-- 20_memory.md R61 (c): DONE goes from 1 to 0 only by a launch or a reset. -/
def Obligations.DoneStaysUntilLaunchOrReset : Prop :=
  ∀ s t : State, s.status.done = true → step s = .next t → t.status.done = false →
    NextWrites s 0x008 ∨ NextResets s

/-- 10_state.md R35: the result of a command depends on its word, its source registers, ROUNDS and the entropy
words alone, whatever ran before; `s₁` and `s₂` are two states with the same command in flight. -/
def Obligations.ResultDependsOnSourcesOnly : Prop :=
  ∀ (i : Instr) (s₁ s₂ t₁ : State),
    s₁.config = s₂.config → s₁.status = s₂.status → s₁.trialcnt = s₂.trialcnt → s₁.rounds = s₂.rounds →
    s₁.entropy = s₂.entropy → (∀ k ∈ sources i, readReg k s₁ = readReg k s₂) →
    exec i s₁ = .next t₁ →
    ∃ t₂, exec i s₂ = .next t₂ ∧ t₁.status = t₂.status ∧ t₁.trialcnt = t₂.trialcnt ∧
      t₁.entropy = t₂.entropy ∧
      ((t₁.x = s₁.x ∧ t₂.x = s₂.x) ∨ ∀ k ∈ dests i, readReg k t₁ = readReg k t₂)

/-! ### Host sequences -/

/-- 44_host_sequences.md R171: the two conversions between bytes and integers, big-endian. -/
def Obligations.BytesAndIntegersConvert : Prop :=
  (∀ bs : List Byte, bytesToInt bs =
    ((List.range bs.length).map fun j => (bs.getD j 0).toNat * 2 ^ (8 * (bs.length - 1 - j))).sum) ∧
  (∀ v : Nat, bytesToInt (intToBytes v) = v ∧ (intToBytes v).length = (v.size + 7) / 8) ∧
  (∀ bs : List Byte, intToBytes (bytesToInt bs) = bs ↔ bs.head? ≠ some 0) ∧
  intToBytes 0 = []

/-- 20_memory.md R54, 30_encoding.md R81: LDI loads a value below 2^W into one register and nothing else, and RDR
reads a register back. WAIT after a launch reads BUSY = 1 any number of times, also never, and then the status of
the completed command. The model's choices: LDI of 2^W or more is refused without an access (log 17,
93_implementation_defined.md Z20), and the turns say when the engine completes (log 14). -/
def Obligations.HostLinesLoadReadBackAndWait : Prop :=
  ∀ (r : HostRun) (k : RegNo) (V : Nat), r.state.Inv →
    (2 ^ r.state.config.width ≤ V → ldi k V r = .failed .tooWide r) ∧
    (r.state.status.busy = false →
      (V < 2 ^ r.state.config.width →
        ldi k V r = .done ()
          ⟨{ r.state with x := r.state.x.set k.val V, response := some .ok },
            r.turns.drop r.state.config.limbs⟩) ∧
      (∃ a, rdr k r = .done (readReg k r.state)
        ⟨{ r.state with response := a }, r.turns.drop r.state.config.limbs⟩) ∧
      wait r = .done (statusWord r.state.status)
        ⟨{ r.state with response := some (.okData (statusWord r.state.status)) }, r.turns.tail⟩) ∧
    (∀ t, r.state.status.busy = true → engineStep r.state = .next t →
      (t.status.busy = false →
        ∃ turns, wait r = .done (statusWord t.status)
            ⟨{ t with response := some (.okData (statusWord t.status)) }, turns⟩ ∧
          ∀ n rest, r.turns = List.replicate n false ++ true :: rest → turns = rest) ∧
      (t.status.busy = true →
        wait r = .waiting
          ⟨{ r.state with response := some (.okData (statusWord r.state.status)) }, []⟩))

/-- 44_host_sequences.md R172 to R174: ENCRYPT returns m^e mod n, and DECRYPT gives the text back under the
premises of the round trip, whenever the engine completes. Both are refused before any access where a number does
not fit a register (93_implementation_defined.md Z20). That the host runs alone with the block, with the engine's
turns as data of the run, is the model's choice (log 14), and so is the form of the refusal (log 17). -/
def Obligations.EncryptThenDecryptGivesTheTextBack : Prop :=
  ∀ (Text : Type) (enc : TextEncoding Text) (text : Text) (r : HostRun),
    (∀ key : PublicKey, (∃ V ∈ [bytesToInt (enc.encode text), key.e, key.n], 2 ^ r.state.config.width ≤ V) →
      encrypt enc text key r = .failed .tooWide r) ∧
    (∀ (c : Nat) (key : PrivateKey), (∃ V ∈ [c, key.d, key.n], 2 ^ r.state.config.width ≤ V) →
      decrypt enc c key r = .failed .tooWide r) ∧
    (∀ p q e d : Nat,
      r.state.Inv → r.state.status.busy = false → p.Prime → q.Prime → p ≠ q →
      p * q < 2 ^ r.state.config.width → e < 2 ^ r.state.config.width → d < 2 ^ r.state.config.width →
      d * e % ((p - 1) * (q - 1)) = 1 % ((p - 1) * (q - 1)) →
      bytesToInt (enc.encode text) < p * q → (enc.encode text).head? ≠ some 0 →
      ∃ t u, encrypt enc text ⟨e, p * q⟩ r = .done (bytesToInt (enc.encode text) ^ e % (p * q)) t ∧
        decrypt enc (bytesToInt (enc.encode text) ^ e % (p * q)) ⟨d, p * q⟩ t = .done text u)

/-- 44_host_sequences.md R163: what GENPRIME returns is odd, has exactly `bits` bits, and the oracle has just
accepted it, with the ROUNDS that R162 asks for. The host runs alone with the block (the model's choice, log 14). -/
def Obligations.GenPrimeReturnsAnAcceptedCandidate : Prop :=
  ∀ (bits p : Nat) (r t : HostRun), r.state.Inv → 2 ≤ bits → genPrime bits r = .done p t →
    p % 2 = 1 ∧ p.size = bits ∧ t.state.status.verdict = true ∧ t.state.status.done = true ∧
      readReg 0 t.state = p ∧ t.state.cmd = encode (.mrtest 0) ∧ t.state.rounds = 5

/-- 44_host_sequences.md R162: GENPRIME has no attempt cap: on an idle block and within its domain it never fails,
and it stops short only in a WAIT for entropy words the source has not supplied. Outside its domain, ROUNDS other
than 5 included, it is refused before any access (93_implementation_defined.md U10, Z20). That a host program's WAIT
then answers `waiting`, and the form of the refusal, are the model's choices (logs 14, 17). -/
def Obligations.GenPrimeIsNotCapped : Prop :=
  ∀ (bits : Nat) (r : HostRun), r.state.Inv →
    (bits = 0 ∨ r.state.config.width < bits ∨ r.state.rounds ≠ 5 → ∃ f, genPrime bits r = .failed f r) ∧
    (1 ≤ bits → bits ≤ r.state.config.width → r.state.rounds = 5 → r.state.status.busy = false →
      ∀ f t, genPrime bits r ≠ .failed f t) ∧
    (∀ t, genPrime bits r = .waiting t →
      t.state.status.busy = true ∧ engineStep t.state = .next t.state)

/-- 44_host_sequences.md R164 to R166: what KEYGEN returns, and that it never fails with NoInverseError. Outside its
domain it is refused before any access; that, and that the host runs alone with the block, is the model's choice
(logs 17, 14). -/
def Obligations.KeyGenReturnsAValidKeyPair : Prop :=
  ∀ (bits : Nat) (r : HostRun), r.state.Inv →
    (bits / 2 < 2 ∨ r.state.config.width < bits ∨ r.state.rounds ≠ 5 → keyGen bits r = .failed .domain r) ∧
    (∀ t, keyGen bits r ≠ .failed .noInverse t) ∧
    (∀ kp t, keyGen bits r = .done kp t →
      ∃ p q : Nat, p.size = bits / 2 ∧ q.size = bits / 2 ∧ p % 2 = 1 ∧ q % 2 = 1 ∧
        kp.pub.n = p * q ∧ kp.priv.n = p * q ∧
        1 < kp.pub.e ∧ Nat.gcd kp.pub.e ((p - 1) * (q - 1)) = 1 ∧
        (kp.pub.e = 65537 ∨
          (Nat.gcd 65537 ((p - 1) * (q - 1)) ≠ 1 ∧ kp.pub.e ≤ (p - 1) * (q - 1) - 1)) ∧
        0 < kp.priv.d ∧ kp.priv.d < (p - 1) * (q - 1) ∧
        kp.priv.d * kp.pub.e % ((p - 1) * (q - 1)) = 1)
end

