-- ==== Sys2Proof/Laws/State.lean ====
section
/-! SUPPORT. One lemma per field per update of the state, so that no proof unfolds a record update. -/

namespace Sys2Proof.Machine

@[simp] theorem writeReg_config (k : RegNo) (v : Nat) (s : State) : (writeReg k v s).config = s.config := rfl
@[simp] theorem writeReg_x (k : RegNo) (v : Nat) (s : State) : (writeReg k v s).x = s.x.set k.val v := rfl
@[simp] theorem writeReg_cmd (k : RegNo) (v : Nat) (s : State) : (writeReg k v s).cmd = s.cmd := rfl
@[simp] theorem writeReg_status (k : RegNo) (v : Nat) (s : State) : (writeReg k v s).status = s.status := rfl
@[simp] theorem writeReg_rounds (k : RegNo) (v : Nat) (s : State) : (writeReg k v s).rounds = s.rounds := rfl
@[simp] theorem writeReg_trialcnt (k : RegNo) (v : Nat) (s : State) : (writeReg k v s).trialcnt = s.trialcnt := rfl
@[simp] theorem writeReg_entropy (k : RegNo) (v : Nat) (s : State) : (writeReg k v s).entropy = s.entropy := rfl
@[simp] theorem writeReg_entropyPos (k : RegNo) (v : Nat) (s : State) : (writeReg k v s).entropyPos = s.entropyPos := rfl
@[simp] theorem writeReg_agenda (k : RegNo) (v : Nat) (s : State) : (writeReg k v s).agenda = s.agenda := rfl
@[simp] theorem writeReg_response (k : RegNo) (v : Nat) (s : State) : (writeReg k v s).response = s.response := rfl

@[simp] theorem raiseError_config (e : CmdError) (s : State) : (raiseError e s).config = s.config := rfl
@[simp] theorem raiseError_x (e : CmdError) (s : State) : (raiseError e s).x = s.x := rfl
@[simp] theorem raiseError_cmd (e : CmdError) (s : State) : (raiseError e s).cmd = s.cmd := rfl
@[simp] theorem raiseError_status (e : CmdError) (s : State) : (raiseError e s).status = errorStatus e := rfl
@[simp] theorem raiseError_rounds (e : CmdError) (s : State) : (raiseError e s).rounds = s.rounds := rfl
@[simp] theorem raiseError_trialcnt (e : CmdError) (s : State) : (raiseError e s).trialcnt = 0 := rfl
@[simp] theorem raiseError_entropy (e : CmdError) (s : State) : (raiseError e s).entropy = s.entropy := rfl
@[simp] theorem raiseError_entropyPos (e : CmdError) (s : State) : (raiseError e s).entropyPos = s.entropyPos := rfl
@[simp] theorem raiseError_agenda (e : CmdError) (s : State) : (raiseError e s).agenda = s.agenda := rfl
@[simp] theorem raiseError_response (e : CmdError) (s : State) : (raiseError e s).response = s.response := rfl

@[simp] theorem launch_config (w : Word) (s : State) : (launch w s).config = s.config := rfl
@[simp] theorem launch_x (w : Word) (s : State) : (launch w s).x = s.x := rfl
@[simp] theorem launch_cmd (w : Word) (s : State) : (launch w s).cmd = w := rfl
@[simp] theorem launch_status (w : Word) (s : State) : (launch w s).status = launchedStatus := rfl
@[simp] theorem launch_rounds (w : Word) (s : State) : (launch w s).rounds = s.rounds := rfl
@[simp] theorem launch_trialcnt (w : Word) (s : State) : (launch w s).trialcnt = 0 := rfl
@[simp] theorem launch_entropy (w : Word) (s : State) : (launch w s).entropy = s.entropy := rfl
@[simp] theorem launch_entropyPos (w : Word) (s : State) : (launch w s).entropyPos = s.entropyPos := rfl
@[simp] theorem launch_agenda (w : Word) (s : State) : (launch w s).agenda = s.agenda := rfl
@[simp] theorem launch_response (w : Word) (s : State) : (launch w s).response = s.response := rfl

@[simp] theorem popTo_config (rest : List Word) (s : State) : (popTo rest s).config = s.config := rfl
@[simp] theorem popTo_x (rest : List Word) (s : State) : (popTo rest s).x = s.x := rfl
@[simp] theorem popTo_cmd (rest : List Word) (s : State) : (popTo rest s).cmd = s.cmd := rfl
@[simp] theorem popTo_status (rest : List Word) (s : State) : (popTo rest s).status = s.status := rfl
@[simp] theorem popTo_rounds (rest : List Word) (s : State) : (popTo rest s).rounds = s.rounds := rfl
@[simp] theorem popTo_trialcnt (rest : List Word) (s : State) : (popTo rest s).trialcnt = s.trialcnt := rfl
@[simp] theorem popTo_entropy (rest : List Word) (s : State) : (popTo rest s).entropy = rest := rfl
@[simp] theorem popTo_entropyPos (rest : List Word) (s : State) : (popTo rest s).entropyPos = s.entropyPos + (s.entropy.length - rest.length) := rfl
@[simp] theorem popTo_agenda (rest : List Word) (s : State) : (popTo rest s).agenda = s.agenda := rfl
@[simp] theorem popTo_response (rest : List Word) (s : State) : (popTo rest s).response = s.response := rfl

@[simp] theorem supplyEntropy_config (w : Word) (s : State) : (supplyEntropy w s).config = s.config := rfl
@[simp] theorem supplyEntropy_x (w : Word) (s : State) : (supplyEntropy w s).x = s.x := rfl
@[simp] theorem supplyEntropy_cmd (w : Word) (s : State) : (supplyEntropy w s).cmd = s.cmd := rfl
@[simp] theorem supplyEntropy_status (w : Word) (s : State) : (supplyEntropy w s).status = s.status := rfl
@[simp] theorem supplyEntropy_rounds (w : Word) (s : State) : (supplyEntropy w s).rounds = s.rounds := rfl
@[simp] theorem supplyEntropy_trialcnt (w : Word) (s : State) : (supplyEntropy w s).trialcnt = s.trialcnt := rfl
@[simp] theorem supplyEntropy_entropy (w : Word) (s : State) : (supplyEntropy w s).entropy = s.entropy ++ [w] := rfl
@[simp] theorem supplyEntropy_entropyPos (w : Word) (s : State) : (supplyEntropy w s).entropyPos = s.entropyPos := rfl
@[simp] theorem supplyEntropy_agenda (w : Word) (s : State) : (supplyEntropy w s).agenda = s.agenda := rfl
@[simp] theorem supplyEntropy_response (w : Word) (s : State) : (supplyEntropy w s).response = s.response := rfl

@[simp] theorem resetOf_config (c : Config) : (State.resetOf c).config = c := rfl
@[simp] theorem resetOf_x (c : Config) : (State.resetOf c).x = Vector.replicate 8 0 := rfl
@[simp] theorem resetOf_cmd (c : Config) : (State.resetOf c).cmd = 0 := rfl
@[simp] theorem resetOf_status (c : Config) : (State.resetOf c).status = Status.clear := rfl
@[simp] theorem resetOf_rounds (c : Config) : (State.resetOf c).rounds = Config.roundsReset := rfl
@[simp] theorem resetOf_trialcnt (c : Config) : (State.resetOf c).trialcnt = 0 := rfl
@[simp] theorem resetOf_entropy (c : Config) : (State.resetOf c).entropy = [] := rfl
@[simp] theorem resetOf_entropyPos (c : Config) : (State.resetOf c).entropyPos = 0 := rfl
@[simp] theorem resetOf_agenda (c : Config) : (State.resetOf c).agenda = [] := rfl
@[simp] theorem resetOf_response (c : Config) : (State.resetOf c).response = none := rfl

@[simp] theorem writeRegs_config (ws : List (RegNo × Nat)) (s : State) : (writeRegs ws s).config = s.config := by
  induction ws generalizing s with
  | nil => rfl
  | cons p ps ih => exact ih (writeReg p.1 p.2 s)
@[simp] theorem writeRegs_cmd (ws : List (RegNo × Nat)) (s : State) : (writeRegs ws s).cmd = s.cmd := by
  induction ws generalizing s with
  | nil => rfl
  | cons p ps ih => exact ih (writeReg p.1 p.2 s)
@[simp] theorem writeRegs_status (ws : List (RegNo × Nat)) (s : State) : (writeRegs ws s).status = s.status := by
  induction ws generalizing s with
  | nil => rfl
  | cons p ps ih => exact ih (writeReg p.1 p.2 s)
@[simp] theorem writeRegs_rounds (ws : List (RegNo × Nat)) (s : State) : (writeRegs ws s).rounds = s.rounds := by
  induction ws generalizing s with
  | nil => rfl
  | cons p ps ih => exact ih (writeReg p.1 p.2 s)
@[simp] theorem writeRegs_trialcnt (ws : List (RegNo × Nat)) (s : State) : (writeRegs ws s).trialcnt = s.trialcnt := by
  induction ws generalizing s with
  | nil => rfl
  | cons p ps ih => exact ih (writeReg p.1 p.2 s)
@[simp] theorem writeRegs_entropy (ws : List (RegNo × Nat)) (s : State) : (writeRegs ws s).entropy = s.entropy := by
  induction ws generalizing s with
  | nil => rfl
  | cons p ps ih => exact ih (writeReg p.1 p.2 s)
@[simp] theorem writeRegs_entropyPos (ws : List (RegNo × Nat)) (s : State) : (writeRegs ws s).entropyPos = s.entropyPos := by
  induction ws generalizing s with
  | nil => rfl
  | cons p ps ih => exact ih (writeReg p.1 p.2 s)
@[simp] theorem writeRegs_agenda (ws : List (RegNo × Nat)) (s : State) : (writeRegs ws s).agenda = s.agenda := by
  induction ws generalizing s with
  | nil => rfl
  | cons p ps ih => exact ih (writeReg p.1 p.2 s)
@[simp] theorem writeRegs_response (ws : List (RegNo × Nat)) (s : State) : (writeRegs ws s).response = s.response := by
  induction ws generalizing s with
  | nil => rfl
  | cons p ps ih => exact ih (writeReg p.1 p.2 s)

@[simp] theorem publish_config (ws : List (RegNo × Nat)) (v xn yn : Bool) (n : Nat) (s : State) :
    (publish ws v xn yn n s).config = s.config := writeRegs_config ws s
@[simp] theorem publish_x (ws : List (RegNo × Nat)) (v xn yn : Bool) (n : Nat) (s : State) :
    (publish ws v xn yn n s).x = (writeRegs ws s).x := rfl
@[simp] theorem publish_cmd (ws : List (RegNo × Nat)) (v xn yn : Bool) (n : Nat) (s : State) :
    (publish ws v xn yn n s).cmd = s.cmd := writeRegs_cmd ws s
@[simp] theorem publish_status (ws : List (RegNo × Nat)) (v xn yn : Bool) (n : Nat) (s : State) :
    (publish ws v xn yn n s).status = successStatus v xn yn := rfl
@[simp] theorem publish_rounds (ws : List (RegNo × Nat)) (v xn yn : Bool) (n : Nat) (s : State) :
    (publish ws v xn yn n s).rounds = s.rounds := writeRegs_rounds ws s
@[simp] theorem publish_trialcnt (ws : List (RegNo × Nat)) (v xn yn : Bool) (n : Nat) (s : State) :
    (publish ws v xn yn n s).trialcnt = BitVec.ofNat 32 n := rfl
@[simp] theorem publish_entropy (ws : List (RegNo × Nat)) (v xn yn : Bool) (n : Nat) (s : State) :
    (publish ws v xn yn n s).entropy = s.entropy := writeRegs_entropy ws s
@[simp] theorem publish_entropyPos (ws : List (RegNo × Nat)) (v xn yn : Bool) (n : Nat) (s : State) :
    (publish ws v xn yn n s).entropyPos = s.entropyPos := writeRegs_entropyPos ws s
@[simp] theorem publish_agenda (ws : List (RegNo × Nat)) (v xn yn : Bool) (n : Nat) (s : State) :
    (publish ws v xn yn n s).agenda = s.agenda := writeRegs_agenda ws s
@[simp] theorem publish_response (ws : List (RegNo × Nat)) (v xn yn : Bool) (n : Nat) (s : State) :
    (publish ws v xn yn n s).response = s.response := writeRegs_response ws s

@[simp] theorem complete_config (o : CmdOutcome) (s : State) : (complete o s).config = s.config := by
  cases o <;> simp [complete]
@[simp] theorem complete_cmd (o : CmdOutcome) (s : State) : (complete o s).cmd = s.cmd := by
  cases o <;> simp [complete]
@[simp] theorem complete_rounds (o : CmdOutcome) (s : State) : (complete o s).rounds = s.rounds := by
  cases o <;> simp [complete]
@[simp] theorem complete_entropy (o : CmdOutcome) (s : State) : (complete o s).entropy = s.entropy := by
  cases o <;> simp [complete]
@[simp] theorem complete_entropyPos (o : CmdOutcome) (s : State) : (complete o s).entropyPos = s.entropyPos := by
  cases o <;> simp [complete]
@[simp] theorem complete_agenda (o : CmdOutcome) (s : State) : (complete o s).agenda = s.agenda := by
  cases o <;> simp [complete]
@[simp] theorem complete_response (o : CmdOutcome) (s : State) : (complete o s).response = s.response := by
  cases o <;> simp [complete]

@[simp] theorem resetStep_config (lost : Nat) (s : State) : (resetStep lost s).config = s.config := rfl
@[simp] theorem resetStep_x (lost : Nat) (s : State) : (resetStep lost s).x = Vector.replicate 8 0 := rfl
@[simp] theorem resetStep_cmd (lost : Nat) (s : State) : (resetStep lost s).cmd = 0 := rfl
@[simp] theorem resetStep_status (lost : Nat) (s : State) : (resetStep lost s).status = Status.clear := rfl
@[simp] theorem resetStep_rounds (lost : Nat) (s : State) : (resetStep lost s).rounds = Config.roundsReset := rfl
@[simp] theorem resetStep_trialcnt (lost : Nat) (s : State) : (resetStep lost s).trialcnt = 0 := rfl
@[simp] theorem resetStep_agenda (lost : Nat) (s : State) : (resetStep lost s).agenda = s.agenda := rfl
@[simp] theorem resetStep_response (lost : Nat) (s : State) : (resetStep lost s).response = none := rfl

@[simp] theorem hostAccess_config (a : Access) (s : State) : (hostAccess a s).config = (accessEffect a s).config := rfl
@[simp] theorem hostAccess_x (a : Access) (s : State) : (hostAccess a s).x = (accessEffect a s).x := rfl
@[simp] theorem hostAccess_cmd (a : Access) (s : State) : (hostAccess a s).cmd = (accessEffect a s).cmd := rfl
@[simp] theorem hostAccess_status (a : Access) (s : State) : (hostAccess a s).status = (accessEffect a s).status := rfl
@[simp] theorem hostAccess_rounds (a : Access) (s : State) : (hostAccess a s).rounds = (accessEffect a s).rounds := rfl
@[simp] theorem hostAccess_trialcnt (a : Access) (s : State) : (hostAccess a s).trialcnt = (accessEffect a s).trialcnt := rfl
@[simp] theorem hostAccess_entropy (a : Access) (s : State) : (hostAccess a s).entropy = (accessEffect a s).entropy := rfl
@[simp] theorem hostAccess_entropyPos (a : Access) (s : State) : (hostAccess a s).entropyPos = (accessEffect a s).entropyPos := rfl
@[simp] theorem hostAccess_agenda (a : Access) (s : State) : (hostAccess a s).agenda = (accessEffect a s).agenda := rfl
@[simp] theorem hostAccess_response (a : Access) (s : State) :
    (hostAccess a s).response = some (accessResponse a s) := rfl

end Sys2Proof.Machine
end

