-- ==== Sys2Proof/Laws/Ops.lean ====
section
/-! SUPPORT. What each shared operation can do, once: reading a register after a write, the completion's frame,
the window's accesses, the engine's turn and one step. -/

namespace Sys2Proof.Machine

/-! ### Registers -/

/-- A register reads what was written to it, and a write leaves every other register alone. -/
theorem readReg_writeReg (j k : RegNo) (v : Nat) (s : State) :
    readReg j (writeReg k v s) = if j = k then v else readReg j s := by
  simp only [readReg, writeReg, Vector.get_eq_getElem, Vector.getElem_set, Fin.ext_iff, eq_comm]

@[simp] theorem readReg_writeReg_self (k : RegNo) (v : Nat) (s : State) :
    readReg k (writeReg k v s) = v := by simp [readReg_writeReg]

theorem readReg_writeReg_ne {j k : RegNo} (h : j ≠ k) (v : Nat) (s : State) :
    readReg j (writeReg k v s) = readReg j s := by simp [readReg_writeReg, h]

/-- `readReg` looks at `x` only. -/
theorem readReg_of_x_eq {s t : State} (h : t.x = s.x) (k : RegNo) : readReg k t = readReg k s := by
  simp [readReg, h]

/-- Two states with the same `x`, register by register. -/
theorem x_ext {s t : State} (h : ∀ k : RegNo, readReg k t = readReg k s) : t.x = s.x := by
  apply Vector.ext
  intro i hi
  simpa [readReg, Vector.get_eq_getElem] using h ⟨i, hi⟩

/-- A register no write names keeps its value. -/
theorem readReg_writeRegs_of_notMem {k : RegNo} (ws : List (RegNo × Nat)) (s : State)
    (h : k ∉ ws.map Prod.fst) : readReg k (writeRegs ws s) = readReg k s := by
  induction ws generalizing s with
  | nil => rfl
  | cons p ps ih =>
    simp only [List.map_cons, List.mem_cons, not_or] at h
    exact (ih (writeReg p.1 p.2 s) h.2).trans (readReg_writeReg_ne h.1 p.2 s)

/-- Writing values that fit leaves every register fitting. -/
theorem readReg_writeRegs_lt {b : Nat} (ws : List (RegNo × Nat)) (s : State)
    (hs : ∀ k, readReg k s < b) (hw : ∀ p ∈ ws, p.2 < b) : ∀ k, readReg k (writeRegs ws s) < b := by
  induction ws generalizing s with
  | nil => exact hs
  | cons p ps ih =>
    refine ih (writeReg p.1 p.2 s) (fun k => ?_) (fun q hq => hw q (List.mem_cons_of_mem _ hq))
    rw [readReg_writeReg]
    split
    · exact hw p List.mem_cons_self
    · exact hs k

@[simp] theorem readReg_raiseError (k : RegNo) (e : CmdError) (s : State) :
    readReg k (raiseError e s) = readReg k s := rfl

@[simp] theorem readReg_launch (k : RegNo) (w : Word) (s : State) : readReg k (launch w s) = readReg k s := rfl

@[simp] theorem readReg_popTo (k : RegNo) (rest : List Word) (s : State) :
    readReg k (popTo rest s) = readReg k s := rfl

@[simp] theorem readReg_supplyEntropy (k : RegNo) (w : Word) (s : State) :
    readReg k (supplyEntropy w s) = readReg k s := rfl

@[simp] theorem readReg_resetOf (k : RegNo) (c : Config) : readReg k (State.resetOf c) = 0 := by
  simp [readReg, Vector.get_eq_getElem]

@[simp] theorem readReg_resetStep (k : RegNo) (lost : Nat) (s : State) : readReg k (resetStep lost s) = 0 := by
  simp [readReg, Vector.get_eq_getElem]

@[simp] theorem readReg_publish (k : RegNo) (ws : List (RegNo × Nat)) (v xn yn : Bool) (n : Nat) (s : State) :
    readReg k (publish ws v xn yn n s) = readReg k (writeRegs ws s) := rfl

/-! ### Completion -/

/-- A completion ends the command: BUSY = 0 and DONE = 1, with or without an error (30_encoding.md R76). -/
theorem complete_idle (o : CmdOutcome) (s : State) :
    (complete o s).status.busy = false ∧ (complete o s).status.done = true := by
  cases o <;> exact ⟨rfl, rfl⟩

/-- A completion whose writes lie in `ds` keeps everything the frame names. -/
theorem complete_keeps {ds : List RegNo} (o : CmdOutcome) (s : State)
    (h : ∀ ws v xn yn n, o = .success ws v xn yn n → ∀ p ∈ ws, p.1 ∈ ds) : KeepsAllBut ds s (complete o s) where
  config_eq := complete_config o s
  cmd_eq := complete_cmd o s
  rounds_eq := complete_rounds o s
  agenda_eq := complete_agenda o s
  response_eq := complete_response o s
  regs_eq k hk := by
    cases o with
    | error e => rfl
    | success ws v xn yn n =>
      refine readReg_writeRegs_of_notMem ws s fun hm => ?_
      obtain ⟨p, hp, rfl⟩ := List.mem_map.1 hm
      exact hk (h ws v xn yn n rfl p hp)

/-- A completion that writes values that fit leaves every register fitting. -/
theorem complete_fits {b : Nat} (o : CmdOutcome) (s : State) (hs : ∀ k, readReg k s < b)
    (h : ∀ ws v xn yn n, o = .success ws v xn yn n → ∀ p ∈ ws, p.2 < b) :
    ∀ k, readReg k (complete o s) < b := by
  cases o with
  | error e => exact hs
  | success ws v xn yn n => exact readReg_writeRegs_lt ws s hs (h ws v xn yn n rfl)

/-- A completion does not read the bus's last answer. -/
theorem complete_withResponse (o : CmdOutcome) (s : State) (a : Option BusResponse) :
    complete o { s with response := a } = { complete o s with response := a } := by
  cases o with
  | error e => rfl
  | success ws v xn yn n =>
    have h : ∀ (ws : List (RegNo × Nat)) (s : State),
        writeRegs ws { s with response := a } = { writeRegs ws s with response := a } := by
      intro ws
      induction ws with
      | nil => exact fun _ => rfl
      | cons p ps ih => exact fun s => ih (writeReg p.1 p.2 s)
    simp only [complete, publish, h]

/-! ### The window -/

/-- What a write access does: refused without a change, or performed on a target the block lets be written
(20_memory.md R51). -/
theorem memWrite_cases (addr n : Nat) (v : Word) (s : State) :
    memWrite addr n v s = (.err, s) ∨
    ∃ t, targetAt s.config addr = some t ∧ n = 4 ∧ mayWrite t s = true ∧
      memWrite addr n v s = (.ok, writeTarget t v s) := by
  unfold memWrite
  cases ht : targetAt s.config addr with
  | none => exact .inl rfl
  | some t =>
    by_cases h : n = 4 ∧ mayWrite t s = true
    · exact .inr ⟨t, rfl, h.1, h.2, if_pos h⟩
    · exact .inl (if_neg h)

/-- What a read access answers: `ERR`, or the word of a target the block lets be read (20_memory.md R50). -/
theorem memRead_cases (addr n : Nat) (s : State) :
    memRead addr n s = .err ∨
    ∃ t, targetAt s.config addr = some t ∧ n = 4 ∧ mayRead t s = true ∧
      memRead addr n s = .okData (readTarget t s) := by
  unfold memRead
  cases ht : targetAt s.config addr with
  | none => exact .inl rfl
  | some t =>
    by_cases h : n = 4 ∧ mayRead t s = true
    · exact .inr ⟨t, rfl, h.1, h.2, if_pos h⟩
    · exact .inl (if_neg h)

/-- A limb the map has is below LIMBS (20_memory.md R52). -/
theorem targetAt_limb_lt {c : Config} {addr i : Nat} {k : RegNo} (h : targetAt c addr = some (.limb k i)) :
    i < c.limbs := by
  unfold targetAt at h
  split at h
  · cases h
  · split at h
    · split at h <;> cases h
    · split at h
      · dsimp only at h
        split at h
        · cases h
          assumption
        · cases h
      · cases h

/-- Limb `i` of `x[k]` stands at its address (20_memory.md R52). -/
theorem targetAt_limbAddr {c : Config} (hc : c.Wf) {i : Nat} (hi : i < c.limbs) (k : RegNo) :
    targetAt c (limbAddr k i) = some (.limb k i) := by
  have hk := k.isLt
  have hl := hc.2
  have h1 : limbAddr k i % 4 = 0 := by unfold limbAddr; omega
  have h2 : ¬ limbAddr k i < 0x1000 := by unfold limbAddr; omega
  have h3 : limbAddr k i < 0x2000 := by unfold limbAddr; omega
  have h4 : limbAddr k i % 0x200 / 4 = i := by unfold limbAddr; omega
  have h5 : (limbAddr k i - 0x1000) / 0x200 = k.val := by unfold limbAddr; omega
  simp [targetAt, h1, h2, h3, h4, h5, hi]

/-- What an access can do to the block: nothing, a launch, a ROUNDS write or one limb write, each only while it
is idle (20_memory.md R51, R55). -/
theorem accessEffect_cases (a : Access) (s : State) :
    accessEffect a s = s ∨
    s.status.busy = false ∧ ∃ n v addr, a = .write addr n v ∧ accessResponse a s = .ok ∧
      ((targetAt s.config addr = some .cmd ∧ accessEffect a s = launch v s) ∨
       (targetAt s.config addr = some .rounds ∧ accessEffect a s = { s with rounds := v }) ∨
       ∃ k i, i < s.config.limbs ∧ targetAt s.config addr = some (.limb k i) ∧
        accessEffect a s = writeReg k (withLimb (readReg k s) i v) s) := by
  cases a with
  | read addr n => exact .inl rfl
  | write addr n v =>
    rcases memWrite_cases addr n v s with h | ⟨t, ht, rfl, hm, h⟩
    · exact .inl (by simp [accessEffect, h])
    · right
      cases t <;> simp only [mayWrite, Bool.not_eq_true', Bool.false_eq_true] at hm <;>
        refine ⟨hm, 4, v, addr, rfl, by simp [accessResponse, h], ?_⟩
      · exact .inl ⟨ht, by simp [accessEffect, h, writeTarget]⟩
      · exact .inr (.inl ⟨ht, by simp [accessEffect, h, writeTarget]⟩)
      · exact .inr (.inr ⟨_, _, targetAt_limb_lt ht, ht, by simp [accessEffect, h, writeTarget]⟩)

/-- An access does not depend on the steps to come. -/
theorem access_withAgenda (a : Access) (s : State) (es : List Event) :
    accessEffect a { s with agenda := es } = { accessEffect a s with agenda := es } ∧
      accessResponse a { s with agenda := es } = accessResponse a s := by
  cases a with
  | read addr n => exact ⟨rfl, rfl⟩
  | write addr n v =>
    have h : memWrite addr n v { s with agenda := es } =
        ((memWrite addr n v s).1, { (memWrite addr n v s).2 with agenda := es }) := by
      unfold memWrite
      dsimp only
      cases targetAt s.config addr with
      | none => rfl
      | some t =>
        have ht : mayWrite t { s with agenda := es } = mayWrite t s := by cases t <;> rfl
        simp only [ht]
        split
        · cases t <;> rfl
        · rfl
    simp [accessEffect, accessResponse, h]

/-! ### The engine and one step -/

/-- Every command either waits for entropy, its state unchanged, or completes with an outcome after popping some
of the supplied words (30_encoding.md R76, R79). -/
theorem exec_cases (i : Instr) (s : State) :
    (popsEntropy i = true ∧ exec i s = .next s) ∨
    ∃ o rest, exec i s = .next (complete o (popTo rest s)) ∧
      (popsEntropy i = false → rest = s.entropy) := by
  have keep : popTo s.entropy s = s := by simp [popTo]
  cases i with
  | modexp rd rb re rm => exact .inr ⟨_, s.entropy, by rw [keep]; rfl, fun _ => rfl⟩
  | egcd rg rx ry ra rb => exact .inr ⟨_, s.entropy, by rw [keep]; rfl, fun _ => rfl⟩
  | modinv rd ra rm => exact .inr ⟨_, s.entropy, by rw [keep]; rfl, fun _ => rfl⟩
  | mrtrial rn ra => exact .inr ⟨_, s.entropy, by rw [keep]; rfl, fun _ => rfl⟩
  | mrtest rn =>
    simp only [exec, execMrtest]
    split
    · exact .inl ⟨rfl, rfl⟩
    · exact .inr ⟨_, _, rfl, nofun⟩
  | sample rd rlo rhi =>
    simp only [exec, execSample]
    split
    · exact .inr ⟨.error .operand, s.entropy, by rw [keep]; rfl, nofun⟩
    · split
      · exact .inl ⟨rfl, rfl⟩
      · exact .inr ⟨_, _, rfl, nofun⟩

/-- No command reads the bus's last answer (log 7). -/
theorem exec_withResponse {i : Instr} {s t : State} (a : Option BusResponse) (h : exec i s = .next t) :
    exec i { s with response := a } = .next { t with response := a } := by
  cases i with
  | modexp rd rb re rm =>
    obtain rfl := Host.Outcome.next.inj h
    exact congrArg _ (complete_withResponse _ s a)
  | egcd rg rx ry ra rb =>
    obtain rfl := Host.Outcome.next.inj h
    exact congrArg _ (complete_withResponse _ s a)
  | modinv rd ra rm =>
    obtain rfl := Host.Outcome.next.inj h
    exact congrArg _ (complete_withResponse _ s a)
  | mrtrial rn ra =>
    obtain rfl := Host.Outcome.next.inj h
    exact congrArg _ (complete_withResponse _ s a)
  | mrtest rn =>
    have hr : readReg rn { s with response := a } = readReg rn s := rfl
    simp only [exec, execMrtest, hr] at h ⊢
    split at h
    · obtain rfl := Host.Outcome.next.inj h
      rfl
    · obtain rfl := Host.Outcome.next.inj h
      exact congrArg _ (complete_withResponse _ (popTo _ s) a)
  | sample rd rlo rhi =>
    have hr : ∀ k, readReg k { s with response := a } = readReg k s := fun _ => rfl
    simp only [exec, execSample, hr] at h ⊢
    by_cases hlt : readReg rhi s < readReg rlo s
    · simp only [hlt, if_true] at h ⊢
      obtain rfl := Host.Outcome.next.inj h
      rfl
    · simp only [hlt, if_false] at h ⊢
      split at h
      · obtain rfl := Host.Outcome.next.inj h
        rfl
      · obtain rfl := Host.Outcome.next.inj h
        exact congrArg _ (complete_withResponse _ (popTo _ s) a)

/-- The engine's turn: idle, a command's completion step, or an illegal word's error (30_encoding.md R76). -/
theorem engineStep_cases (s : State) :
    (s.status.busy = false ∧ engineStep s = .next s) ∨
    (s.status.busy = true ∧ ∃ i, fetch s = .command i ∧ engineStep s = exec i s) ∨
    (s.status.busy = true ∧ ∃ why, fetch s = .illegal why ∧ engineStep s = .next (raiseError .illegal s)) := by
  unfold engineStep
  cases hb : s.status.busy with
  | false => exact .inl ⟨rfl, rfl⟩
  | true =>
    cases hf : fetch s with
    | command i => exact .inr (.inl ⟨rfl, i, rfl, rfl⟩)
    | illegal why => exact .inr (.inr ⟨rfl, why, rfl, rfl⟩)

/-- The engine's turn does not read the bus's last answer (log 7). -/
theorem engineStep_withResponse {s t : State} (a : Option BusResponse) (h : engineStep s = .next t) :
    engineStep { s with response := a } = .next { t with response := a } := by
  have hf : fetch { s with response := a } = fetch s := rfl
  unfold engineStep at h ⊢
  simp only [hf] at h ⊢
  by_cases hb : s.status.busy = true
  · simp only [hb, if_true] at h ⊢
    split at h
    · exact exec_withResponse a h
    · obtain rfl := Host.Outcome.next.inj h
      rfl
  · simp only [hb] at h ⊢
    obtain rfl := Host.Outcome.next.inj h
    rfl

/-- A command the engine's turn leaves in flight waits: nothing has changed (30_encoding.md R79). -/
theorem engineStep_stillBusy {s t : State} (h : engineStep s = .next t) (hb : t.status.busy = true) : t = s := by
  rcases engineStep_cases s with ⟨-, h'⟩ | ⟨-, i, -, h'⟩ | ⟨-, why, -, h'⟩
  · exact Host.Outcome.next.inj (h.symm.trans h')
  · rcases exec_cases i s with ⟨-, e⟩ | ⟨o, rest, e, -⟩
    · exact Host.Outcome.next.inj (h.symm.trans (h'.trans e))
    · obtain rfl := Host.Outcome.next.inj (h.symm.trans (h'.trans e))
      rw [(complete_idle _ _).1] at hb
      cases hb
  · obtain rfl := Host.Outcome.next.inj (h.symm.trans h')
    cases hb

/-- One step is one agent's: the head of the agenda, or the engine when nothing more is to come. -/
theorem step_cases (s : State) :
    (s.agenda = [] ∧ step s = engineStep s) ∨
    ∃ e rest, s.agenda = e :: rest ∧ step s = perform e { s with agenda := rest } := by
  unfold step
  cases ha : s.agenda with
  | nil => exact .inl ⟨rfl, rfl⟩
  | cons e rest => exact .inr ⟨e, rest, rfl, rfl⟩

/-- What one agent's step can be, when it answers a next state. -/
theorem perform_cases {e : Event} {s t : State} (h : perform e s = .next t) :
    (e = .engine ∧ engineStep s = .next t) ∨
    (∃ a, (e = .host a ∨ (e = .hostLine a ∧ accessResponse a s ≠ .err)) ∧ t = hostAccess a s) ∨
    (∃ w, e = .entropy w ∧ t = supplyEntropy w s) ∨
    (∃ lost, e = .reset lost ∧ t = resetStep lost s) := by
  cases e with
  | engine => exact .inl ⟨rfl, h⟩
  | host a => exact .inr (.inl ⟨a, .inl rfl, by simpa [perform, eq_comm] using h⟩)
  | hostLine a =>
    simp only [perform] at h
    split at h
    · cases h
    · exact .inr (.inl ⟨a, .inr ⟨rfl, ‹_›⟩, by simpa [eq_comm] using h⟩)
  | entropy w => exact .inr (.inr (.inl ⟨w, rfl, by simpa [perform, eq_comm] using h⟩))
  | reset lost => exact .inr (.inr (.inr ⟨lost, rfl, by simpa [perform, eq_comm] using h⟩))

end Sys2Proof.Machine
end

