-- ==== Sys2Proof/Laws/Commands.lean ====
section
/-! SUPPORT. What a command's completion step can be, with the outcome its pseudocode gives: the one lemma that
taking `exec` apart needs (30_encoding.md R76). -/

namespace Sys2Proof.Machine

/-- An accepted attempt's value lies in the span, and a suffix of the stream is left (41_sampler.md R122). -/
theorem sampleAttempts_suffix {lo span k nw fuel v : Nat} {ws rest : List Word}
    (h : sampleAttempts lo span k nw fuel ws = some (v, rest)) :
    lo ≤ v ∧ v < lo + span ∧ ∃ pre, ws = pre ++ rest := by
  induction fuel generalizing ws with
  | zero => cases h
  | succ f ih =>
    rw [sampleAttempts] at h
    split at h
    · cases h
    · dsimp only at h
      split at h
      · cases h
        exact ⟨by omega, by omega, ws.take nw, (List.take_append_drop nw ws).symm⟩
      · obtain ⟨h1, h2, pre, hp⟩ := ih h
        exact ⟨h1, h2, ws.take nw ++ pre, by rw [List.append_assoc, ← hp, List.take_append_drop]⟩

/-- A draw lies in the range and leaves a suffix of the stream (41_sampler.md R120, R122). -/
theorem sampleRange_suffix {lo hi v : Nat} {ws rest : List Word} (hle : lo ≤ hi)
    (h : sampleRange lo hi ws = some (v, rest)) : lo ≤ v ∧ v ≤ hi ∧ ∃ pre, ws = pre ++ rest := by
  obtain ⟨h1, h2, h3⟩ := sampleAttempts_suffix h
  exact ⟨h1, by unfold sampleSpan at h2; omega, h3⟩

/-- The trials end within their number and leave a suffix of the stream (40_primality.md R103). -/
theorem runTrials_suffix {n d s left done c : Nat} {v : Bool} {ws rest : List Word} (hn : 4 ≤ n)
    (h : runTrials n d s left done ws = some (v, c, rest)) :
    (∃ pre, ws = pre ++ rest) ∧ c ≤ done + left := by
  induction left generalizing done ws with
  | zero =>
    cases h
    exact ⟨⟨[], rfl⟩, Nat.le_refl _⟩
  | succ l ih =>
    rw [runTrials] at h
    split at h
    · cases h
    · rename_i a mid hs
      obtain ⟨-, -, p, rfl⟩ := sampleRange_suffix (by omega) hs
      split at h
      · obtain ⟨⟨q, rfl⟩, hc⟩ := ih h
        exact ⟨⟨p ++ q, (List.append_assoc p q rest).symm⟩, by omega⟩
      · cases h
        exact ⟨⟨p, rfl⟩, by omega⟩

/-- The whole test leaves a suffix of the stream and runs at most `rounds` trials (40_primality.md R103). -/
theorem isProbablyPrime_suffix {n rounds c : Nat} {v : Bool} {ws rest : List Word}
    (h : isProbablyPrime n rounds ws = some (v, c, rest)) : (∃ pre, ws = pre ++ rest) ∧ c ≤ rounds := by
  unfold isProbablyPrime at h
  split at h
  · cases h
    exact ⟨⟨[], rfl⟩, Nat.zero_le _⟩
  · cases h
    exact ⟨⟨[], rfl⟩, Nat.zero_le _⟩
  · rename_i hp
    have hn : 4 ≤ n := by
      unfold prescreen at hp
      split at hp
      · cases hp
      · split at hp
        · cases hp
        · omega
    simpa using runTrials_suffix hn h

/-- The outcome and the words left that each command's pseudocode gives, when it ends. -/
def EndsWith (i : Instr) (s : State) (o : CmdOutcome) (rest : List Word) : Prop :=
  match i with
  | .modexp rd rb re rm =>
    rest = s.entropy ∧ o = modexpOutcome rd (readReg rb s) (readReg re s) (readReg rm s)
  | .egcd rg rx ry ra rb =>
    rest = s.entropy ∧ o = egcdOutcome s.config.width rg rx ry (readReg ra s) (readReg rb s)
  | .modinv rd ra rm => rest = s.entropy ∧ o = modinvOutcome rd (readReg ra s) (readReg rm s)
  | .mrtest rn =>
    ∃ v c, o = .success [] v false false c ∧
      isProbablyPrime (readReg rn s) s.rounds.toNat s.entropy = some (v, c, rest)
  | .mrtrial rn ra => rest = s.entropy ∧ o = mrtrialOutcome (readReg rn s) (readReg ra s)
  | .sample rd rlo rhi =>
    (rest = s.entropy ∧ o = .error .operand ∧ readReg rhi s < readReg rlo s) ∨
    ∃ v, o = .success [(rd, v)] false false false 0 ∧ readReg rlo s ≤ readReg rhi s ∧
      sampleRange (readReg rlo s) (readReg rhi s) s.entropy = some (v, rest)

/-- Popping nothing changes nothing. -/
@[simp] theorem popTo_self (s : State) : popTo s.entropy s = s := by simp [popTo]

/-- A command waits, or it completes with the outcome its pseudocode gives (30_encoding.md R76, R79). -/
theorem exec_outcome (i : Instr) (s : State) :
    (popsEntropy i = true ∧ exec i s = .next s) ∨
    ∃ o rest, EndsWith i s o rest ∧ exec i s = .next (complete o (popTo rest s)) := by
  cases i with
  | modexp rd rb re rm => exact .inr ⟨_, _, ⟨rfl, rfl⟩, by rw [popTo_self]; rfl⟩
  | egcd rg rx ry ra rb => exact .inr ⟨_, _, ⟨rfl, rfl⟩, by rw [popTo_self]; rfl⟩
  | modinv rd ra rm => exact .inr ⟨_, _, ⟨rfl, rfl⟩, by rw [popTo_self]; rfl⟩
  | mrtrial rn ra => exact .inr ⟨_, _, ⟨rfl, rfl⟩, by rw [popTo_self]; rfl⟩
  | mrtest rn =>
    simp only [exec, execMrtest]
    split
    · exact .inl ⟨rfl, rfl⟩
    · exact .inr ⟨_, _, ⟨_, _, rfl, ‹_›⟩, rfl⟩
  | sample rd rlo rhi =>
    simp only [exec, execSample]
    split
    · exact .inr ⟨_, _, .inl ⟨rfl, rfl, ‹_›⟩, by rw [popTo_self]; rfl⟩
    · split
      · exact .inl ⟨rfl, rfl⟩
      · exact .inr ⟨_, _, .inr ⟨_, rfl, by omega, ‹_›⟩, rfl⟩

/-- Where a command ends, the words left are a suffix of those supplied; all of them, unless it is MRTEST or
SAMPLE (41_sampler.md R120). -/
theorem EndsWith.suffix {i : Instr} {s : State} {o : CmdOutcome} {rest : List Word} (h : EndsWith i s o rest) :
    (∃ pre, s.entropy = pre ++ rest) ∧ (popsEntropy i = false → rest = s.entropy) := by
  cases i with
  | modexp rd rb re rm => exact ⟨⟨[], h.1.symm⟩, fun _ => h.1⟩
  | egcd rg rx ry ra rb => exact ⟨⟨[], h.1.symm⟩, fun _ => h.1⟩
  | modinv rd ra rm => exact ⟨⟨[], h.1.symm⟩, fun _ => h.1⟩
  | mrtrial rn ra => exact ⟨⟨[], h.1.symm⟩, fun _ => h.1⟩
  | mrtest rn =>
    obtain ⟨v, c, -, h⟩ := h
    exact ⟨(isProbablyPrime_suffix h).1, nofun⟩
  | sample rd rlo rhi =>
    rcases h with ⟨h, -⟩ | ⟨v, -, hle, h⟩
    · exact ⟨⟨[], h.symm⟩, nofun⟩
    · exact ⟨(sampleRange_suffix hle h).2.2, nofun⟩

/-- Where a command ends without error, it writes its destinations only, VERDICT and TRIALCNT are those of MRTEST
and MRTRIAL only, and the signs EGCD's only (10_state.md R21, R24, R32). -/
theorem EndsWith.success {i : Instr} {s : State} {ws : List (RegNo × Nat)} {v xn yn : Bool} {c : Nat}
    {rest : List Word} (h : EndsWith i s (.success ws v xn yn c) rest) :
    (∀ p ∈ ws, p.1 ∈ dests i) ∧
    (v = true ∨ c ≠ 0 → (∃ rn, i = .mrtest rn) ∨ ∃ rn ra, i = .mrtrial rn ra) ∧
    (xn = true ∨ yn = true → ∃ rg rx ry ra rb, i = .egcd rg rx ry ra rb) ∧
    (∀ rn, i = .mrtest rn → c ≤ s.rounds.toNat) := by
  cases i with
  | modexp rd rb re rm =>
    obtain ⟨-, h⟩ := h
    simp only [modexpOutcome] at h
    split at h <;> cases h
    simp [dests]
  | egcd rg rx ry ra rb =>
    obtain ⟨-, h⟩ := h
    simp only [egcdOutcome] at h
    split at h
    · cases h
    · split at h <;> cases h
      simp [dests]
  | modinv rd ra rm =>
    obtain ⟨-, h⟩ := h
    simp only [modinvOutcome] at h
    split at h
    · cases h
    · split at h <;> cases h
      simp [dests]
  | mrtrial rn ra =>
    obtain ⟨-, h⟩ := h
    simp only [mrtrialOutcome] at h
    split at h
    · cases h
    · split at h <;> cases h
      simp
  | mrtest rn =>
    obtain ⟨v, c, h, hp⟩ := h
    cases h
    simpa using (isProbablyPrime_suffix hp).2
  | sample rd rlo rhi =>
    rcases h with ⟨-, h, -⟩ | ⟨v, h, -⟩ <;> cases h
    simp [dests]

end Sys2Proof.Machine
end

