-- ==== Sys2Proof/Laws/Decode.lean ====
section
/-! SUPPORT. What the encoder and the decoder can answer, once: the number and the fields of a built word, and the
decoder taken apart (30_encoding.md R70, R74, R77). -/

namespace Sys2Proof.Machine

/-- A register field as a number is its three bits. -/
theorem regField_val (w : Word) (lo : Nat) : (regField w lo).val = bitsAt w lo 3 := rfl

/-- The number of a built word is the formula of 30_encoding.md R70: nothing is cut off. -/
theorem buildWord_toNat {op : Nat} (hop : op < 256) (f0 f1 f2 f3 f4 : RegNo) :
    (buildWord op f0 f1 f2 f3 f4).toNat =
      op + f0.val * 2 ^ 8 + f1.val * 2 ^ 11 + f2.val * 2 ^ 14 + f3.val * 2 ^ 17 + f4.val * 2 ^ 20 := by
  have := f0.isLt
  have := f1.isLt
  have := f2.isLt
  have := f3.isLt
  have := f4.isLt
  simp only [buildWord, BitVec.toNat_ofNat]
  omega

/-- Each field of a built word holds the operand put there. -/
theorem buildWord_regField {op : Nat} (hop : op < 256) (f0 f1 f2 f3 f4 : RegNo) :
    regField (buildWord op f0 f1 f2 f3 f4) 8 = f0 ∧ regField (buildWord op f0 f1 f2 f3 f4) 11 = f1 ∧
    regField (buildWord op f0 f1 f2 f3 f4) 14 = f2 ∧ regField (buildWord op f0 f1 f2 f3 f4) 17 = f3 ∧
    regField (buildWord op f0 f1 f2 f3 f4) 20 = f4 ∧ wordField (buildWord op f0 f1 f2 f3 f4) 23 9 = 0 ∧
    wordField (buildWord op f0 f1 f2 f3 f4) 0 8 = op := by
  have := f0.isLt
  have := f1.isLt
  have := f2.isLt
  have := f3.isLt
  have := f4.isLt
  simp only [regField, wordField, buildWord_toNat hop, Fin.ext_iff, Fin.ofNat]
  refine ⟨?_, ?_, ?_, ?_, ?_, ?_, ?_⟩ <;> omega

/-- A word that decodes to a command has the reserved field 0, the command's opcode, the unused fields 0 and the
operands in the fields of its format. -/
theorem decode_command_cases {w : Word} {i : Instr} (h : decode w = .command i) :
    bitsAt w 23 9 = 0 ∧
    ((bitsAt w 0 8 = 0x01 ∧ bitsAt w 20 3 = 0 ∧
        i = .modexp (regField w 8) (regField w 11) (regField w 14) (regField w 17)) ∨
     (bitsAt w 0 8 = 0x02 ∧ distinctDests (regField w 8) (regField w 11) (regField w 14) = true ∧
        i = .egcd (regField w 8) (regField w 11) (regField w 14) (regField w 17) (regField w 20)) ∨
     (bitsAt w 0 8 = 0x03 ∧ (bitsAt w 17 3 = 0 ∧ bitsAt w 20 3 = 0) ∧
        i = .modinv (regField w 8) (regField w 11) (regField w 14)) ∨
     (bitsAt w 0 8 = 0x04 ∧ (bitsAt w 8 3 = 0 ∧ bitsAt w 14 3 = 0 ∧ bitsAt w 17 3 = 0 ∧ bitsAt w 20 3 = 0) ∧
        i = .mrtest (regField w 11)) ∨
     (bitsAt w 0 8 = 0x05 ∧ (bitsAt w 8 3 = 0 ∧ bitsAt w 17 3 = 0 ∧ bitsAt w 20 3 = 0) ∧
        i = .mrtrial (regField w 11) (regField w 14)) ∨
     (bitsAt w 0 8 = 0x06 ∧ (bitsAt w 17 3 = 0 ∧ bitsAt w 20 3 = 0) ∧
        i = .sample (regField w 8) (regField w 11) (regField w 14))) := by
  have e0 : ∀ lo, regField w lo = 0 ↔ bitsAt w lo 3 = 0 := fun lo => by rw [Fin.ext_iff]; rfl
  unfold decode at h
  dsimp only at h
  split at h
  · cases h
  · rename_i hr
    refine ⟨by simpa [bitsAt, wordField] using hr, ?_⟩
    split at h <;> (try rename_i hop; change bitsAt w 0 8 = _ at hop; rw [hop])
    · split at h
      · cases h
      · injection h with h; subst h; simp_all
    · by_cases hd : distinctDests (regField w 8) (regField w 11) (regField w 14) = true
      · rw [if_pos hd] at h; injection h with h; subst h; simp_all
      · rw [if_neg hd] at h; cases h
    all_goals first
      | (split at h
         · cases h
         · injection h with h; subst h; simp_all)
      | cases h

/-- The command in flight has its own opcode in CMD (10_state.md R37). -/
theorem cmdOpcode_of_fetch {s : State} {i : Instr} (h : fetch s = .command i) :
    cmdOpcode s = bitsAt (encode i) 0 8 := by
  have e : cmdOpcode s = bitsAt s.cmd 0 8 := by simp [cmdOpcode, bitsAt]
  rw [e]
  obtain ⟨-, h⟩ := decode_command_cases h
  rcases h with ⟨ho, -, rfl⟩ | ⟨ho, -, rfl⟩ | ⟨ho, -, rfl⟩ | ⟨ho, -, rfl⟩ | ⟨ho, -, rfl⟩ | ⟨ho, -, rfl⟩ <;>
    rw [ho] <;> exact ((buildWord_regField (by decide) _ _ _ _ _).2.2.2.2.2.2).symm

end Sys2Proof.Machine
end

