-- ==== Sys2Proof/Laws/HostLines.lean ====
section
/-! SUPPORT. How host programs compose, and what the host reads in a status word: what every proof about a host
sequence steps with (30_encoding.md R81, 10_state.md R30). -/

namespace Sys2Proof.Machine

/-- A program whose first part is done goes on with the second. -/
theorem hostThen_done {α β : Type} {p : HostProg α} {q : α → HostProg β} {r t : HostRun} {a : α}
    (h : p r = .done a t) : hostThen p q r = q a t := by simp [hostThen, h]

/-- A program whose first part waits is waiting. -/
theorem hostThen_waiting {α β : Type} {p : HostProg α} {q : α → HostProg β} {r t : HostRun}
    (h : p r = .waiting t) : hostThen p q r = .waiting t := by simp [hostThen, h]

/-- A program whose first part fails has failed. -/
theorem hostThen_failed {α β : Type} {p : HostProg α} {q : α → HostProg β} {r t : HostRun} {f : HostFault}
    (h : p r = .failed f t) : hostThen p q r = .failed f t := by simp [hostThen, h]

/-- A program whose values all fit runs. -/
theorem hostNeeds_fits {α : Type} {vs : List Nat} {p : HostProg α} {r : HostRun}
    (h : ∀ V ∈ vs, V < 2 ^ r.state.config.width) : hostNeeds vs p r = p r := if_pos h

/-- A program with a value that does not fit is refused before any access. -/
theorem hostNeeds_tooWide {α : Type} {vs : List Nat} {p : HostProg α} {r : HostRun} {V : Nat} (hV : V ∈ vs)
    (h : 2 ^ r.state.config.width ≤ V) : hostNeeds vs p r = .failed .tooWide r :=
  if_neg fun hf => absurd (hf V hV) (by omega)

/-! ### The engine's turn before an access -/

/-- An access uses up one entry of the turns. -/
@[simp] theorem advance_turns (r : HostRun) : r.advance.turns = r.turns.tail := rfl

/-- The engine's turn as a step: it always has a next state. -/
theorem engineStep_eq_engineTurn (s : State) : engineStep s = .next (engineTurn s) := by
  have : ∃ t, engineStep s = .next t := by
    rcases engineStep_cases s with ⟨-, h⟩ | ⟨-, i, -, h⟩ | ⟨-, why, -, h⟩
    · exact ⟨_, h⟩
    · rcases exec_cases i s with ⟨-, h'⟩ | ⟨o, rest, h', -⟩ <;> exact ⟨_, h.trans h'⟩
    · exact ⟨_, h⟩
  obtain ⟨t, h⟩ := this
  rw [engineTurn, h]

/-- On an idle block the engine's turn changes nothing (60_exceptions.md R197). -/
theorem engineTurn_idle {s : State} (h : s.status.busy = false) : engineTurn s = s := by
  simp [engineTurn, engineStep, h]

/-- On an idle block only the list of turns moves on. -/
theorem advance_idle {r : HostRun} (h : r.state.status.busy = false) : r.advance = ⟨r.state, r.turns.tail⟩ := by
  simp [HostRun.advance, engineTurn_idle h]

/-- The run after the engine's choice, with no turn before the next access: an access on it is the access on `r`. -/
theorem advance_advance (r : HostRun) : HostRun.advance ⟨r.advance.state, false :: r.advance.turns⟩ = r.advance := rfl

/-! ### The two primitive lines -/

/-- A WR that the block admits. -/
theorem wr_ok {off : Nat} {v : Word} {r : HostRun} {t : State}
    (h : memWrite off 4 v r.advance.state = (.ok, t)) :
    wr off v r = .done () ⟨{ t with response := some .ok }, r.turns.tail⟩ := by
  simp [wr, hostLine, hostThen, hostReturn, hostAccess, accessEffect, accessResponse, h]

/-- A WR that the block refuses. -/
theorem wr_err {off : Nat} {v : Word} {r : HostRun} {t : State}
    (h : memWrite off 4 v r.advance.state = (.err, t)) :
    wr off v r = .failed .errResponse ⟨{ t with response := some .err }, r.turns.tail⟩ := by
  simp [wr, hostLine, hostThen, hostFail, hostAccess, accessEffect, accessResponse, h]

/-- An RD that the block admits. -/
theorem rd_okData {off : Nat} {w : Word} {r : HostRun} (h : memRead off 4 r.advance.state = .okData w) :
    rd off r = .done w ⟨{ r.advance.state with response := some (.okData w) }, r.turns.tail⟩ := by
  simp [rd, hostLine, hostThen, hostReturn, hostAccess, accessEffect, accessResponse, h]

/-- An RD that the block refuses. -/
theorem rd_err {off : Nat} {r : HostRun} (h : memRead off 4 r.advance.state = .err) :
    rd off r = .failed .errResponse ⟨{ r.advance.state with response := some .err }, r.turns.tail⟩ := by
  simp [rd, hostLine, hostThen, hostFail, hostAccess, accessEffect, accessResponse, h]

/-- STATUS can always be read (20_memory.md R55). -/
theorem rd_status (r : HostRun) :
    rd 0x00C r = .done (statusWord r.advance.state.status)
      ⟨{ r.advance.state with response := some (.okData (statusWord r.advance.state.status)) }, r.turns.tail⟩ :=
  rd_okData rfl

/-- The number of a status word: no two fields overlap. -/
theorem statusWord_toNat (f : Status) :
    (statusWord f).toNat = f.busy.toNat + f.done.toNat * 2 ^ 1 + f.err.toNat * 2 ^ 2
      + f.verdict.toNat * 2 ^ 3 + f.xneg.toNat * 2 ^ 4 + f.yneg.toNat * 2 ^ 5 + f.errCode.toNat * 2 ^ 8 := by
  have := f.busy.toNat_lt
  have := f.done.toNat_lt
  have := f.err.toNat_lt
  have := f.verdict.toNat_lt
  have := f.xneg.toNat_lt
  have := f.yneg.toNat_lt
  have := f.errCode.isLt
  simp only [statusWord, BitVec.toNat_ofNat]
  omega

/-- Bit 0 of STATUS is BUSY, bit 2 ERR, bit 3 VERDICT, as the host tests them. -/
theorem statusWord_bits (f : Status) :
    (statusWord f).getLsbD 0 = f.busy ∧ (statusWord f).getLsbD 2 = f.err ∧
      (statusWord f).getLsbD 3 = f.verdict := by
  have bit : ∀ (b : Bool) (i : Nat), (statusWord f).toNat / 2 ^ i % 2 = b.toNat →
      (statusWord f).getLsbD i = b := by
    intro b i h
    rw [BitVec.getLsbD, Nat.testBit_eq_decide_div_mod_eq, h]
    cases b <;> rfl
  have := f.busy.toNat_lt
  have := f.done.toNat_lt
  have := f.err.toNat_lt
  have := f.verdict.toNat_lt
  have := f.xneg.toNat_lt
  have := f.yneg.toNat_lt
  refine ⟨bit _ _ ?_, bit _ _ ?_, bit _ _ ?_⟩ <;> rw [statusWord_toNat] <;> omega

end Sys2Proof.Machine
end

