-- ==== Sys2Proof/Laws/Numbers.lean ====
section
/-! SUPPORT. The helper functions on numbers in Mathlib's terms: bit length, the sampler's parameters, and the number
a list of words spells (00_scope.md R10, 41_sampler.md R122). -/

namespace Sys2Proof.Machine

/-- `bitlen` is Mathlib's `Nat.size` (00_scope.md R10). -/
theorem bitLen_eq_size (v : Nat) : bitLen v = v.size := by
  unfold bitLen
  split
  · subst v
    rfl
  · rename_i h
    apply le_antisymm
    · exact Nat.lt_size.2 ((Nat.le_log2 h).1 le_rfl)
    · exact Nat.size_le.2 ((Nat.log2_lt h).1 (Nat.lt_succ_self _))

/-- The sampler's `span`, `k` and `nw` in terms of `hi - lo` (41_sampler.md R122). -/
theorem sample_parameters (lo hi : Nat) :
    sampleSpan lo hi = hi - lo + 1 ∧ sampleBits lo hi = (hi - lo).size ∧
      sampleWords lo hi = attemptWords lo hi := by
  refine ⟨rfl, by simp [sampleBits, sampleSpan, bitLen_eq_size], ?_⟩
  simp only [sampleWords, ceilDiv, attemptWords, sampleBits, sampleSpan, bitLen_eq_size, Nat.add_sub_cancel]
  rfl

/-- Words below spell the low part, words above the high part. -/
theorem assemble_append (a b : List Word) :
    assemble (a ++ b) = assemble a + 2 ^ (32 * a.length) * assemble b := by
  induction a with
  | nil => simp [assemble]
  | cons w ws ih =>
    simp only [List.cons_append, assemble, ih, List.length_cons]
    have e : 2 ^ (32 * (ws.length + 1)) = 2 ^ 32 * 2 ^ (32 * ws.length) := by
      rw [← pow_add]
      congr 1
      ring
    rw [e]
    ring

/-- `n` words spell a number of `32 n` bits. -/
theorem assemble_lt (a : List Word) : assemble a < 2 ^ (32 * a.length) := by
  induction a with
  | nil => simp [assemble]
  | cons w ws ih =>
    simp only [assemble, List.length_cons]
    have hw := w.isLt
    have e : 2 ^ (32 * (ws.length + 1)) = 2 ^ 32 * 2 ^ (32 * ws.length) := by
      rw [← pow_add]
      congr 1
      ring
    rw [e]
    generalize 2 ^ (32 * ws.length) = M at *
    omega

end Sys2Proof.Machine
end

