-- ==== Sys2Proof/Laws/PerInstr.lean ====
section
/-! SUPPORT. Facts about every command as syntax, one lemma a constructor: the encoder leaves the reserved
field 0 and puts the command's own opcode in bits 7:0 (30_encoding.md R70, R73). -/

namespace Sys2Proof.Laws.EncodeFields

open Sys2Proof.Machine

/-- The opcode of a command (30_encoding.md R73). -/
def opcode : Instr → Nat
  | .modexp _ _ _ _ => 0x01
  | .egcd _ _ _ _ _ => 0x02
  | .modinv _ _ _ => 0x03
  | .mrtest _ => 0x04
  | .mrtrial _ _ => 0x05
  | .sample _ _ _ => 0x06

/-- Reserved bits 0, opcode in place. -/
def Statement (i : Instr) : Prop := bitsAt (encode i) 23 9 = 0 ∧ bitsAt (encode i) 0 8 = opcode i

/-- The word built from an opcode byte and five register fields has the two fields. -/
theorem buildWord_fields (op : Nat) (hop : op < 256) (f0 f1 f2 f3 f4 : RegNo) :
    bitsAt (buildWord op f0 f1 f2 f3 f4) 23 9 = 0 ∧ bitsAt (buildWord op f0 f1 f2 f3 f4) 0 8 = op := by
  have h0 := f0.isLt
  have h1 := f1.isLt
  have h2 := f2.isLt
  have h3 := f3.isLt
  have h4 := f4.isLt
  simp only [bitsAt, buildWord, BitVec.toNat_ofNat]
  constructor <;> omega

theorem modexp (rd rb re rm : RegNo) : Statement (.modexp rd rb re rm) :=
  buildWord_fields 0x01 (by decide) rd rb re rm 0

theorem egcd (rg rx ry ra rb : RegNo) : Statement (.egcd rg rx ry ra rb) :=
  buildWord_fields 0x02 (by decide) rg rx ry ra rb

theorem modinv (rd ra rm : RegNo) : Statement (.modinv rd ra rm) :=
  buildWord_fields 0x03 (by decide) rd ra rm 0 0

theorem mrtest (rn : RegNo) : Statement (.mrtest rn) := buildWord_fields 0x04 (by decide) 0 rn 0 0 0

theorem mrtrial (rn ra : RegNo) : Statement (.mrtrial rn ra) :=
  buildWord_fields 0x05 (by decide) 0 rn ra 0 0

theorem sample (rd rlo rhi : RegNo) : Statement (.sample rd rlo rhi) :=
  buildWord_fields 0x06 (by decide) rd rlo rhi 0 0

end Sys2Proof.Laws.EncodeFields
end

