-- ==== Sys2Proof/Laws/Window.lean ====
section
/-! SUPPORT. The register window keeps its form: every operand register stays below 2^W under every access
(10_state.md R20, 20_memory.md R54). The block has no other memory. -/

namespace Sys2Proof.Machine

/-- A limb as a number: 32 bits of the value (20_memory.md R53). -/
theorem limbOf_toNat (v i : Nat) : (limbOf v i).toNat = v / 2 ^ (32 * i) % 2 ^ 32 := by
  have h : 32 * i + 31 + 1 - 32 * i = 32 := by omega
  simp [limbOf, slice, h]

/-- A value with one limb replaced: the bits below and above it stay (20_memory.md R54). -/
theorem withLimb_eq (v i : Nat) (d : Word) :
    withLimb v i d = v % 2 ^ (32 * i) + 2 ^ (32 * i) * (d.toNat + 2 ^ 32 * (v / 2 ^ (32 * i) / 2 ^ 32)) := by
  have h : 32 * i + 31 + 1 - 32 * i = 32 := by omega
  simp only [withLimb, slice, h]
  generalize 2 ^ (32 * i) = P
  have h1 := Nat.div_add_mod v P
  have h2 := Nat.div_add_mod (v / P) (2 ^ 32)
  generalize v / P = q at *
  generalize q / 2 ^ 32 = r at *
  generalize q % 2 ^ 32 = m at *
  generalize v % P = low at *
  subst h2
  have h3 : v = P * (2 ^ 32 * r) + m * P + low := by rw [← h1]; ring
  have h4 : v - m * P = P * (2 ^ 32 * r) + low := by omega
  rw [h4]
  ring

/-- A value below 2^(32 n) with a limb below n replaced stays below 2^(32 n). -/
theorem withLimb_lt {v n i : Nat} (d : Word) (hi : i < n) (hv : v < 2 ^ (32 * n)) :
    withLimb v i d < 2 ^ (32 * n) := by
  rw [withLimb_eq, Nat.div_div_eq_div_mul, ← Nat.pow_add, ← Nat.mul_succ]
  obtain ⟨m, rfl⟩ : ∃ m, n = i + 1 + m := ⟨n - (i + 1), by omega⟩
  have hP : 0 < 2 ^ (32 * i) := Nat.two_pow_pos _
  have hlow : v % 2 ^ (32 * i) < 2 ^ (32 * i) := Nat.mod_lt _ hP
  have hd := d.isLt
  have hhigh : v / 2 ^ (32 * i.succ) < 2 ^ (32 * m) := by
    rw [Nat.div_lt_iff_lt_mul (Nat.two_pow_pos _), ← Nat.pow_add]
    convert hv using 2
    omega
  have e : 2 ^ (32 * (i + 1 + m)) = 2 ^ (32 * i) * (2 ^ 32 * 2 ^ (32 * m)) := by
    rw [← Nat.pow_add, ← Nat.pow_add]
    congr 1
    ring
  rw [e]
  have hin : d.toNat + 2 ^ 32 * (v / 2 ^ (32 * i.succ)) + 1 ≤ 2 ^ 32 * 2 ^ (32 * m) := by
    generalize v / 2 ^ (32 * i.succ) = q at *
    generalize 2 ^ (32 * m) = M at *
    omega
  generalize d.toNat + 2 ^ 32 * (v / 2 ^ (32 * i.succ)) = X at *
  calc v % 2 ^ (32 * i) + 2 ^ (32 * i) * X < 2 ^ (32 * i) * (X + 1) := by
        rw [Nat.mul_add_one, Nat.add_comm]
        exact Nat.add_lt_add_left hlow _
    _ ≤ _ := Nat.mul_le_mul_left _ hin

/-- An offset has no target exactly when it is unaligned, outside the window or unmapped (20_memory.md R52,
R57). -/
theorem targetAt_none_iff (c : Config) (addr : Nat) :
    targetAt c addr = none ↔ addr % 4 ≠ 0 ∨ 0x2000 ≤ addr ∨ Unmapped c addr := by
  unfold targetAt Unmapped
  by_cases h4 : addr % 4 = 0
  · by_cases h1 : addr < 0x1000
    · simp only [h4, ne_eq, not_true, if_false, h1, if_true, false_or]
      split
      all_goals try (constructor <;> (intro h; first | (cases h; done) | omega))
      rename_i a b c d e f
      change ¬ _ at a
      change ¬ _ at b
      change ¬ _ at c
      change ¬ _ at d
      change ¬ _ at e
      change ¬ _ at f
      simp
      omega
    · by_cases h2 : addr < 0x2000
      · by_cases h3 : addr % 0x200 / 4 < c.limbs
        · simp [h4, h1, h2, h3]
        · simp [h4, h1, h2, h3]
          omega
      · simp [h4, h1, h2]
        omega
  · simp [h4]

/-- What the map has at an offset: one of the six control registers, each at its own offset, or a limb of the
operand window (20_memory.md R52). -/
theorem targetAt_cases {c : Config} {addr : Nat} {t : Target} (h : targetAt c addr = some t) :
    (t = .id ∧ addr = 0x000) ∨ (t = .cfg ∧ addr = 0x004) ∨ (t = .cmd ∧ addr = 0x008) ∨
    (t = .status ∧ addr = 0x00C) ∨ (t = .rounds ∧ addr = 0x010) ∨ (t = .trialcnt ∧ addr = 0x014) ∨
    ∃ k i, t = .limb k i ∧ InOperandWindow addr := by
  unfold targetAt at h
  unfold InOperandWindow
  split at h
  · cases h
  · split at h
    · split at h <;> cases h <;> simp
    · split at h
      · dsimp only at h
        split at h
        · cases h
          exact .inr (.inr (.inr (.inr (.inr (.inr ⟨_, _, rfl, by omega, by omega⟩)))))
        · cases h
      · cases h

/-- The limbs of a value with limb `i` replaced: limb `i` is the new word, every other limb is as before
(20_memory.md R54). -/
theorem withLimb_limb (v i j : Nat) (d : Word) :
    withLimb v i d / 2 ^ (32 * j) % 2 ^ 32 = if j = i then d.toNat else v / 2 ^ (32 * j) % 2 ^ 32 := by
  have hP : 0 < 2 ^ (32 * i) := Nat.two_pow_pos _
  have hd := d.isLt
  rw [withLimb_eq]
  split
  · subst j
    rw [Nat.add_mul_div_left _ _ hP, Nat.div_eq_of_lt (Nat.mod_lt _ hP)]
    omega
  · rcases Nat.lt_or_gt_of_ne ‹_› with hlt | hgt
    · obtain ⟨m, rfl⟩ : ∃ m, i = j + 1 + m := ⟨i - (j + 1), by omega⟩
      have e : 2 ^ (32 * (j + 1 + m)) = 2 ^ (32 * j) * (2 ^ 32 * 2 ^ (32 * m)) := by
        rw [← Nat.pow_add, ← Nat.pow_add]
        congr 1
        ring
      rw [e, Nat.mul_assoc, Nat.add_mul_div_left _ _ (Nat.two_pow_pos _), Nat.mul_assoc,
        Nat.add_mul_mod_self_left, Nat.mod_mul_right_div_self, Nat.mod_mul_right_mod]
    · obtain ⟨m, rfl⟩ : ∃ m, j = i + 1 + m := ⟨j - (i + 1), by omega⟩
      have e : 2 ^ (32 * (i + 1 + m)) = 2 ^ (32 * i) * 2 ^ 32 * 2 ^ (32 * m) := by
        rw [← Nat.pow_add, ← Nat.pow_add]
        congr 1
        ring
      have h2 : (0 + (d.toNat + 2 ^ 32 * (v / 2 ^ (32 * i) / 2 ^ 32))) / 2 ^ 32 =
          v / 2 ^ (32 * i) / 2 ^ 32 := by omega
      rw [e, ← Nat.div_div_eq_div_mul, ← Nat.div_div_eq_div_mul, ← Nat.div_div_eq_div_mul,
        ← Nat.div_div_eq_div_mul, Nat.add_mul_div_left _ _ hP, Nat.div_eq_of_lt (Nat.mod_lt _ hP), h2]

/-- Every access keeps every operand register below 2^W. -/
theorem accessEffect_fits (a : Access) (s : State) (hs : ∀ k, readReg k s < 2 ^ s.config.width) :
    ∀ k, readReg k (accessEffect a s) < 2 ^ s.config.width := by
  rcases accessEffect_cases a s with h | ⟨-, n, v, addr, -, -, ⟨-, h⟩ | ⟨-, h⟩ | ⟨j, i, hi, -, h⟩⟩ <;>
    rw [h] <;> intro k
  · exact hs k
  · exact hs k
  · exact hs k
  · rw [readReg_writeReg]
    split
    · exact withLimb_lt v hi (hs j)
    · exact hs k

/-- Reset's registers fit whatever W is. -/
theorem resetOf_fits (c : Config) : ∀ k, readReg k (State.resetOf c) < 2 ^ c.width := fun k => by
  simp

end Sys2Proof.Machine
end

