-- ==== Sys2Proof/Tests/Slice0.lean ====
section
/-! SUPPORT. The model's own tests: the form check, the encodings of 95_test_vectors.md section 2.7, at most two
vectors a command, the bus table of section 2.8, and one step. Every expected value is the spec's. -/

namespace Sys2Proof.Tests

open Sys2Proof.Machine

/-- The command in flight on these registers, round count and entropy words (30_encoding.md R75). -/
def inFlight (c : Config) (i : Instr) (x : Vector Nat 8) (rounds : Nat) (words : List Word) : State :=
  { State.resetOf c with
    x := x, cmd := encode i, status := launchedStatus, rounds := BitVec.ofNat 32 rounds, entropy := words }

/-- The next state, if there is one. -/
def nextOf (o : Host.Outcome State Fault Refusal) : Option State :=
  match o with
  | .next t => some t
  | .fault _ => none
  | .refused _ => none

/-- The registers, STATUS, TRIALCNT and stream position after a command on the instance W = 64. -/
def after (i : Instr) (x : Vector Nat 8) (rounds : Nat) (words : List Word) :
    Option (List Nat × Word × Nat × Nat) :=
  (nextOf (exec i (inFlight ⟨2⟩ i x rounds words))).map fun t =>
    (t.x.toList, statusWord t.status, t.trialcnt.toNat, t.entropyPos)

/-! ### Form -/

/-- 30_encoding.md R74 (c): each of the three equalities of EGCD's destinations is refused. -/
theorem test_wellFormed_refuses_equal_destinations :
    Instr.wellFormed (.egcd 2 2 4 0 1) = false ∧ Instr.wellFormed (.egcd 2 3 2 0 1) = false ∧
    Instr.wellFormed (.egcd 2 3 3 0 1) = false := by decide

/-- Destinations may equal sources, and the other commands have no condition (10_state.md R21). -/
theorem test_wellFormed_accepts :
    Instr.wellFormed (.egcd 0 1 2 0 1) = true ∧ Instr.wellFormed (.egcd 5 6 7 7 7) = true ∧
    Instr.wellFormed (.modexp 7 7 7 7) = true ∧ Instr.wellFormed (.modinv 7 7 7) = true ∧
    Instr.wellFormed (.mrtest 7) = true ∧ Instr.wellFormed (.mrtrial 7 7) = true ∧
    Instr.wellFormed (.sample 7 7 7) = true := by decide

/-! ### Encoding: the words of 95_test_vectors.md section 2.7 -/

theorem test_decode_modexp :
    decode 0x00044301 = .command (.modexp 3 0 1 2) ∧ decode 0x0006A501 = .command (.modexp 5 4 2 3) ∧
    decode 0x000FFF01 = .command (.modexp 7 7 7 7) ∧ decode 0x00000001 = .command (.modexp 0 0 0 0) := by decide

theorem test_decode_egcd :
    decode 0x00111A02 = .command (.egcd 2 3 4 0 1) ∧ decode 0x00636302 = .command (.egcd 3 4 5 1 6) ∧
    decode 0x007FF502 = .command (.egcd 5 6 7 7 7) ∧ decode 0x00108802 = .command (.egcd 0 1 2 0 1) := by decide

theorem test_decode_modinv :
    decode 0x00004203 = .command (.modinv 2 0 1) ∧ decode 0x00018A03 = .command (.modinv 2 1 6) ∧
    decode 0x0001FF03 = .command (.modinv 7 7 7) := by decide

theorem test_decode_mrtest :
    decode 0x00002804 = .command (.mrtest 5) ∧ decode 0x00003804 = .command (.mrtest 7) ∧
    decode 0x00000004 = .command (.mrtest 0) := by decide

theorem test_decode_mrtrial :
    decode 0x00004005 = .command (.mrtrial 0 1) ∧ decode 0x0001A805 = .command (.mrtrial 5 6) ∧
    decode 0x0001F805 = .command (.mrtrial 7 7) := by decide

theorem test_decode_sample :
    decode 0x00004206 = .command (.sample 2 0 1) ∧ decode 0x0001C106 = .command (.sample 1 0 7) ∧
    decode 0x0001FF06 = .command (.sample 7 7 7) := by decide

theorem test_encode :
    encode (.modexp 4 0 1 3) = 0x00064401 ∧ encode (.egcd 3 4 5 0 1) = 0x00116302 ∧
    encode (.modinv 4 1 3) = 0x0000CC03 ∧ encode (.mrtest 2) = 0x00001004 ∧
    encode (.mrtrial 5 6) = 0x0001A805 ∧ encode (.sample 0 6 7) = 0x0001F006 := by decide

theorem test_decode_illegal :
    decode 0x00000000 = .illegal .opcode ∧ decode 0x00000007 = .illegal .opcode ∧
    decode 0x000000FF = .illegal .opcode ∧ decode 0xFFFFFFFF = .illegal .reserved ∧
    decode 0x00800001 = .illegal .reserved ∧ decode 0x80000004 = .illegal .reserved ∧
    decode 0x00144301 = .illegal .unusedField ∧ decode 0x00111202 = .illegal .equalDestinations ∧
    decode 0x00000802 = .illegal .equalDestinations ∧ decode 0x00108002 = .illegal .equalDestinations ∧
    decode 0x00024203 = .illegal .unusedField ∧ decode 0x00100003 = .illegal .unusedField ∧
    decode 0x00000104 = .illegal .unusedField ∧ decode 0x00004004 = .illegal .unusedField ∧
    decode 0x00020004 = .illegal .unusedField ∧ decode 0x00000105 = .illegal .unusedField ∧
    decode 0x00020006 = .illegal .unusedField := by decide

/-- 30_encoding.md R80. -/
theorem test_assembly :
    assemblyOf (.modexp 3 0 1 2) = "MODEXP r3, r0, r1, r2" ∧ assemblyOf (.mrtest 5) = "MRTEST r5" := by decide

theorem test_decodeTableWord :
    decodeTableWord 32 0x00111A02 = some (.egcd 2 3 4 0 1) ∧ decodeTableWord 32 0x00111202 = none := by decide

/-! ### Commands: the vectors of 95_test_vectors.md sections 2.1 to 2.6 -/

/-- X1. -/
theorem test_modexp_x1 :
    after (.modexp 3 0 1 2) #v[4, 13, 497, 0, 0, 0, 0, 0] 5 [] =
      some ([4, 13, 497, 445, 0, 0, 0, 0], 0x00000002, 0, 0) := by decide

/-- X20: the destination is the base register. -/
theorem test_modexp_x20 :
    after (.modexp 0 0 1 2) #v[18537, 65537, 27331, 0, 0, 0, 0, 0] 5 [] =
      some ([20491, 65537, 27331, 0, 0, 0, 0, 0], 0x00000002, 0, 0) := by decide

/-- E7 with destinations that are sources (section 2.2, register overlap): XNEG. -/
theorem test_egcd_e7 :
    after (.egcd 0 1 2 0 1) #v[240, 46, 0, 0, 0, 0, 0, 0] 5 [] =
      some ([2, 9, 47, 0, 0, 0, 0, 0], 0x00000012, 0, 0) := by decide

/-- E16: YNEG. -/
theorem test_egcd_e16 :
    after (.egcd 2 3 4 0 1) #v[11537, 27000, 0, 0, 0, 0, 0, 0] 5 [] =
      some ([11537, 27000, 1, 3473, 1484, 0, 0, 0], 0x00000022, 0, 0) := by decide

/-- I2: a negative coefficient normalised. -/
theorem test_modinv_i2 :
    after (.modinv 2 0 1) #v[17, 3120, 0, 0, 0, 0, 0, 0] 5 [] =
      some ([17, 3120, 2753, 0, 0, 0, 0, 0], 0x00000002, 0, 0) := by decide

/-- I10: E_NOINVERSE, the destination unchanged. -/
theorem test_modinv_i10 :
    after (.modinv 2 0 1) #v[6, 9, 0xDEADBEEF, 0, 0, 0, 0, 0] 5 [] =
      some ([6, 9, 0xDEADBEEF, 0, 0, 0, 0, 0], 0x00000206, 0, 0) := by decide

/-- T16: a strong liar passes at the first square. -/
theorem test_mrtrial_t16 :
    after (.mrtrial 0 1) #v[25, 7, 0, 0, 0, 0, 0, 0] 5 [] =
      some ([25, 7, 0, 0, 0, 0, 0, 0], 0x0000000A, 1, 0) := by decide

/-- T13: 561 fails for base 2 although a square is 1. -/
theorem test_mrtrial_t13 :
    after (.mrtrial 0 1) #v[561, 2, 0, 0, 0, 0, 0, 0] 5 [] =
      some ([561, 2, 0, 0, 0, 0, 0, 0], 0x00000002, 1, 0) := by decide

/-- M11, one more word in the stream: the third base fails, and nothing is popped after it. -/
theorem test_mrtest_m11 :
    after (.mrtest 0) #v[561, 0, 0, 0, 0, 0, 0, 0] 5 [48, 99, 0, 7] =
      some ([561, 0, 0, 0, 0, 0, 0, 0], 0x00000002, 3, 3) := by decide

/-- M12: a false positive after ROUNDS = 2 trials. -/
theorem test_mrtest_m12 :
    after (.mrtest 0) #v[561, 0, 0, 0, 0, 0, 0, 0] 2 [48, 99, 0] =
      some ([561, 0, 0, 0, 0, 0, 0, 0], 0x0000000A, 2, 2) := by decide

/-- S5: two words an attempt, the first attempt rejected. -/
theorem test_sample_s5 :
    after (.sample 2 0 1) #v[0, 2 ^ 33, 77, 0, 0, 0, 0, 0] 5 [0xFFFFFFFF, 0xFFFFFFFF, 1, 0xFFFFFF00] =
      some ([0, 2 ^ 33, 1, 0, 0, 0, 0, 0], 0x00000002, 0, 4) := by decide

/-- S13: lo above hi, before any word is popped. -/
theorem test_sample_s13 :
    after (.sample 2 0 1) #v[7, 3, 77, 0, 0, 0, 0, 0] 5 [1] =
      some ([7, 3, 77, 0, 0, 0, 0, 0], 0x00000406, 0, 0) := by decide

/-! ### Bus, launch, reset: 95_test_vectors.md section 2.8 -/

/-- B1 to B4, B8. -/
theorem test_bus_reads_after_reset :
    memRead 0x000 4 .reset = .okData 0x52534131 ∧ memRead 0x004 4 .reset = .okData 0x20 ∧
    memRead 0x00C 4 .reset = .okData 0 ∧ memRead 0x010 4 .reset = .okData 5 ∧
    memRead 0x107C 4 .reset = .okData 0 := by decide +kernel

/-- B5 to B7, B9 to B12. -/
theorem test_bus_refuses :
    (memWrite 0x00C 4 0 .reset).1 = .err ∧ (memWrite 0x000 4 1 .reset).1 = .err ∧
    memRead 0x018 4 .reset = .err ∧ memRead 0x1080 4 .reset = .err ∧ memRead 0x1002 4 .reset = .err ∧
    memRead 0x1000 2 .reset = .err ∧ memRead 0x2000 4 .reset = .err := by decide

/-- B13, and the partial load after the table. -/
theorem test_limb_write :
    (memWrite 0x1200 4 10 .reset).2.x.toList = [0, 10, 0, 0, 0, 0, 0, 0] ∧
    (memWrite 0x1000 4 9
      { State.reset with x := #v[0x100000005, 0, 0, 0, 0, 0, 0, 0] }).2.x.toList =
        [0x100000009, 0, 0, 0, 0, 0, 0, 0] := by decide

/-- The state of B14: `SAMPLE r2, r0, r1` on [0, 10], launched, no word supplied. -/
def stuck : State := inFlight .reference (.sample 2 0 1) #v[0, 10, 0, 0, 0, 0, 0, 0] 5 []

/-- B14 to B21. -/
theorem test_bus_while_busy :
    (memWrite 0x008 4 0x00004206 { State.reset with x := #v[0, 10, 0, 0, 0, 0, 0, 0] }) = (.ok, stuck) ∧
    nextOf (step stuck) = some stuck ∧ memRead 0x00C 4 stuck = .okData 1 ∧
    memRead 0x1000 4 stuck = .err ∧ memWrite 0x1000 4 1 stuck = (.err, stuck) ∧
    memWrite 0x008 4 0x00000004 stuck = (.err, stuck) ∧ memWrite 0x010 4 7 stuck = (.err, stuck) ∧
    memRead 0x008 4 stuck = .okData 0x00004206 ∧ memRead 0x010 4 stuck = .okData 5 ∧
    memRead 0x014 4 stuck = .okData 0 := by decide

/-- B22: reset ends the command that would never complete. -/
theorem test_reset_abandons :
    nextOf (step { stuck with agenda := [.reset 0] }) = some .reset := by decide

/-- 30_encoding.md R74, R76: an illegal word completes with E_ILLEGAL. -/
theorem test_illegal_word :
    (nextOf (step (State.reset.withFetchWord 32 0x00111202))).map (fun t => (statusWord t.status, t.cmd)) =
      some (0x00000106, 0x00111202) := by decide

/-- 70_reset_and_hazards.md R204: the first command after reset, on registers never loaded. -/
theorem test_first_command_after_reset :
    (nextOf (step (State.reset.withFetchWord 32 0x00000001))).map (fun t => statusWord t.status) =
      some 0x00000306 := by decide

/-- 44_host_sequences.md R171, 20_memory.md R56: the bytes of "Hi". -/
theorem test_bytes :
    bytesToInt [0x48, 0x69] = 18537 ∧ intToBytes 18537 = [0x48, 0x69] ∧ intToBytes 0 = [] := by decide

end Sys2Proof.Tests
end

