-- ==== Sys2Proof/Tests/Witnesses.lean ====
section
/-! SUPPORT. For every statement with hypotheses, a state and operands that meet all of them together, one for each
clause, at a boundary of its range where it has one. -/

namespace Sys2Proof.Tests

open Sys2Proof.Machine

/-- A command in flight on registers that fit meets the invariants. -/
theorem inFlight_inv {c : Config} (hc : c.Wf) (i : Instr) {x : Vector Nat 8} (rounds : Nat) (words : List Word)
    (hx : ∀ k : RegNo, x.get k < 2 ^ c.width) : (inFlight c i x rounds words).Inv := by
  refine ⟨hc, hx, ?_, ?_, ?_, ?_, ?_, ?_, ?_, ?_⟩ <;> simp [inFlight, launchedStatus, State.resetOf]

/-- The smallest instance, W = 32 (00_scope.md R6). -/
def w32 : Config := ⟨1⟩

/-- A command in flight on the smallest instance. -/
abbrev run32 (i : Instr) (x : Vector Nat 8) (words : List Word) : State := inFlight w32 i x 5 words

/-- The idle block with these registers and words on the smallest instance, as reset leaves the rest. -/
abbrev idle32 (x : Vector Nat 8) (words : List Word) : State :=
  { State.resetOf w32 with x := x, entropy := words }

/-- The idle block on registers that fit meets the invariants. -/
theorem idle32_inv {x : Vector Nat 8} (words : List Word) (hx : ∀ k : RegNo, x.get k < 2 ^ w32.width) :
    (idle32 x words).Inv := by
  refine ⟨(by decide : w32.Wf), hx, ?_, ?_, ?_, ?_, ?_, ?_, ?_, ?_⟩ <;> simp [State.resetOf, Status.clear]

/-! ### Encoding -/

/-- DecodeOfEncodeIsTheCommand: only EGCD has a condition. -/
theorem witness_decodeOfEncode : Instr.wellFormed (.egcd 7 6 5 7 7) = true := by decide

/-- DecodedCommandsEncodeBack. -/
theorem witness_decodedCommands : decode 0x007FF502 = .command (.egcd 5 6 7 7 7) := by decide

/-- IllegalWordsLaunchAndFail: words illegal by each part of each clause, and the words next to them that are not. -/
theorem witness_illegal_words :
    (∀ w ∈ ([0x00000000, 0x00000007, 0x000000FF, 0x00800001, 0x80000004, 0x00144301, 0x00024203, 0x00100003,
        0x00000104, 0x00004004, 0x00000105, 0x00020005, 0x00020006, 0x00111202, 0x00000802, 0x0010DA02] :
          List Word), IllegalWord w) ∧
    (∀ w ∈ ([0x00000001, 0x00111A02, 0x00000003, 0x00000004, 0x00000005, 0x0001FF06] : List Word),
      ¬ IllegalWord w) := by
  constructor <;> intro w hw <;> fin_cases hw <;> unfold IllegalWord UsesUnusedField <;> decide

/-- IllegalWordsLaunchAndFail: a block with an illegal word in flight, and an idle one. -/
theorem witness_illegal_in_flight :
    (launch 0x00111202 State.reset).status.busy = true ∧ (launch 0x00111202 State.reset).cmd = 0x00111202 ∧
    State.reset.status.busy = false := by decide

/-! ### One step -/

/-- StepRunsTheDecodedCommand, both clauses. -/
theorem witness_stepRuns :
    (run32 (.mrtest 0) (Vector.replicate 8 0) []).status.busy = true ∧
    decode (run32 (.mrtest 0) (Vector.replicate 8 0) []).cmd = .command (.mrtest 0) ∧
    (run32 (.mrtest 0) (Vector.replicate 8 0) []).agenda = [] ∧
    ({ run32 (.mrtest 0) (Vector.replicate 8 0) [] with agenda := [.engine, .reset 0] } : State).agenda =
      .engine :: [.reset 0] := by decide

/-- IdleBlockKeepsItsState. -/
theorem witness_idle :
    State.reset.status.busy = false ∧ State.reset.agenda = [] ∧
    ({ State.reset with agenda := [.engine] } : State).agenda = .engine :: [] := by decide

/-- HostAndEntropyStepsDoTheirWork: the last mapped limb read and written, ROUNDS written by a line, a launch. -/
theorem witness_hostSteps :
    ¬ Refused .reset (.read 0x1E7C 4) ∧ ¬ Refused .reset (.write 0x1E7C 4 7) ∧
    ¬ Refused .reset (.write 0x010 4 3) ∧ State.reset.status.busy = false ∧
    (nextOf (step { State.reset with agenda := [.hostLine (.write 0x010 4 3)] })).map
      (fun t => (t.rounds, t.response)) = some (3, some .ok) ∧
    (nextOf (step { State.reset with entropy := [1], agenda := [.entropy 2] })).map (·.entropy) = some [1, 2] := by
  simp only [Refused, Unmapped, InOperandWindow]
  decide

/-- StepStopsOnlyAtARefusedLine: a refused line, and a state with nothing to come. -/
theorem witness_refusedLine :
    NextLineRefused { State.reset with agenda := [.hostLine (.read 0x018 4)] } ∧ ¬ NextLineRefused .reset := by
  refine ⟨⟨.read 0x018 4, [], rfl, ?_⟩, ?_⟩
  · simp only [Refused, Unmapped, InOperandWindow]
    decide
  · rintro ⟨a, rest, h, -⟩
    cases h

/-! ### The window -/

/-- BusRefusesExactlyTheListedAccesses: an access of each listed case. -/
theorem witness_refused :
    (∀ a ∈ ([.read 0x1000 2, .read 0x1002 4, .read 0x2000 4, .read 0x0018 4, .read 0x0FFC 4, .read 0x1080 4,
        .read 0x1FFC 4, .write 0x000 4 1, .write 0x004 4 1, .write 0x00C 4 0, .write 0x014 4 0] : List Access),
      Refused .reset a) ∧
    (∀ a ∈ ([.write 0x008 4 4, .write 0x010 4 7, .read 0x1000 4, .write 0x1000 4 1] : List Access),
      Refused stuck a ∧ ¬ Refused .reset a) ∧
    ¬ Refused .reset (.read 0x107C 4) ∧ ¬ Refused .reset (.read 0x1E7C 4) := by
  refine ⟨?_, ?_, ?_⟩
  · intro a ha
    fin_cases ha <;> simp only [Refused, Unmapped, InOperandWindow] <;> decide
  · intro a ha
    fin_cases ha <;> simp only [Refused, Unmapped, InOperandWindow] <;> decide
  · simp only [Refused, Unmapped, InOperandWindow]
    decide

/-- ControlRegistersRead, ResetValues and ResetMeetsTheInvariants: the smallest and the largest instance. -/
theorem witness_configs :
    w32.Wf ∧ (⟨128⟩ : Config).Wf ∧ Config.reference.Wf ∧ ¬ (⟨0⟩ : Config).Wf ∧ ¬ (⟨129⟩ : Config).Wf := by decide

/-- OperandReadsReturnTheLimbs and LimbWriteReplacesOneLimb: the first and the last limb of a full register. -/
theorem witness_limbs :
    (⟨2⟩ : Config).Wf ∧ (0 : Nat) < (⟨2⟩ : Config).limbs ∧ (1 : Nat) < (⟨2⟩ : Config).limbs ∧
    readReg 7 { State.resetOf ⟨2⟩ with x := Vector.replicate 8 (2 ^ 64 - 1) } < 2 ^ (⟨2⟩ : Config).width ∧
    ({ State.resetOf ⟨2⟩ with x := Vector.replicate 8 (2 ^ 64 - 1) } : State).status.busy = false := by decide

/-- BusyBlockRefusesAndKeepsItsState: the ends of the operand window, a busy block. -/
theorem witness_busy :
    InOperandWindow 0x1000 ∧ InOperandWindow 0x1FFC ∧ ¬ InOperandWindow 0x2000 ∧ ¬ InOperandWindow 0x0FFC ∧
    stuck.status.busy = true := by
  unfold InOperandWindow
  decide

/-- RoundsWriteStoresTheWord, LaunchIsOneWriteToCmd: an idle and a busy block. WritesButLaunchesAreIdempotent:
another offset than CMD's. -/
theorem witness_writes :
    State.reset.status.busy = false ∧ stuck.status.busy = true ∧ (0x1000 : Nat) ≠ 0x008 ∧
    (0x010 : Nat) ≠ 0x008 := by decide

/-! ### Completion and errors -/

/-- CompletionEndsTheCommand: a command that waits, one that ends, one that ends with an error. -/
theorem witness_completion :
    stuck.status.busy = true ∧ nextOf (engineStep stuck) = some stuck ∧
    (nextOf (engineStep (run32 (.mrtest 0) (Vector.replicate 8 0) []))).map (·.status.err) = some false ∧
    (nextOf (engineStep (run32 (.modexp 0 0 0 0) (Vector.replicate 8 0) []))).map (·.status.err) = some true := by
  decide

/-- FlagsAreSetByTheirCommandsOnly: each flag set, right after a launch. -/
theorem witness_flags :
    (run32 (.mrtest 0) #v[2, 0, 0, 0, 0, 0, 0, 0] []).status =
      ⟨true, false, false, false, false, false, 0⟩ ∧
    (nextOf (exec (.mrtest 0) (run32 (.mrtest 0) #v[2, 0, 0, 0, 0, 0, 0, 0] []))).map (·.status.verdict) =
      some true ∧
    (nextOf (exec (.mrtrial 0 1) (run32 (.mrtrial 0 1) #v[5, 3, 0, 0, 0, 0, 0, 0] []))).map (·.status.verdict) =
      some true ∧
    (nextOf (exec (.egcd 2 3 4 0 1) (run32 (.egcd 2 3 4 0 1) #v[240, 46, 0, 0, 0, 0, 0, 0] []))).map
      (·.status.xneg) = some true ∧
    (nextOf (exec (.egcd 2 3 4 0 1) (run32 (.egcd 2 3 4 0 1) #v[46, 240, 0, 0, 0, 0, 0, 0] []))).map
      (·.status.yneg) = some true := by decide

/-- CommandsWriteOnlyTheirDestinations: a next state, an error after a state without one, a command that pops
nothing. -/
theorem witness_frame :
    (nextOf (exec (.egcd 0 1 2 0 1) (run32 (.egcd 0 1 2 0 1) #v[240, 46, 0, 0, 0, 0, 0, 0] [7]))).isSome = true ∧
    (run32 (.sample 2 0 1) #v[7, 3, 0, 0, 0, 0, 0, 0] [1]).status.err = false ∧
    (nextOf (exec (.sample 2 0 1) (run32 (.sample 2 0 1) #v[7, 3, 0, 0, 0, 0, 0, 0] [1]))).map (·.status.err) =
      some true ∧ popsEntropy (.egcd 0 1 2 0 1) = false := by decide

/-- The error code a command in flight ends with, none without an error. -/
def errorOf (i : Instr) (x : Vector Nat 8) : Option (BitVec 8) :=
  match nextOf (exec i (run32 i x [])) with
  | some t => if t.status.err then some t.status.errCode else none
  | none => none

/-- ErrorsByCommand: an in-flight state that meets the invariants, for each error of each row, at the ends of the
domains. -/
theorem witness_errors :
    (∀ (i : Instr) (x : Vector Nat 8), (∀ k : RegNo, x.get k < 2 ^ w32.width) →
      (run32 i x []).Inv ∧ (run32 i x []).status.busy = true) ∧
    errorOf (.modexp 3 0 1 2) #v[5, 5, 0, 0, 0, 0, 0, 0] = some 3 ∧
    errorOf (.modinv 2 0 1) #v[5, 0, 0, 0, 0, 0, 0, 0] = some 3 ∧
    errorOf (.modinv 2 0 1) #v[6, 9, 0, 0, 0, 0, 0, 0] = some 2 ∧
    errorOf (.mrtrial 0 1) #v[4, 2, 0, 0, 0, 0, 0, 0] = some 4 ∧
    errorOf (.mrtrial 0 1) #v[3, 2, 0, 0, 0, 0, 0, 0] = some 4 ∧
    errorOf (.mrtrial 0 1) #v[13, 1, 0, 0, 0, 0, 0, 0] = some 4 ∧
    errorOf (.mrtrial 0 1) #v[13, 12, 0, 0, 0, 0, 0, 0] = some 4 ∧
    errorOf (.mrtrial 0 1) #v[13, 11, 0, 0, 0, 0, 0, 0] = none ∧
    errorOf (.sample 2 0 1) #v[7, 6, 0, 0, 0, 0, 0, 0] = some 4 :=
  ⟨fun i _ hx => ⟨inFlight_inv (by decide) i 5 [] hx, rfl⟩, by decide⟩

/-! ### MODEXP -/

/-- ModexpResult: modulus 0, and 1. -/
theorem witness_modexp :
    readReg 2 (run32 (.modexp 3 0 1 2) #v[5, 5, 0, 0, 0, 0, 0, 0] []) = 0 ∧
    readReg 2 (run32 (.modexp 3 0 1 2) #v[5, 5, 1, 0, 0, 0, 0, 0] []) ≠ 0 := by decide

/-- MODEXP of these values in flight. -/
abbrev mx (b e m : Nat) : State := run32 (.modexp 3 0 1 2) #v[b, e, m, 9, 0, 0, 0, 0] []

/-- ModexpCornerCases: base, exponent and modulus of each row, at the row's ends. -/
theorem witness_modexp_corners :
    (readReg 1 (mx 0 0 2) = 0 ∧ 2 ≤ readReg 2 (mx 0 0 2)) ∧ readReg 2 (mx 7 3 1) = 1 ∧
    (readReg 0 (mx 0 1 1) = 0 ∧ 1 ≤ readReg 1 (mx 0 1 1) ∧ 1 ≤ readReg 2 (mx 0 1 1)) ∧
    (readReg 0 (mx 1 0 2) = 1 ∧ 2 ≤ readReg 2 (mx 1 0 2)) ∧ 1 ≤ readReg 2 (mx 500 13 497) ∧
    (readReg 0 (mx 1 1 2) = readReg 2 (mx 1 1 2) - 1 ∧ readReg 1 (mx 1 1 2) % 2 = 1 ∧
      2 ≤ readReg 2 (mx 1 1 2)) ∧
    (readReg 0 (mx 1 2 2) = readReg 2 (mx 1 2 2) - 1 ∧ readReg 1 (mx 1 2 2) % 2 = 0 ∧
      2 ≤ readReg 1 (mx 1 2 2) ∧ 2 ≤ readReg 2 (mx 1 2 2)) ∧
    readReg 2 (mx 5 5 0) = 0 := by decide

/-- ReferenceAlgorithmComputesThePower: the least modulus. -/
theorem witness_modulus_one : 0 < 1 ∧ modExpRef 5 0 1 = 0 := by decide

/-- RsaRoundTrip: the key 3, 7 modulo 33, the largest message. -/
theorem witness_rsa :
    Nat.Prime 3 ∧ Nat.Prime 11 ∧ 3 ≠ 11 ∧ 7 * 3 % ((3 - 1) * (11 - 1)) = 1 % ((3 - 1) * (11 - 1)) ∧
    readReg 3 (idle32 #v[32, 3, 7, 33, 0, 0, 0, 0] []) = 3 * 11 ∧
    readReg 2 (idle32 #v[32, 3, 7, 33, 0, 0, 0, 0] []) = 7 ∧
    readReg 1 (idle32 #v[32, 3, 7, 33, 0, 0, 0, 0] []) = 3 ∧
    readReg 0 (idle32 #v[32, 3, 7, 33, 0, 0, 0, 0] []) < 3 * 11 ∧ (4 : RegNo) ≠ 2 ∧ (4 : RegNo) ≠ 3 := by
  refine ⟨by norm_num, by norm_num, ?_⟩
  decide

/-! ### EGCD and MODINV -/

/-- ExtendedGcdRecursion and ExtendedGcdProperties: 42_modinv.md R133, the table and (e). -/
theorem witness_extendedGcd :
    (240 : Nat) ≠ 0 ∧ extendedGcd (46 % 240) 240 = (2, 47, -9) ∧ extendedGcd 240 46 = (2, -9, 47) ∧ 0 < 2 ∧
    extendedGcd 0 0 = (0, 0, 1) ∧ extendedGcd 1 0 = (1, 1, 0) ∧ (0 : Nat) < 1 ∧ extendedGcd 2 1 = (1, 0, 1) ∧
    (1 : Nat) < 2 := by decide

/-- EgcdResult: two operands at the top of the registers. -/
theorem witness_egcd :
    (2 : RegNo) ≠ 3 ∧ (2 : RegNo) ≠ 4 ∧ (3 : RegNo) ≠ 4 ∧ w32.Wf ∧
    readReg 0 (run32 (.egcd 2 3 4 0 1) #v[2 ^ 32 - 1, 2 ^ 32 - 1, 0, 0, 0, 0, 0, 0] []) < 2 ^ w32.width ∧
    readReg 1 (run32 (.egcd 2 3 4 0 1) #v[2 ^ 32 - 1, 2 ^ 32 - 1, 0, 0, 0, 0, 0, 0] []) < 2 ^ w32.width ∧
    extendedGcd (2 ^ 32 - 1) (2 ^ 32 - 1) = (2 ^ 32 - 1, 1, 0) := by
  refine ⟨by decide, by decide, by decide, by decide, by decide, by decide, ?_⟩
  decide +kernel

/-- ModInverseProperties: the least modulus of each clause, and a Bézout pair of another kind. -/
theorem witness_modInverse :
    ((1 : Nat) < 2 ∧ Nat.gcd 1 2 = 1) ∧ ((1 : Nat) < 2 ∧ Nat.gcd 2 2 ≠ 1) ∧ (1 : Nat) = 1 ∧
    ((0 : Nat) < 11 ∧ ((3 % 11 : Nat) : Int) * (4 + 11) + (11 : Int) * (-1 - 3) = 1) := by decide

/-- ModinvResult: modulus 0; modulus 2 without and with an inverse; modulus 1. -/
theorem witness_modinv :
    readReg 1 (run32 (.modinv 2 0 1) #v[5, 0, 0, 0, 0, 0, 0, 0] []) = 0 ∧
    (readReg 1 (run32 (.modinv 2 0 1) #v[2, 2, 0, 0, 0, 0, 0, 0] []) ≠ 0 ∧ Nat.gcd (2 % 2) 2 ≠ 1) ∧
    (readReg 1 (run32 (.modinv 2 0 1) #v[3, 2, 0, 0, 0, 0, 0, 0] []) ≠ 0 ∧ Nat.gcd (3 % 2) 2 = 1) ∧
    (readReg 1 (run32 (.modinv 2 0 1) #v[10, 1, 0, 0, 0, 0, 0, 0] []) ≠ 0 ∧ Nat.gcd (10 % 1) 1 = 1) := by decide

/-! ### MRTEST and MRTRIAL -/

/-- DecomposeIsTheOnlyDecomposition: the least `n`, and 40_primality.md R101's 561. -/
theorem witness_decompose :
    (5 ≤ 5 ∧ 5 % 2 = 1) ∧ decompose 5 = (1, 2) ∧ (1 % 2 = 1 ∧ 5 - 1 = 1 * 2 ^ 2) ∧ decompose 561 = (35, 4) := by
  decide

/-- MRTRIAL of these values in flight. -/
abbrev tr (n a : Nat) : State := run32 (.mrtrial 0 1) #v[n, a, 0, 0, 0, 0, 0, 0] []

/-- TrialPassesExactlyOnStrongLiars and MrtrialResult: the ends of the base's range for `n = 5`; outside it; a pass
and a fail (T3, T4, T21). -/
theorem witness_trial :
    (5 ≤ readReg 0 (tr 5 2) ∧ readReg 0 (tr 5 2) % 2 = 1 ∧ 2 ≤ readReg 1 (tr 5 2) ∧
      readReg 1 (tr 5 2) ≤ readReg 0 (tr 5 2) - 2) ∧
    (2 ≤ readReg 1 (tr 5 3) ∧ readReg 1 (tr 5 3) ≤ readReg 0 (tr 5 3) - 2) ∧
    readReg 0 (tr 3 2) < 5 ∧ readReg 0 (tr 6 2) % 2 = 0 ∧ readReg 1 (tr 5 1) < 2 ∧
    readReg 0 (tr 5 4) - 2 < readReg 1 (tr 5 4) ∧
    trial 5 3 (decompose 5).1 (decompose 5).2 = true ∧
    trial 9 7 (decompose 9).1 (decompose 9).2 = false := by decide

/-- MRTEST of this number in flight, with this round count and these words. -/
abbrev mt (n rounds : Nat) (words : List Word) : State :=
  inFlight w32 (.mrtest 0) #v[n, 0, 0, 0, 0, 0, 0, 0] rounds words

/-- MrtestWithoutADraw: each row at its ends. -/
theorem witness_noDraw :
    readReg 0 (mt 0 5 []) ≤ 1 ∧ readReg 0 (mt 1 5 []) ≤ 1 ∧ readReg 0 (mt 2 5 []) = 2 ∧
    readReg 0 (mt 3 5 []) = 3 ∧ (4 ≤ readReg 0 (mt 4 5 []) ∧ readReg 0 (mt 4 5 []) % 2 = 0) ∧
    (5 ≤ readReg 0 (mt 5 0 []) ∧ readReg 0 (mt 5 0 []) % 2 = 1 ∧ (mt 5 0 []).rounds = 0) := by decide

/-- MrtestRunsTrialsInSequence, all pass: 40_primality.md's 561 with ROUNDS = 2 and bases 50 and 101 (M12). -/
theorem witness_allPass :
    5 ≤ readReg 0 (mt 561 2 [48, 99]) ∧ readReg 0 (mt 561 2 [48, 99]) % 2 = 1 ∧
    DrawnBases (readReg 0 (mt 561 2 [48, 99])) [50, 101] (mt 561 2 [48, 99]).entropy [] ∧
    [50, 101].length = (mt 561 2 [48, 99]).rounds.toNat ∧
    (∀ a ∈ [50, 101], PassesTrial (readReg 0 (mt 561 2 [48, 99])) a) := by
  refine ⟨by decide, by decide, ⟨[99], by decide, [], by decide, rfl⟩, rfl, ?_⟩
  simp only [List.mem_cons, List.not_mem_nil, or_false, forall_eq_or_imp, forall_eq]
  exact ⟨⟨35, 4, rfl, rfl, .inr ⟨0, by decide, by decide⟩⟩, ⟨35, 4, rfl, rfl, .inr ⟨0, by decide, by decide⟩⟩⟩

/-- MrtestRunsTrialsInSequence, a failing base: 9 with base 2, whose only decomposition is 8 = 1 · 2^3 (T20). -/
theorem witness_aFails :
    5 ≤ readReg 0 (mt 9 5 [0]) ∧ readReg 0 (mt 9 5 [0]) % 2 = 1 ∧
    DrawnBases (readReg 0 (mt 9 5 [0])) [2] (mt 9 5 [0]).entropy [] ∧ [2] = [] ++ [2] ∧
    [2].length ≤ (mt 9 5 [0]).rounds.toNat ∧ ¬ PassesTrial (readReg 0 (mt 9 5 [0])) 2 := by
  refine ⟨by decide, by decide, ⟨[], by decide, rfl⟩, rfl, by decide, ?_⟩
  rw [show readReg 0 (mt 9 5 [0]) = 9 from by decide]
  rintro ⟨d, s, hd, he, h⟩
  have hs : s < 4 := by
    by_contra hc
    have h1 : 2 ^ 4 ≤ 2 ^ s := Nat.pow_le_pow_right (by decide) (by omega)
    have h2 : 1 * 2 ^ s ≤ d * 2 ^ s := Nat.mul_le_mul_right _ (by omega)
    omega
  have hd8 : d ≤ 8 := by
    have h2 : d * 1 ≤ d * 2 ^ s := Nat.mul_le_mul_left _ Nat.one_le_two_pow
    omega
  interval_cases s <;> interval_cases d <;> first
    | omega
    | (rcases h with h | ⟨i, hi, h⟩
       · exact absurd h (by decide)
       · interval_cases i <;> exact absurd h (by decide))

/-- PrimesAreNeverRejected: the least primes, run to their ends. -/
theorem witness_primes :
    Nat.Prime 2 ∧ Nat.Prime 5 ∧ (5 ≤ 5 ∧ 2 ≤ 2 ∧ 3 ≤ 5 - 2) ∧
    readReg 0 (run32 (.mrtest 0) #v[5, 0, 0, 0, 0, 0, 0, 0] [0, 1, 0, 1, 0]) = 5 ∧
    (run32 (.mrtest 0) #v[5, 0, 0, 0, 0, 0, 0, 0] [0, 1, 0, 1, 0]).status.busy = true ∧
    (nextOf (exec (.mrtest 0) (run32 (.mrtest 0) #v[5, 0, 0, 0, 0, 0, 0, 0] [0, 1, 0, 1, 0]))).map
      (fun t => (t.status.busy, t.trialcnt)) = some (false, 5) := by
  refine ⟨by norm_num, by norm_num, ?_⟩
  decide

/-! ### SAMPLE -/

/-- SampleRangeIsRejectionSampling, SampleRangeProperties, SampleResult: 41_sampler.md R123's second draw, one
attempt rejected and one accepted. -/
theorem witness_attempts :
    RejectedAttempt 2 11 [0xFFFFFFFA] ∧ AcceptedAttempt 2 11 [0] ∧ (2 : Nat) ≤ 11 ∧ 2 < 11 ∧
    sampleRange 2 11 ([[0xFFFFFFFA]].flatten ++ [0] ++ [3]) = some (2, [3]) ∧
    ([] : List Word).length < attemptWords 2 11 := by
  have h : Nat.size (11 - 2) = 4 := by decide
  simp only [RejectedAttempt, AcceptedAttempt, attemptWords, attemptValue, h]
  decide

/-- SampleRangeIsRejectionSampling, SampleResult: the range of one value, an attempt of no word. -/
theorem witness_oneValue :
    AcceptedAttempt 5 5 [] ∧ (5 : Nat) ≤ 5 ∧ sampleRange 5 5 [7] = some (5, [7]) := by
  have h : Nat.size (5 - 5) = 0 := by decide
  simp only [AcceptedAttempt, attemptWords, attemptValue, h]
  decide

/-- EveryDrawHasEquallyManyBlocks: both ends of a range. -/
theorem witness_draw : ((2 : Nat) ≤ 2 ∧ 2 ≤ 11) ∧ ((2 : Nat) ≤ 11 ∧ 11 ≤ 11) := by decide

/-- SAMPLE of this range in flight, with these words. -/
abbrev sm (lo hi : Nat) (words : List Word) : State :=
  run32 (.sample 2 0 1) #v[lo, hi, 0, 0, 0, 0, 0, 0] words

/-- SampleResult: lo above hi; lo = hi; one rejected attempt before the accepted one. -/
theorem witness_sample :
    readReg 1 (sm 7 6 []) < readReg 0 (sm 7 6 []) ∧ readReg 0 (sm 7 7 [9]) ≤ readReg 1 (sm 7 7 [9]) ∧
    (sm 7 7 [9]).entropy = [].flatten ++ [] ++ [9] ∧
    readReg 0 (sm 2 11 [0xFFFFFFFA, 0, 3]) = 2 ∧ readReg 1 (sm 2 11 [0xFFFFFFFA, 0, 3]) = 11 ∧
    (sm 2 11 [0xFFFFFFFA, 0, 3]).entropy = [[0xFFFFFFFA]].flatten ++ [0] ++ [3] := by decide

/-- CommandsWaitForEntropy: SAMPLE without a word, MRTEST after one passing trial without another word. -/
theorem witness_waits :
    (readReg 0 stuck ≤ readReg 1 stuck ∧ ([] : List Word).length < attemptWords 0 10 ∧
      stuck.entropy = [].flatten ++ []) ∧
    (5 ≤ readReg 0 (mt 5 5 [0]) ∧ readReg 0 (mt 5 5 [0]) % 2 = 1 ∧
      DrawnBases (readReg 0 (mt 5 5 [0])) [2] (mt 5 5 [0]).entropy [] ∧ PassesTrial (readReg 0 (mt 5 5 [0])) 2 ∧
      [2].length < (mt 5 5 [0]).rounds.toNat ∧ sampleRange 2 (readReg 0 (mt 5 5 [0]) - 2) [] = none) := by
  have h : Nat.size (10 - 0) = 4 := by decide
  refine ⟨⟨by decide, ?_, by decide⟩, by decide, by decide, ⟨[], by decide, rfl⟩,
    ⟨1, 2, rfl, by decide, .inr ⟨1, by decide, by decide⟩⟩, by decide, by decide⟩
  simp only [attemptWords, h]
  decide

/-! ### Reset and the whole machine -/

/-- ResetForcesTheResetState: an idle block; a command that pops nothing; an illegal word; one that waits with a word
it has popped; one whose completion is enabled and pops one of two words. -/
theorem witness_reset :
    State.reset.status.busy = false ∧
    (decode 0x00000001 = .command (.modexp 0 0 0 0) ∧ popsEntropy (.modexp 0 0 0 0) = false) ∧
    decode 0x00000000 = .illegal .opcode ∧
    (({ stuck with entropy := [11] } : State).status.busy = true ∧
      nextOf (engineStep { stuck with entropy := [11] }) = some { stuck with entropy := [11] } ∧
      nextOf (perform (.reset 1) { stuck with entropy := [11] }) =
        some { State.reset with entropyPos := 1 }) ∧
    (({ stuck with entropy := [3, 4] } : State).status.busy = true ∧
      (nextOf (engineStep { stuck with entropy := [3, 4] })).map (fun t => (t.status.busy, t.entropy)) =
        some (false, [4]) ∧
      nextOf (perform (.reset 9) { stuck with entropy := [3, 4] }) =
        some { State.reset with entropy := [4], entropyPos := 1 }) := by decide

/-- NeverLoadedRegistersHoldZero. -/
theorem witness_neverLoaded :
    w32.Wf ∧ (0 : RegNo) ≠ 1 ∧ (0 : RegNo) ≠ 2 ∧ (1 : RegNo) ≠ 2 := by decide

/-- StepKeepsTheInvariants, TrialsStayWithinRounds, IdAndCfgNeverChange: a state with the premises and a next
state; TRIALCNT at the bound. -/
theorem witness_invariant :
    (run32 (.mrtest 0) #v[5, 0, 0, 0, 0, 0, 0, 0] [0, 1, 0, 1, 0]).Inv ∧
    (run32 (.mrtest 0) #v[5, 0, 0, 0, 0, 0, 0, 0] [0, 1, 0, 1, 0]).TrialsWithinRounds ∧
    ¬ NextWrites (run32 (.mrtest 0) #v[5, 0, 0, 0, 0, 0, 0, 0] [0, 1, 0, 1, 0]) 0x010 ∧
    (nextOf (step (run32 (.mrtest 0) #v[5, 0, 0, 0, 0, 0, 0, 0] [0, 1, 0, 1, 0]))).map
      (fun t => (t.trialcnt, t.rounds, t.status.done)) = some (5, 5, true) := by
  refine ⟨inFlight_inv (by decide) _ 5 _ (by decide), ?_, ?_, by decide⟩
  · rintro ⟨-, h⟩
    cases h
  · rintro ⟨v, rest, h | h, -⟩ <;> cases h

/-- SourcesDoNotChangeUnderACommand: a command that is in flight before and after a step of the host. -/
theorem witness_underACommand :
    ({ stuck with agenda := [.host (.write 0x1000 4 1)] } : State).status.busy = true ∧
    (nextOf (step { stuck with agenda := [.host (.write 0x1000 4 1)] })).map (·.status.busy) = some true := by
  decide

/-- DoneStaysUntilLaunchOrReset: DONE falls by a launch and by a reset. -/
theorem witness_done :
    (completedWith (Vector.replicate 8 0) false false false 0 .reset).status.done = true ∧
    (nextOf (step { completedWith (Vector.replicate 8 0) false false false 0 .reset with
      agenda := [.host (.write 0x008 4 4)] })).map (·.status.done) = some false ∧
    (nextOf (step { completedWith (Vector.replicate 8 0) false false false 0 .reset with
      agenda := [.reset 0] })).map (·.status.done) = some false := by decide

/-- ResultDependsOnSourcesOnly: two states that differ in another register, the stream position and the response. -/
theorem witness_sourcesOnly :
    (∀ k ∈ sources (.sample 2 0 1), readReg k (run32 (.sample 2 0 1) #v[2, 11, 0, 5, 0, 0, 0, 0] [7]) =
      readReg k { run32 (.sample 2 0 1) #v[2, 11, 9, 6, 0, 0, 0, 0] [7] with entropyPos := 3 }) ∧
    (nextOf (exec (.sample 2 0 1) (run32 (.sample 2 0 1) #v[2, 11, 0, 5, 0, 0, 0, 0] [7]))).isSome = true := by
  decide

/-! ### Host sequences -/

/-- What a host program ends with: its value, whether it waits, and the turns left. -/
def resultOf {α : Type} (r : HostResult α) : Option α × Bool × List Bool :=
  match r with
  | .done a t => (some a, false, t.turns)
  | .failed _ t => (none, false, t.turns)
  | .waiting t => (none, true, t.turns)

/-- HostLinesLoadReadBackAndWait: an idle state of the smallest width with the invariants, a value at the top and
one above it; a command that completes, after no and after two reads of BUSY = 1; a command that waits. -/
theorem witness_load :
    (idle32 (Vector.replicate 8 (2 ^ 32 - 1)) []).Inv ∧
    (idle32 (Vector.replicate 8 (2 ^ 32 - 1)) []).status.busy = false ∧ 2 ^ 32 - 1 < 2 ^ w32.width ∧
    2 ^ w32.width ≤ 2 ^ 32 := ⟨idle32_inv [] (by decide), by decide⟩

theorem witness_wait :
    (run32 (.mrtest 0) #v[4, 0, 0, 0, 0, 0, 0, 0] []).Inv ∧
    (nextOf (engineStep (run32 (.mrtest 0) #v[4, 0, 0, 0, 0, 0, 0, 0] []))).map (·.status.busy) = some false ∧
    resultOf (wait ⟨run32 (.mrtest 0) #v[4, 0, 0, 0, 0, 0, 0, 0] [], [true, false]⟩) =
      (some 0x00000002, false, [false]) ∧
    resultOf (wait ⟨run32 (.mrtest 0) #v[4, 0, 0, 0, 0, 0, 0, 0] [], [false, false, true]⟩) =
      (some 0x00000002, false, []) ∧
    (run32 (.mrtest 0) #v[5, 0, 0, 0, 0, 0, 0, 0] []).Inv ∧
    (nextOf (engineStep (run32 (.mrtest 0) #v[5, 0, 0, 0, 0, 0, 0, 0] []))).map (·.status.busy) = some true ∧
    resultOf (wait ⟨run32 (.mrtest 0) #v[5, 0, 0, 0, 0, 0, 0, 0] [], [false, true, false]⟩) = (none, true, []) :=
  ⟨inFlight_inv (by decide) _ 5 _ (by decide), by decide, by decide, by decide,
    inFlight_inv (by decide) _ 5 _ (by decide), by decide, by decide⟩

/-- Bytes as their own text. -/
def bytesText : TextEncoding (List Byte) := ⟨id, some, fun _ => rfl⟩

/-- EncryptThenDecryptGivesTheTextBack: the key 3, 7 modulo 33, the boundary message n - 1; and numbers that do not
fit. -/
theorem witness_encrypt :
    (idle32 (Vector.replicate 8 0) []).Inv ∧ (idle32 (Vector.replicate 8 0) []).status.busy = false ∧
    Nat.Prime 3 ∧ Nat.Prime 11 ∧ (3 : Nat) ≠ 11 ∧ 3 * 11 < 2 ^ w32.width ∧ 3 < 2 ^ w32.width ∧
    7 < 2 ^ w32.width ∧ 7 * 3 % ((3 - 1) * (11 - 1)) = 1 % ((3 - 1) * (11 - 1)) ∧
    bytesToInt (bytesText.encode [32]) < 3 * 11 ∧ (bytesText.encode [32]).head? ≠ some 0 ∧
    (∃ V ∈ [bytesToInt (bytesText.encode [32]), 3, 2 ^ 32], 2 ^ w32.width ≤ V) ∧
    (∃ V ∈ [5, 2 ^ 32, 33], 2 ^ w32.width ≤ V) :=
  ⟨idle32_inv [] (by decide), rfl, by norm_num, by norm_num, by decide⟩

/-- GenPrimeReturnsAnAcceptedCandidate: GENPRIME(2) returns 3 (44_host_sequences.md R163), whenever the engine
completes. GenPrimeIsNotCapped: GENPRIME(1) never ends, GENPRIME(2) waits without a word; no candidate, a width
above W and another ROUNDS. The state meets the invariants by `idle32_inv`. -/
theorem witness_genPrime :
    resultOf (genPrime 2 ⟨idle32 (Vector.replicate 8 0) [0], []⟩) = (some 3, false, []) ∧
    resultOf (genPrime 2 ⟨idle32 (Vector.replicate 8 0) [0], List.replicate 4 false⟩) = (some 3, false, []) ∧
    resultOf (genPrime 1 ⟨idle32 (Vector.replicate 8 0) [0, 1], []⟩) = (none, true, []) ∧
    resultOf (genPrime 2 ⟨idle32 (Vector.replicate 8 0) [], []⟩) = (none, true, []) ∧
    (idle32 (Vector.replicate 8 0) []).rounds = 5 ∧ 2 ≤ w32.width ∧
    genPrime 0 ⟨idle32 (Vector.replicate 8 0) [], []⟩ = .failed .domain ⟨idle32 (Vector.replicate 8 0) [], []⟩ ∧
    genPrime 33 ⟨idle32 (Vector.replicate 8 0) [], []⟩ = .failed .tooWide ⟨idle32 (Vector.replicate 8 0) [], []⟩ ∧
    genPrime 2 ⟨{ idle32 (Vector.replicate 8 0) [] with rounds := 4 }, []⟩ =
      .failed .domain ⟨{ idle32 (Vector.replicate 8 0) [] with rounds := 4 }, []⟩ := by decide +kernel

/-- KeyGenReturnsAValidKeyPair: KEYGEN(4) (95_test_vectors.md P7); its domain's edges. -/
theorem witness_keyGen :
    resultOf (keyGen 4 ⟨idle32 (Vector.replicate 8 0) [0, 1], []⟩) = (some ⟨⟨65537, 9⟩, ⟨1, 9⟩⟩, false, []) ∧
    keyGen 3 ⟨idle32 (Vector.replicate 8 0) [], []⟩ = .failed .domain ⟨idle32 (Vector.replicate 8 0) [], []⟩ ∧
    keyGen 33 ⟨idle32 (Vector.replicate 8 0) [], []⟩ = .failed .domain ⟨idle32 (Vector.replicate 8 0) [], []⟩ := by
  decide +kernel

/-- A host program whose last line loads a value that does not fit makes no access at all
(93_implementation_defined.md Z20); one that reads STATUS right after a launch can find the command completed. -/
theorem test_hostProgram :
    runProgram [.setRounds 3, .ldi 0 (2 ^ 32)] ⟨idle32 (Vector.replicate 8 0) [], []⟩ =
      .failed .tooWide ⟨idle32 (Vector.replicate 8 0) [], []⟩ ∧
    resultOf (runProgram [.command (.mrtest 0), .rd 0x00C] ⟨idle32 (Vector.replicate 8 0) [], []⟩) =
      (some [0, 2], false, []) ∧
    resultOf (runProgram [.command (.mrtest 0), .rd 0x00C] ⟨idle32 (Vector.replicate 8 0) [], [false, false]⟩) =
      (some [0, 1], false, []) := by decide +kernel

end Sys2Proof.Tests
end

section
/-! The state of the block (10_state.md): what a command in flight keeps, what the control registers read, and the
values after reset. -/

namespace Sys2Proof.Machine

/-! ### A command in flight (10_state.md R22) -/

/-- While a command is in flight no bus access changes the block (20_memory.md R55). -/
theorem accessEffect_of_busy (a : Access) {s : State} (hb : s.status.busy = true) : accessEffect a s = s := by
  rcases accessEffect_cases a s with h | ⟨hidle, -⟩
  · exact h
  · rw [hb] at hidle
    cases hidle

/-- An agent's step that leaves the command in flight keeps its operands, its word and ROUNDS. -/
theorem perform_stillBusy_keeps {e : Event} {s t : State} (hs : s.status.busy = true)
    (h : perform e s = .next t) (ht : t.status.busy = true) :
    t.x = s.x ∧ t.cmd = s.cmd ∧ t.rounds = s.rounds := by
  rcases perform_cases h with ⟨-, he⟩ | ⟨a, -, rfl⟩ | ⟨w, -, rfl⟩ | ⟨lost, -, rfl⟩
  · rw [engineStep_stillBusy he ht]
    exact ⟨rfl, rfl, rfl⟩
  · simp [accessEffect_of_busy a hs]
  · simp
  · cases ht

/-- Settles O52: whichever agent moves next, it leaves these registers alone or ends the flight. -/
theorem sourcesDoNotChangeUnderACommand : Obligations.SourcesDoNotChangeUnderACommand := by
  intro s t hs h ht
  rcases step_cases s with ⟨-, hstep⟩ | ⟨e, rest, -, hstep⟩ <;> rw [hstep] at h
  · rw [engineStep_stillBusy h ht]
    exact ⟨rfl, rfl, rfl⟩
  · exact perform_stillBusy_keeps (s := { s with agenda := rest }) hs h ht

/-! ### The control registers (10_state.md R27 to R32) -/

/-- A word read of a target the block lets be read answers its word (20_memory.md R50). -/
theorem memRead_of_target {addr : Nat} {t : Target} {s : State} (ht : targetAt s.config addr = some t)
    (hr : mayRead t s = true) : memRead addr 4 s = .okData (readTarget t s) := by
  simp [memRead, ht, hr]

/-- A write to a target that may not be written is refused without a change, whatever its size
(20_memory.md R51). -/
theorem memWrite_of_not_mayWrite {addr : Nat} {t : Target} {s : State} (ht : targetAt s.config addr = some t)
    (hw : mayWrite t s = false) (n : Nat) (v : Word) : memWrite addr n v s = (.err, s) := by
  simp [memWrite, ht, hw]

/-- CFG is LIMBS as a word: in range, LIMBS fits the field of 8 bits (10_state.md R28). -/
theorem cfgWord_eq_ofNat {c : Config} (hc : c.Wf) : cfgWord c = BitVec.ofNat 32 c.limbs := by
  obtain ⟨-, hmax⟩ := hc
  apply BitVec.eq_of_toNat_eq
  simp only [cfgWord, zext, BitVec.toNat_setWidth, BitVec.toNat_ofNat]
  omega

/-- In range, the number CFG reads as is LIMBS (10_state.md R28). -/
theorem cfgWord_toNat {c : Config} (hc : c.Wf) : (cfgWord c).toNat = c.limbs := by
  rw [cfgWord_eq_ofNat hc, BitVec.toNat_ofNat]
  obtain ⟨-, hmax⟩ := hc
  omega

/-- ID reads "RSA1" in every state (10_state.md R27). -/
theorem memRead_id (s : State) : memRead 0x000 4 s = .okData 0x52534131 :=
  memRead_of_target (t := .id) rfl rfl

/-- CFG reads its word in every state (10_state.md R28). -/
theorem memRead_cfg (s : State) : memRead 0x004 4 s = .okData (cfgWord s.config) :=
  memRead_of_target (t := .cfg) rfl rfl

/-- Settles O11: the target of each control register, readable at any time; four of them never writable. -/
theorem controlRegistersRead : Obligations.ControlRegistersRead := by
  intro s
  refine ⟨memRead_id s, fun hc => ⟨_, memRead_cfg s, cfgWord_toNat hc⟩, ?cmd, ?status, ?rounds, ?trialcnt,
    fun n v => ⟨?idWrite, ?cfgWrite, ?statusWrite, ?trialcntWrite⟩⟩
  case cmd => exact memRead_of_target (t := .cmd) rfl rfl
  case status => exact memRead_of_target (t := .status) rfl rfl
  case rounds => exact memRead_of_target (t := .rounds) rfl rfl
  case trialcnt => exact memRead_of_target (t := .trialcnt) rfl rfl
  case idWrite => exact memWrite_of_not_mayWrite (t := .id) rfl rfl n v
  case cfgWrite => exact memWrite_of_not_mayWrite (t := .cfg) rfl rfl n v
  case statusWrite => exact memWrite_of_not_mayWrite (t := .status) rfl rfl n v
  case trialcntWrite => exact memWrite_of_not_mayWrite (t := .trialcnt) rfl rfl n v

/-! ### Reset (10_state.md R36) -/

/-- A cleared STATUS reads 0. -/
theorem statusWord_clear : statusWord Status.clear = 0 := by decide

/-- The reset values hold whatever stream the environment supplies and whatever steps are still to come. -/
theorem hasResetValues_resetOf_with (c : Config) (ws : List Word) (pos : Nat) (es : List Event) :
    HasResetValues { State.resetOf c with entropy := ws, entropyPos := pos, agenda := es } where
  regs_zero k := readReg_resetOf k c
  cmd_zero := rfl
  status_zero := statusWord_clear
  not_in_flight := rfl
  rounds_five := rfl
  trialcnt_zero := rfl
  id_reads := memRead_id _
  cfg_reads hc := by rw [memRead_cfg, cfgWord_eq_ofNat hc]

/-- Reset leaves the reset state, with the stream going on after the words already popped
(70_reset_and_hazards.md R200, R201). -/
theorem resetStep_eq_resetOf_with (lost : Nat) (s : State) :
    ∃ n, resetStep lost s = { State.resetOf s.config with
      entropy := s.entropy.drop n, entropyPos := s.entropyPos + n, agenda := s.agenda } := ⟨_, rfl⟩

/-- Settles O45: both states are the reset state up to the environment's stream and agenda. -/
theorem resetValues : Obligations.ResetValues := by
  refine ⟨fun c => hasResetValues_resetOf_with c [] 0 [], fun lost s rest => ?_⟩
  obtain ⟨n, hn⟩ := resetStep_eq_resetOf_with lost { s with agenda := rest }
  exact ⟨_, n, congrArg Host.Outcome.next hn, hasResetValues_resetOf_with .., rfl, rfl, rfl⟩

end Sys2Proof.Machine
end

section
/-! The operand window (20_memory.md): an operand register as the sum of its limbs, and what BUSY = 1 refuses. -/

namespace Sys2Proof.Machine

/-! ### Limbs (20_memory.md R53) -/

/-- The low `n` limbs of a value, each at its place, sum to the value's low `32 n` bits. -/
theorem sum_limbs_eq_mod (v n : Nat) :
    ((List.range n).map fun i => v / 2 ^ (32 * i) % 2 ^ 32 * 2 ^ (32 * i)).sum = v % 2 ^ (32 * n) := by
  induction n with
  | zero => simp [Nat.mod_one]
  | succ n ih =>
    have hpow : 2 ^ (32 * (n + 1)) = 2 ^ (32 * n) * 2 ^ 32 := by rw [← Nat.pow_add, Nat.mul_succ]
    rw [List.sum_range_succ, ih, hpow, Nat.mod_mul, Nat.mul_comm (2 ^ (32 * n))]

/-- On an idle block a read of limb `i` of `x[k]` answers that limb. -/
theorem memRead_limbAddr {s : State} (hc : s.config.Wf) {i : Nat} (hi : i < s.config.limbs)
    (hidle : s.status.busy = false) (k : RegNo) :
    memRead (limbAddr k i) 4 s = .okData (limbOf (readReg k s) i) :=
  memRead_of_target (targetAt_limbAddr hc hi k) (by simp [mayRead, hidle])

/-- Settles O13: a register that fits is its low LIMBS limbs, and each of them reads at its address. -/
theorem operandReadsReturnTheLimbs : Obligations.OperandReadsReturnTheLimbs := by
  intro s k hc hfit
  refine ⟨?sum, fun i hi hidle => ⟨_, memRead_limbAddr hc hi hidle k, limbOf_toNat _ i⟩⟩
  case sum => exact ((sum_limbs_eq_mod _ _).trans (Nat.mod_eq_of_lt hfit)).symm

/-! ### What BUSY = 1 refuses (20_memory.md R55) -/

/-- The operand window holds nothing but limbs (20_memory.md R52). -/
theorem targetAt_eq_limb_of_window {c : Config} {addr : Nat} {t : Target} (hw : InOperandWindow addr)
    (ht : targetAt c addr = some t) : ∃ k i, t = .limb k i := by
  obtain ⟨hlow, -⟩ := hw
  rcases targetAt_cases ht with ⟨-, h⟩ | ⟨-, h⟩ | ⟨-, h⟩ | ⟨-, h⟩ | ⟨-, h⟩ | ⟨-, h⟩ | ⟨k, i, h, -⟩
  any_goals omega
  exact ⟨k, i, h⟩

/-- While BUSY = 1 a read of the operand window is refused. -/
theorem memRead_window_of_busy {s : State} {addr : Nat} (hb : s.status.busy = true) (hw : InOperandWindow addr)
    (n : Nat) : memRead addr n s = .err := by
  rcases memRead_cases addr n s with h | ⟨t, ht, -, hr, -⟩
  · exact h
  · obtain ⟨k, i, rfl⟩ := targetAt_eq_limb_of_window hw ht
    simp [mayRead, hb] at hr

/-- While BUSY = 1 every write is refused without a change, whatever its offset. -/
theorem memWrite_of_busy {s : State} (hb : s.status.busy = true) (addr n : Nat) (v : Word) :
    memWrite addr n v s = (.err, s) := by
  rcases memWrite_cases addr n v s with h | ⟨t, -, -, hw, -⟩
  · exact h
  · cases t <;> simp [mayWrite, hb] at hw

/-- Settles O15: BUSY = 1 refuses every write and every limb read; the control registers do not ask BUSY. -/
theorem busyBlockRefusesAndKeepsItsState : Obligations.BusyBlockRefusesAndKeepsItsState := by
  intro s
  refine ⟨fun hb => ⟨fun addr n hw => ⟨memRead_window_of_busy hb hw n, memWrite_of_busy hb addr n⟩,
    fun n v => ⟨memWrite_of_busy hb _ n v, memWrite_of_busy hb _ n v⟩⟩, ?reads⟩
  case reads =>
    obtain ⟨hid, -, hcmd, hstatus, hrounds, htrialcnt, -⟩ := controlRegistersRead s
    simp [hid, memRead_cfg, hcmd, hstatus, hrounds, htrialcnt]

end Sys2Proof.Machine
end

section
/-! The command word (30_encoding.md): what selects a row of the format table, in bits and in masks; which words are
illegal; and the launch, a write to CMD. -/

namespace Sys2Proof.Machine

/-! ### Bit fields of a word (30_encoding.md R70) -/

/-- The decoder's field and the claims' field are one function. -/
theorem wordField_eq_bitsAt (w : Word) (lo len : Nat) : wordField w lo len = bitsAt w lo len := rfl

/-- A register field names the register of its three bits (30_encoding.md R72). -/
theorem regField_eq_iff {w : Word} {lo : Nat} {k : RegNo} : regField w lo = k ↔ bitsAt w lo 3 = k.val := by
  rw [Fin.ext_iff, regField_val]

/-- A field of no bits is 0. -/
theorem bitsAt_length_zero (w : Word) (lo : Nat) : bitsAt w lo 0 = 0 := Nat.mod_one _

/-- Two fields side by side make up the field that covers both. -/
theorem bitsAt_add (w : Word) (lo m n : Nat) :
    bitsAt w lo (m + n) = bitsAt w lo m + 2 ^ m * bitsAt w (lo + m) n := by
  simp only [bitsAt, Nat.pow_add, Nat.mod_mul, Nat.div_div_eq_div_mul]

/-- A field is 0 exactly when both its parts are. -/
theorem bitsAt_add_eq_zero (w : Word) (lo m n : Nat) :
    bitsAt w lo (m + n) = 0 ↔ bitsAt w lo m = 0 ∧ bitsAt w (lo + m) n = 0 := by
  simp [bitsAt_add]

/-- The low byte is the opcode and the register field above it is 0, read as one field of 11 bits. -/
theorem bitsAt_low_eleven_eq_iff {w : Word} {op : Nat} (hop : op < 2 ^ 8) :
    bitsAt w 0 11 = op ↔ bitsAt w 0 8 = op ∧ bitsAt w 8 3 = 0 := by
  have hlow : bitsAt w 0 8 < 2 ^ 8 := Nat.mod_lt _ (by decide)
  have hsum : bitsAt w 0 11 = bitsAt w 0 8 + 2 ^ 8 * bitsAt w 8 3 := bitsAt_add w 0 8 3
  omega

/-! ### Masks (30_encoding.md R71) -/

/-- A mask with the bits below `k` and those from `hi` up set keeps these two parts of a number. -/
theorem and_mask_eq_add {n k hi : Nat} (hk : k ≤ hi) (hhi : hi ≤ 32) (hn : n < 2 ^ 32) :
    n &&& (2 ^ hi * (2 ^ (32 - hi) - 1) + (2 ^ k - 1)) = 2 ^ hi * (n / 2 ^ hi) + n % 2 ^ k := by
  have hpow : 2 ^ k ≤ 2 ^ hi := Nat.pow_le_pow_right (by decide) hk
  have hmask : 2 ^ k - 1 < 2 ^ hi := by have := Nat.two_pow_pos k; omega
  have hlow : n % 2 ^ k < 2 ^ hi := (Nat.mod_lt n (Nat.two_pow_pos k)).trans_le hpow
  refine Nat.eq_of_testBit_eq fun j => ?_
  rw [Nat.testBit_and, Nat.testBit_two_pow_mul_add _ hmask, Nat.testBit_two_pow_mul_add _ hlow]
  by_cases hj : j < hi
  · simp [hj, Bool.and_comm]
  · have hbit : n.testBit j = true → j < 32 := fun h => by
      by_contra hge
      rw [Nat.testBit_lt_two_pow (hn.trans_le (Nat.pow_le_pow_right (by decide) (not_lt.1 hge)))] at h
      cases h
    have hadd : j - hi + hi = j := by omega
    simp only [hj, if_false, Nat.testBit_two_pow_sub_one, Nat.testBit_div_two_pow, hadd]
    cases h : n.testBit j with
    | false => rfl
    | true => simpa using (by have := hbit h; omega : j - hi < 32 - hi)

/-- `(w AND mask) = match` says that the reserved field is 0, the low part is `match`, and the unused fields from
`hi` up are 0. -/
theorem and_mask_eq_match_iff {w mask matchWord : Word} (k hi : Nat) (hk : k ≤ hi) (hhi : hi ≤ 23)
    (hmask : mask.toNat = 2 ^ hi * (2 ^ (32 - hi) - 1) + (2 ^ k - 1)) (hmatch : matchWord.toNat < 2 ^ k) :
    w &&& mask = matchWord ↔ bitsAt w 23 9 = 0 ∧ bitsAt w 0 k = matchWord.toNat ∧ bitsAt w hi (23 - hi) = 0 := by
  have hpow : 2 ^ k ≤ 2 ^ hi := Nat.pow_le_pow_right (by decide) hk
  have hlow : bitsAt w 0 k = w.toNat % 2 ^ k := by simp [bitsAt]
  have hhigh : bitsAt w hi (32 - hi) = w.toNat / 2 ^ hi := by
    refine Nat.mod_eq_of_lt (Nat.div_lt_of_lt_mul ?_)
    rw [← Nat.pow_add, Nat.add_sub_cancel' (by omega)]
    exact w.isLt
  have hsplit : bitsAt w hi (32 - hi) = 0 ↔ bitsAt w 23 9 = 0 ∧ bitsAt w hi (23 - hi) = 0 := by
    have h := bitsAt_add_eq_zero w hi (23 - hi) 9
    rwa [show 23 - hi + 9 = 32 - hi by omega, Nat.add_sub_cancel' hhi, and_comm] at h
  rw [← BitVec.toNat_inj, BitVec.toNat_and, hmask, and_mask_eq_add hk (by omega) w.isLt, ← hhigh, ← hlow,
    and_left_comm, ← hsplit]
  rcases Nat.eq_zero_or_pos (bitsAt w hi (32 - hi)) with hzero | hpos
  · simp [hzero]
  · have hge : 2 ^ hi ≤ 2 ^ hi * bitsAt w hi (32 - hi) := Nat.le_mul_of_pos_right _ hpos
    omega

/-! ### The rows of the format table (30_encoding.md R71, R74) -/

/-- The word is of this command's row: every bit the format does not use is 0, the opcode and the operands stand in
their fields, and EGCD's destinations are pairwise different (30_encoding.md R71, R74 c). -/
def SelectsRow (w : Word) (i : Instr) : Prop :=
  bitsAt w 23 9 = 0 ∧
  match i with
  | .modexp rd rb re rm => bitsAt w 0 8 = 0x01 ∧ bitsAt w 20 3 = 0 ∧
      regField w 8 = rd ∧ regField w 11 = rb ∧ regField w 14 = re ∧ regField w 17 = rm
  | .egcd rg rx ry ra rb => bitsAt w 0 8 = 0x02 ∧ (rg ≠ rx ∧ rg ≠ ry ∧ rx ≠ ry) ∧
      regField w 8 = rg ∧ regField w 11 = rx ∧ regField w 14 = ry ∧ regField w 17 = ra ∧ regField w 20 = rb
  | .modinv rd ra rm => bitsAt w 0 8 = 0x03 ∧ bitsAt w 17 6 = 0 ∧
      regField w 8 = rd ∧ regField w 11 = ra ∧ regField w 14 = rm
  | .mrtest rn => bitsAt w 0 8 = 0x04 ∧ bitsAt w 8 3 = 0 ∧ bitsAt w 14 9 = 0 ∧ regField w 11 = rn
  | .mrtrial rn ra => bitsAt w 0 8 = 0x05 ∧ bitsAt w 8 3 = 0 ∧ bitsAt w 17 6 = 0 ∧
      regField w 11 = rn ∧ regField w 14 = ra
  | .sample rd rlo rhi => bitsAt w 0 8 = 0x06 ∧ bitsAt w 17 6 = 0 ∧
      regField w 8 = rd ∧ regField w 11 = rlo ∧ regField w 14 = rhi

/-- The check on EGCD's destinations as a proposition (30_encoding.md R74 c). -/
theorem distinctDests_iff {rg rx ry : RegNo} : distinctDests rg rx ry = true ↔ rg ≠ rx ∧ rg ≠ ry ∧ rx ≠ ry := by
  simp [distinctDests, and_assoc]

/-- Fields f3 and f4 are 0 as one field of 6 bits. -/
theorem bitsAt_seventeen_eq_zero_iff {w : Word} :
    bitsAt w 17 6 = 0 ↔ bitsAt w 17 3 = 0 ∧ bitsAt w 20 3 = 0 := bitsAt_add_eq_zero w 17 3 3

/-- Fields f2 to f4 are 0 as one field of 9 bits. -/
theorem bitsAt_fourteen_eq_zero_iff {w : Word} :
    bitsAt w 14 9 = 0 ↔ bitsAt w 14 3 = 0 ∧ bitsAt w 17 3 = 0 ∧ bitsAt w 20 3 = 0 :=
  (bitsAt_add_eq_zero w 14 3 6).trans (and_congr_right' bitsAt_seventeen_eq_zero_iff)

/-- What decodes to a command is a word of the command's row. -/
theorem selectsRow_of_decode {w : Word} {i : Instr} (h : decode w = .command i) : SelectsRow w i := by
  obtain ⟨hreserved, hrow⟩ := decode_command_cases h
  refine ⟨hreserved, ?_⟩
  rcases hrow with ⟨hop, hf4, rfl⟩ | ⟨hop, hdests, rfl⟩ | ⟨hop, hf34, rfl⟩ | ⟨hop, ⟨hf0, hf234⟩, rfl⟩ |
    ⟨hop, ⟨hf0, hf34⟩, rfl⟩ | ⟨hop, hf34, rfl⟩
  · exact ⟨hop, hf4, rfl, rfl, rfl, rfl⟩
  · exact ⟨hop, distinctDests_iff.1 hdests, rfl, rfl, rfl, rfl, rfl⟩
  · exact ⟨hop, bitsAt_seventeen_eq_zero_iff.2 hf34, rfl, rfl, rfl⟩
  · exact ⟨hop, hf0, bitsAt_fourteen_eq_zero_iff.2 hf234, rfl⟩
  · exact ⟨hop, hf0, bitsAt_seventeen_eq_zero_iff.2 hf34, rfl, rfl⟩
  · exact ⟨hop, bitsAt_seventeen_eq_zero_iff.2 hf34, rfl, rfl, rfl⟩

/-- The decoder answers the command of the word's row. -/
theorem decode_of_selectsRow {w : Word} {i : Instr} (h : SelectsRow w i) : decode w = .command i := by
  obtain ⟨hreserved, hrow⟩ := h
  cases i with
  | modexp rd rb re rm =>
    obtain ⟨hop, hf4, rfl, rfl, rfl, rfl⟩ := hrow
    simp [decode, wordField_eq_bitsAt, regField_eq_iff, hreserved, hop, hf4]
  | egcd rg rx ry ra rb =>
    obtain ⟨hop, hdests, rfl, rfl, rfl, rfl, rfl⟩ := hrow
    simp [decode, wordField_eq_bitsAt, hreserved, hop, distinctDests_iff.2 hdests]
  | modinv rd ra rm =>
    obtain ⟨hop, hf34, rfl, rfl, rfl⟩ := hrow
    simp [decode, wordField_eq_bitsAt, regField_eq_iff, hreserved, hop, bitsAt_seventeen_eq_zero_iff.1 hf34]
  | mrtest rn =>
    obtain ⟨hop, hf0, hf234, rfl⟩ := hrow
    simp [decode, wordField_eq_bitsAt, regField_eq_iff, hreserved, hop, hf0, bitsAt_fourteen_eq_zero_iff.1 hf234]
  | mrtrial rn ra =>
    obtain ⟨hop, hf0, hf34, rfl, rfl⟩ := hrow
    simp [decode, wordField_eq_bitsAt, regField_eq_iff, hreserved, hop, hf0, bitsAt_seventeen_eq_zero_iff.1 hf34]
  | sample rd rlo rhi =>
    obtain ⟨hop, hf34, rfl, rfl, rfl⟩ := hrow
    simp [decode, wordField_eq_bitsAt, regField_eq_iff, hreserved, hop, bitsAt_seventeen_eq_zero_iff.1 hf34]

/-- The decoder answers exactly the commands whose row the word is (30_encoding.md R71). -/
theorem decode_eq_command_iff {w : Word} {i : Instr} : decode w = .command i ↔ SelectsRow w i :=
  ⟨selectsRow_of_decode, decode_of_selectsRow⟩

/-- Settles O3: each row's mask covers the reserved field, the opcode and the unused fields, and nothing else. -/
theorem decodeSelectsByMaskAndMatch : Obligations.DecodeSelectsByMaskAndMatch := by
  intro w a b c d e
  simp only [decode_eq_command_iff, SelectsRow, regField_eq_iff]
  refine ⟨?modexp, ?egcd, ?modinv, ?mrtest, ?mrtrial, ?sample⟩
  case modexp =>
    rw [and_mask_eq_match_iff 8 20 (by decide) (by decide) (by decide) (by decide)]
    simp [and_assoc]
  case egcd =>
    rw [and_mask_eq_match_iff 8 23 (by decide) (by decide) (by decide) (by decide)]
    simp [and_assoc, bitsAt_length_zero]
  case modinv =>
    rw [and_mask_eq_match_iff 8 17 (by decide) (by decide) (by decide) (by decide)]
    simp [and_assoc]
  case mrtest =>
    rw [and_mask_eq_match_iff 11 14 (by decide) (by decide) (by decide) (by decide),
      bitsAt_low_eleven_eq_iff (by decide)]
    simp [and_assoc]
  case mrtrial =>
    rw [and_mask_eq_match_iff 11 17 (by decide) (by decide) (by decide) (by decide),
      bitsAt_low_eleven_eq_iff (by decide)]
    simp [and_assoc]
  case sample =>
    rw [and_mask_eq_match_iff 8 17 (by decide) (by decide) (by decide) (by decide)]
    simp [and_assoc]

/-! ### Illegal words (30_encoding.md R74) -/

/-- A word is of some command's row exactly when it is not illegal: its opcode picks the row, and what the row then
asks is what clauses (b) and (c) deny (30_encoding.md R74). -/
theorem exists_selectsRow_iff (w : Word) : (∃ i, SelectsRow w i) ↔ ¬ IllegalWord w := by
  constructor
  · rintro ⟨i, hreserved, hrow⟩
    simp only [IllegalWord, UsesUnusedField]
    cases i with
    | egcd rg rx ry ra rb =>
      simp only [← regField_val]
      obtain ⟨hop, hdests, rfl, rfl, rfl, -, -⟩ := hrow
      simp only [ne_eq, Fin.ext_iff] at hdests
      omega
    | _ => omega
  · intro h
    simp only [IllegalWord, UsesUnusedField] at h
    have hreserved : bitsAt w 23 9 = 0 := by omega
    have hopcode : bitsAt w 0 8 = 1 ∨ bitsAt w 0 8 = 2 ∨ bitsAt w 0 8 = 3 ∨ bitsAt w 0 8 = 4 ∨
        bitsAt w 0 8 = 5 ∨ bitsAt w 0 8 = 6 := by omega
    rcases hopcode with hop | hop | hop | hop | hop | hop
    · exact ⟨.modexp (regField w 8) (regField w 11) (regField w 14) (regField w 17),
        hreserved, hop, by omega, rfl, rfl, rfl, rfl⟩
    · refine ⟨.egcd (regField w 8) (regField w 11) (regField w 14) (regField w 17) (regField w 20),
        hreserved, hop, ?_, rfl, rfl, rfl, rfl, rfl⟩
      simp only [ne_eq, Fin.ext_iff, regField_val]
      omega
    · exact ⟨.modinv (regField w 8) (regField w 11) (regField w 14), hreserved, hop, by omega, rfl, rfl, rfl⟩
    · exact ⟨.mrtest (regField w 11), hreserved, hop, by omega, by omega, rfl⟩
    · exact ⟨.mrtrial (regField w 11) (regField w 14), hreserved, hop, by omega, by omega, rfl, rfl⟩
    · exact ⟨.sample (regField w 8) (regField w 11) (regField w 14), hreserved, hop, by omega, rfl, rfl, rfl⟩

/-- The decoder answers a command exactly on the words that are not illegal. -/
theorem exists_decode_command_iff (w : Word) : (∃ i, decode w = .command i) ↔ ¬ IllegalWord w := by
  simp only [decode_eq_command_iff, exists_selectsRow_iff]

/-- An illegal word in flight completes with E_ILLEGAL (30_encoding.md R76). -/
theorem engineStep_of_illegalWord {s : State} (hbusy : s.status.busy = true) (hw : IllegalWord s.cmd) :
    engineStep s = .next (failedWith 1 s) := by
  rcases engineStep_cases s with ⟨hidle, -⟩ | ⟨-, i, hfetch, -⟩ | ⟨-, why, -, hstep⟩
  · rw [hbusy] at hidle
    cases hidle
  · exact absurd hw ((exists_decode_command_iff s.cmd).1 ⟨i, hfetch⟩)
  · exact hstep

/-! ### The launch (30_encoding.md R75) -/

/-- A word write to a target the block lets be written is performed (20_memory.md R51). -/
theorem memWrite_of_target {addr : Nat} {t : Target} {s : State} (ht : targetAt s.config addr = some t)
    (hw : mayWrite t s = true) (v : Word) : memWrite addr 4 v s = (.ok, writeTarget t v s) := by
  simp [memWrite, ht, hw]

/-- On an idle block a write to CMD is the launch, whatever the word. -/
theorem memWrite_cmd_of_idle {s : State} (hidle : s.status.busy = false) (v : Word) :
    memWrite 0x008 4 v s = (.ok, launch v s) :=
  memWrite_of_target (t := .cmd) rfl (by simp [mayWrite, hidle]) v

/-- Settles O18: idle, the write is the launch, whose fields are these; in flight, every write is refused. -/
theorem launchIsOneWriteToCmd : Obligations.LaunchIsOneWriteToCmd := fun _ v =>
  ⟨fun hidle => memWrite_cmd_of_idle hidle v, fun hbusy => memWrite_of_busy hbusy 0x008 4 v⟩

/-- Settles O4: the launch does not look at the word, and the completion asks only whether it decodes. -/
theorem illegalWordsLaunchAndFail : Obligations.IllegalWordsLaunchAndFail := by
  refine fun w => ⟨fun hw => ⟨fun s hidle => memWrite_cmd_of_idle hidle w, ?completion⟩,
    (exists_decode_command_iff w).2⟩
  case completion =>
    rintro s hbusy rfl
    exact engineStep_of_illegalWord hbusy hw

end Sys2Proof.Machine
end

section
/-! The primality family (40_primality.md): the decomposition of `n - 1`, and the rows of MRTEST's table that draw
no base. -/

namespace Sys2Proof.Machine

/-! ### Decompose (40_primality.md R101) -/

/-- From an odd number times a power of two the halving ends at the odd number and has counted the exponent, where
the fuel covers the exponent. -/
theorem halveWhileEven_odd_mul_two_pow {d : Nat} (hd : d % 2 = 1) {k fuel : Nat} (hk : k ≤ fuel) (s : Nat) :
    halveWhileEven fuel (d * 2 ^ k) s = (d, s + k) := by
  induction k generalizing fuel s with
  | zero => cases fuel <;> simp [halveWhileEven, hd]
  | succ k ih =>
    obtain ⟨fuel, rfl⟩ : ∃ m, fuel = m + 1 := ⟨fuel - 1, by omega⟩
    have hpow : d * 2 ^ (k + 1) = 2 * (d * 2 ^ k) := by ring
    have heven : 2 * (d * 2 ^ k) % 2 = 0 := Nat.mul_mod_right 2 _
    have hhalf : 2 * (d * 2 ^ k) / 2 = d * 2 ^ k := Nat.mul_div_cancel_left _ (by decide)
    rw [hpow, halveWhileEven, if_pos heven, hhalf, ih (by omega)]
    congr 1
    omega

/-- Whatever pair has the product and an odd `d` is the one `Decompose` answers: its exponent is below `n - 1`, the
fuel. -/
theorem decompose_eq {n d s : Nat} (hd : d % 2 = 1) (hn : n - 1 = d * 2 ^ s) : decompose n = (d, s) := by
  have hfuel : s ≤ d * 2 ^ s := Nat.lt_two_pow_self.le.trans (Nat.le_mul_of_pos_left _ (by omega))
  rw [decompose, hn, halveWhileEven_odd_mul_two_pow hd hfuel, Nat.zero_add]

/-- Settles O34: every positive number is an odd one times a power of two, and `Decompose` answers any such pair. -/
theorem decomposeIsTheOnlyDecomposition : Obligations.DecomposeIsTheOnlyDecomposition := by
  intro n h5 hodd
  obtain ⟨s, d, hd, hn⟩ := Nat.exists_eq_two_pow_mul_odd (n := n - 1) (by omega)
  have hd' : d % 2 = 1 := Nat.odd_iff.1 hd
  rw [Nat.mul_comm] at hn
  have hs : s ≠ 0 := by
    rintro rfl
    omega
  rw [decompose_eq hd' hn]
  exact ⟨hd', hn, Nat.one_le_iff_ne_zero.2 hs,
    fun d₁ s₁ hd₁ hn₁ => (decompose_eq hd' hn).symm.trans (decompose_eq hd₁ hn₁)⟩

/-! ### Prescreen (40_primality.md R100) -/

/-- 0, 1 and the even numbers from 4 are rejected. -/
theorem prescreen_eq_reject {n : Nat} (h : n ≤ 1 ∨ 4 ≤ n ∧ n % 2 = 0) : prescreen n = .reject := by
  rcases h with h | ⟨h4, heven⟩
  · simp [prescreen, h]
  · have hlow : ¬ n ≤ 1 := by omega
    have hsmall : ¬ (n = 2 ∨ n = 3) := by omega
    simp [prescreen, hlow, hsmall, heven]

/-- 2 and 3 are accepted. -/
theorem prescreen_eq_accept {n : Nat} (h : n = 2 ∨ n = 3) : prescreen n = .accept := by
  rcases h with rfl | rfl <;> rfl

/-- The odd numbers from 5 go on to the trials. -/
theorem prescreen_eq_goOn {n : Nat} (h5 : 5 ≤ n) (hodd : n % 2 = 1) : prescreen n = .goOn := by
  have hlow : ¬ n ≤ 1 := by omega
  have hsmall : ¬ (n = 2 ∨ n = 3) := by omega
  have heven : ¬ n % 2 = 0 := by omega
  simp [prescreen, hlow, hsmall, heven]

/-! ### IsProbablyPrime and MRTEST (40_primality.md R103, R104) -/

/-- A rejected number is answered without a trial. -/
theorem isProbablyPrime_of_reject {n : Nat} (h : prescreen n = .reject) (rounds : Nat) (ws : List Word) :
    isProbablyPrime n rounds ws = some (false, 0, ws) := by
  simp [isProbablyPrime, h]

/-- An accepted number is answered without a trial. -/
theorem isProbablyPrime_of_accept {n : Nat} (h : prescreen n = .accept) (rounds : Nat) (ws : List Word) :
    isProbablyPrime n rounds ws = some (true, 0, ws) := by
  simp [isProbablyPrime, h]

/-- A number that goes on is answered by the trials on its decomposition. -/
theorem isProbablyPrime_of_goOn {n : Nat} (h : prescreen n = .goOn) (rounds : Nat) (ws : List Word) :
    isProbablyPrime n rounds ws = runTrials n (decompose n).1 (decompose n).2 rounds 0 ws := by
  simp [isProbablyPrime, h]

/-- Where the test ends, MRTEST completes with its verdict and its count of trials, the drawn words popped, and no
operand register changes. -/
theorem exec_mrtest_of_isProbablyPrime {rn : RegNo} {s : State} {v : Bool} {c : Nat} {rest : List Word}
    (h : isProbablyPrime (readReg rn s) s.rounds.toNat s.entropy = some (v, c, rest)) :
    exec (.mrtest rn) s = .next (completedWith s.x v false false c (popTo rest s)) := by
  simp only [exec, execMrtest, h]
  rfl

/-- Where the test pops nothing, MRTEST completes on the entropy as it stands. -/
theorem exec_mrtest_of_noDraw {rn : RegNo} {s : State} {v : Bool} {c : Nat}
    (h : isProbablyPrime (readReg rn s) s.rounds.toNat s.entropy = some (v, c, s.entropy)) :
    exec (.mrtest rn) s = .next (completedWith s.x v false false c s) := by
  rw [exec_mrtest_of_isProbablyPrime h, popTo_self]

/-- MRTEST's word: the opcode, and rn in f1. -/
theorem encode_mrtest_toNat (rn : RegNo) : (encode (.mrtest rn)).toNat = 0x04 + rn.val * 2 ^ 11 := by
  simp [encode, buildWord_toNat]

/-- Settles O37: the prescreen answers the first three rows, and the trial loop with no trial to run the last. -/
theorem mrtestWithoutADraw : Obligations.MrtestWithoutADraw := by
  intro rn s
  refine ⟨encode_mrtest_toNat rn, fun hlow => ?low, fun hsmall => ?small, fun h4 heven => ?even,
    fun h5 hodd hrounds => ?noRounds⟩
  case low => exact exec_mrtest_of_noDraw (isProbablyPrime_of_reject (prescreen_eq_reject (.inl hlow)) _ _)
  case small => exact exec_mrtest_of_noDraw (isProbablyPrime_of_accept (prescreen_eq_accept hsmall) _ _)
  case even => exact exec_mrtest_of_noDraw (isProbablyPrime_of_reject (prescreen_eq_reject (.inr ⟨h4, heven⟩)) _ _)
  case noRounds =>
    refine exec_mrtest_of_noDraw ?_
    rw [isProbablyPrime_of_goOn (prescreen_eq_goOn h5 hodd), hrounds]
    rfl

end Sys2Proof.Machine
end

section
/-! The sampler (41_sampler.md): what one attempt does to the stream, and `SampleRange` as rejected attempts followed
by an accepted one. -/

namespace Sys2Proof.Machine

/-! ### One attempt (41_sampler.md R122) -/

/-- An attempt of no word assembles 0, which is in range: a rejected attempt takes at least one word. -/
theorem RejectedAttempt.length_pos {lo hi : Nat} {block : List Word} (h : RejectedAttempt lo hi block) :
    0 < block.length := by
  obtain ⟨hlen, hval⟩ := h
  rcases Nat.eq_zero_or_pos block.length with hzero | hpos
  · have hempty : attemptValue lo hi block = 0 := by
      rw [List.eq_nil_of_length_eq_zero hzero]
      exact Nat.zero_mod _
    omega
  · exact hpos

/-- The stream is too short for an attempt, or begins with an accepted or a rejected one. -/
theorem attempt_cases (lo hi : Nat) (ws : List Word) :
    ws.length < attemptWords lo hi ∨
      ∃ block tail, ws = block ++ tail ∧ (AcceptedAttempt lo hi block ∨ RejectedAttempt lo hi block) := by
  rcases Nat.lt_or_ge ws.length (attemptWords lo hi) with hshort | hlong
  · exact .inl hshort
  · have hlen : (ws.take (attemptWords lo hi)).length = attemptWords lo hi := List.length_take_of_le hlong
    exact .inr ⟨_, _, (List.take_append_drop _ ws).symm,
      (le_or_gt _ _).imp (fun hle => ⟨hlen, hle⟩) (fun hlt => ⟨hlen, hlt⟩)⟩

/-- Where an attempt takes words, any fuel above the number of words does. -/
theorem sampleAttempts_congr_fuel {lo span k nw : Nat} (hnw : 0 < nw) {f g : Nat} {ws : List Word}
    (hf : ws.length < f) (hg : ws.length < g) :
    sampleAttempts lo span k nw f ws = sampleAttempts lo span k nw g ws := by
  induction f generalizing g ws with
  | zero => cases hf
  | succ f ih =>
    obtain ⟨g, rfl⟩ : ∃ m, g = m + 1 := ⟨g - 1, by omega⟩
    rcases Nat.lt_or_ge ws.length nw with hshort | hlong
    · simp [sampleAttempts, hshort]
    · have hdrop : (ws.drop nw).length = ws.length - nw := List.length_drop
      have htail : sampleAttempts lo span k nw f (ws.drop nw) = sampleAttempts lo span k nw g (ws.drop nw) :=
        ih (by omega) (by omega)
      simp [sampleAttempts, htail]

/-- On a stream shorter than an attempt there is no draw. -/
theorem sampleRange_of_short {lo hi : Nat} {ws : List Word} (h : ws.length < attemptWords lo hi) :
    sampleRange lo hi ws = none := by
  obtain ⟨-, -, hnw⟩ := sample_parameters lo hi
  simp [sampleRange, sampleAttempts, hnw, h]

/-- The first attempt's words decide: its value is the draw, or the remaining attempts run on the words after it. -/
theorem sampleRange_block_append {lo hi : Nat} {block : List Word} (h : block.length = attemptWords lo hi)
    (tail : List Word) :
    sampleRange lo hi (block ++ tail) =
      if attemptValue lo hi block ≤ hi - lo then some (lo + attemptValue lo hi block, tail)
      else sampleAttempts lo (sampleSpan lo hi) (sampleBits lo hi) (sampleWords lo hi) (block ++ tail).length
        tail := by
  obtain ⟨hspan, hbits, hnw⟩ := sample_parameters lo hi
  have hlong : ¬ (block ++ tail).length < block.length := by simp
  rw [sampleRange, sampleAttempts, hspan, hbits, hnw, ← h, if_neg hlong, List.take_left, List.drop_left]
  exact if_congr Nat.lt_succ_iff rfl rfl

/-- An accepted attempt ends the sampling with its value. -/
theorem sampleRange_accepted_append {lo hi : Nat} {block : List Word} (h : AcceptedAttempt lo hi block)
    (tail : List Word) :
    sampleRange lo hi (block ++ tail) = some (lo + attemptValue lo hi block, tail) := by
  obtain ⟨hlen, hval⟩ := h
  rw [sampleRange_block_append hlen, if_pos hval]

/-- After a rejected attempt the sampling starts again on the words after it. -/
theorem sampleRange_rejected_append {lo hi : Nat} {block : List Word} (h : RejectedAttempt lo hi block)
    (tail : List Word) : sampleRange lo hi (block ++ tail) = sampleRange lo hi tail := by
  have hpos := h.length_pos
  obtain ⟨hlen, hval⟩ := h
  obtain ⟨-, -, hnw⟩ := sample_parameters lo hi
  rw [sampleRange_block_append hlen, if_neg (Nat.not_le.2 hval), sampleRange]
  refine sampleAttempts_congr_fuel (by omega) ?_ (Nat.lt_succ_self _)
  rw [List.length_append]
  omega

/-! ### Rejection sampling (41_sampler.md R122) -/

/-- Rejected attempts before a stream do not change the draw. -/
theorem sampleRange_rejected_flatten_append {lo hi : Nat} {rejected : List (List Word)}
    (h : ∀ b ∈ rejected, RejectedAttempt lo hi b) (tail : List Word) :
    sampleRange lo hi (rejected.flatten ++ tail) = sampleRange lo hi tail := by
  induction rejected with
  | nil => rfl
  | cons b bs ih =>
    obtain ⟨hb, hbs⟩ := List.forall_mem_cons.1 h
    rw [List.flatten_cons, List.append_assoc, sampleRange_rejected_append hb, ih hbs]

/-- A draw's words are rejected attempts and the accepted one, whose value it is. -/
theorem exists_attempts_of_sampleRange {lo hi v : Nat} {ws rest : List Word}
    (h : sampleRange lo hi ws = some (v, rest)) :
    ∃ (rejected : List (List Word)) (block : List Word),
      (∀ b ∈ rejected, RejectedAttempt lo hi b) ∧ AcceptedAttempt lo hi block ∧
      ws = rejected.flatten ++ block ++ rest ∧ v = lo + attemptValue lo hi block := by
  rcases attempt_cases lo hi ws with hshort | ⟨block, tail, hws, haccepted | hrejected⟩
  · rw [sampleRange_of_short hshort] at h
    cases h
  · rw [hws, sampleRange_accepted_append haccepted] at h
    cases h
    exact ⟨[], block, nofun, haccepted, hws, rfl⟩
  · rw [hws, sampleRange_rejected_append hrejected] at h
    obtain ⟨rejected, last, hall, hlast, htail, hv⟩ := exists_attempts_of_sampleRange h
    exact ⟨block :: rejected, last, List.forall_mem_cons.2 ⟨hrejected, hall⟩, hlast, by simp [hws, htail], hv⟩
termination_by ws.length
decreasing_by
  have hpos := hrejected.length_pos
  rw [hws, List.length_append]
  omega

/-- Settles O40: the attempts of a draw are read off attempt by attempt, and any such attempts give the draw. -/
theorem sampleRangeIsRejectionSampling : Obligations.SampleRangeIsRejectionSampling := by
  refine fun lo hi ws rest v _ => ⟨exists_attempts_of_sampleRange, ?_⟩
  rintro ⟨rejected, block, hrejected, haccepted, rfl, rfl⟩
  rw [List.append_assoc, sampleRange_rejected_flatten_append hrejected, sampleRange_accepted_append haccepted]

end Sys2Proof.Machine
end

section
/-! The modular inverse family (42_modinv.md): the extended Euclidean algorithm, EGCD, the modular inverse and
MODINV. -/

namespace Sys2Proof.Machine

/-! ### The recursion (42_modinv.md R130, R131) -/

/-- Any fuel from `a` on is enough: each call makes the first argument smaller. -/
theorem extendedGcdFrom_congr_fuel {f g a : Nat} (hf : a ≤ f) (hg : a ≤ g) (b : Nat) :
    extendedGcdFrom f a b = extendedGcdFrom g a b := by
  induction f generalizing g a b with
  | zero =>
    obtain rfl : a = 0 := Nat.le_zero.1 hf
    cases g <;> rfl
  | succ f ih =>
    rcases Nat.eq_zero_or_pos a with rfl | hpos
    · cases g <;> rfl
    · obtain ⟨g, rfl⟩ : ∃ m, g = m + 1 := ⟨g - 1, by omega⟩
      have hlt : b % a < a := Nat.mod_lt _ hpos
      have hinner : extendedGcdFrom f (b % a) a = extendedGcdFrom g (b % a) a := ih (by omega) (by omega) a
      simp [extendedGcdFrom, hinner]

/-- The base case. -/
theorem extendedGcd_zero_left (b : Nat) : extendedGcd 0 b = (b, 0, 1) := rfl

/-- The recursive case: the triple of `(b mod a, a)`, adjusted. -/
theorem extendedGcd_of_pos {a : Nat} (ha : 0 < a) (b : Nat) :
    extendedGcd a b = adjust (b / a) (extendedGcd (b % a) a) := by
  obtain ⟨n, rfl⟩ : ∃ n, a = n + 1 := ⟨a - 1, by omega⟩
  have hlt : b % (n + 1) < n + 1 := Nat.mod_lt _ ha
  rw [extendedGcd, extendedGcdFrom, if_neg n.succ_ne_zero, extendedGcd,
    extendedGcdFrom_congr_fuel (Nat.le_of_lt_succ hlt) le_rfl]

/-- The adjust step keeps the Bézout identity (42_modinv.md R131). -/
theorem adjust_bezout {a b : Nat} {t : GcdTriple} (h : ((b % a : Nat) : Int) * t.2.1 + (a : Int) * t.2.2 = t.1) :
    (a : Int) * (adjust (b / a) t).2.1 + (b : Int) * (adjust (b / a) t).2.2 = (adjust (b / a) t).1 := by
  have hb : (b : Int) = a * (b / a : Nat) + (b % a : Nat) := by exact_mod_cast (Nat.div_add_mod b a).symm
  simp only [adjust]
  linear_combination h + t.2.1 * hb

/-- `a·x + b·y = g` (42_modinv.md R133 b). -/
theorem extendedGcd_bezout (a b : Nat) :
    (a : Int) * (extendedGcd a b).2.1 + (b : Int) * (extendedGcd a b).2.2 = (extendedGcd a b).1 := by
  induction a, b using Nat.gcd.induction with
  | H0 b => simp [extendedGcd_zero_left]
  | H1 a b ha ih =>
    rw [extendedGcd_of_pos ha]
    exact adjust_bezout ih

/-- Settles O28: the fuel `a` never cuts the recursion, and the identity holds of both triples. -/
theorem extendedGcdRecursion : Obligations.ExtendedGcdRecursion := by
  refine ⟨extendedGcd_zero_left, fun a b g x1 y1 ha hinner => ?step⟩
  case step =>
    have houter : extendedGcd a b = (g, y1 - ((b / a : Nat) : Int) * x1, x1) := by
      rw [extendedGcd_of_pos (Nat.pos_of_ne_zero ha), hinner]
      rfl
    have hin := extendedGcd_bezout (b % a) a
    have hout := extendedGcd_bezout a b
    rw [hinner] at hin
    rw [houter] at hout
    exact ⟨houter, hin, hout⟩

/-! ### Properties (42_modinv.md R133) -/

/-- The first component is the gcd (42_modinv.md R133 a). -/
theorem extendedGcd_fst (a b : Nat) : (extendedGcd a b).1 = Nat.gcd a b := by
  induction a, b using Nat.gcd.induction with
  | H0 b => simp [extendedGcd_zero_left]
  | H1 a b ha ih =>
    rw [extendedGcd_of_pos ha, Nat.gcd_rec, ← ih]
    rfl

/-- The bounds of 42_modinv.md R133 (d) without a division. They are kept because a remainder other than 0 is at
least the gcd: then `g·|x| ≤ g·|y1| + (b div a)·(g·|x1|) ≤ b mod a + (b div a)·a = b`. -/
theorem gcd_mul_extendedGcd_natAbs_le (a b : Nat) :
    Nat.gcd a b * (extendedGcd a b).2.1.natAbs ≤ max (Nat.gcd a b) b ∧
    Nat.gcd a b * (extendedGcd a b).2.2.natAbs ≤ max (Nat.gcd a b) a := by
  induction a, b using Nat.gcd.induction with
  | H0 b => simp [extendedGcd_zero_left]
  | H1 a b ha ih =>
    rw [extendedGcd_of_pos ha, Nat.gcd_rec]
    have hga : Nat.gcd (b % a) a ≤ a := Nat.gcd_le_right _ ha
    rcases Nat.eq_zero_or_pos (b % a) with hr | hr
    · simp [hr, extendedGcd_zero_left, adjust]
    · have hgr : Nat.gcd (b % a) a ≤ b % a := Nat.gcd_le_left _ hr
      obtain ⟨hx, hy⟩ := ih
      rw [max_eq_right hga] at hx
      rw [max_eq_right hgr] at hy
      generalize Nat.gcd (b % a) a = g at *
      generalize extendedGcd (b % a) a = t at *
      refine ⟨le_max_of_le_right ?_, le_max_of_le_right hx⟩
      have habs : (adjust (b / a) t).2.1.natAbs ≤ t.2.2.natAbs + b / a * t.2.1.natAbs := by
        have h := Int.natAbs_sub_le t.2.2 ((b / a : Nat) * t.2.1)
        rwa [Int.natAbs_mul, Int.natAbs_natCast] at h
      calc g * (adjust (b / a) t).2.1.natAbs
          ≤ g * (t.2.2.natAbs + b / a * t.2.1.natAbs) := Nat.mul_le_mul_left g habs
        _ = g * t.2.2.natAbs + b / a * (g * t.2.1.natAbs) := by ring
        _ ≤ b % a + b / a * a := Nat.add_le_add hy (Nat.mul_le_mul_left _ hx)
        _ = b := Nat.mod_add_div' b a

/-- A positive factor of a bound, taken to the other side. -/
theorem le_max_one_div {g n c : Nat} (hg : 0 < g) (h : g * n ≤ max g c) : n ≤ max 1 (c / g) := by
  rcases le_max_iff.1 h with h | h
  · exact le_max_of_le_left (Nat.le_of_mul_le_mul_left (h.trans_eq (Nat.mul_one g).symm) hg)
  · exact le_max_of_le_right ((Nat.le_div_iff_mul_le hg).2 (by rwa [Nat.mul_comm]))

/-- The sharp bounds (42_modinv.md R133 d). -/
theorem extendedGcd_natAbs_le_max_div {a b : Nat} (hg : 0 < Nat.gcd a b) :
    (extendedGcd a b).2.1.natAbs ≤ max 1 (b / Nat.gcd a b) ∧
    (extendedGcd a b).2.2.natAbs ≤ max 1 (a / Nat.gcd a b) :=
  (gcd_mul_extendedGcd_natAbs_le a b).imp (le_max_one_div hg) (le_max_one_div hg)

/-- The bounds that hold of every pair, (0, 0) included (42_modinv.md R133 d). -/
theorem extendedGcd_natAbs_le_max (a b : Nat) :
    (extendedGcd a b).2.1.natAbs ≤ max 1 b ∧ (extendedGcd a b).2.2.natAbs ≤ max 1 a := by
  rcases Nat.eq_zero_or_pos (Nat.gcd a b) with hg | hg
  · obtain ⟨rfl, rfl⟩ := Nat.gcd_eq_zero_iff.1 hg
    decide
  · have hdiv (c : Nat) : max 1 (c / Nat.gcd a b) ≤ max 1 c := max_le_max_left 1 (Nat.div_le_self _ _)
    exact (extendedGcd_natAbs_le_max_div hg).imp (·.trans (hdiv b)) (·.trans (hdiv a))

/-- All three results fit where both operands do (42_modinv.md R133 d). -/
theorem extendedGcd_lt_two_pow {a b w : Nat} (hw : 1 ≤ w) (ha : a < 2 ^ w) (hb : b < 2 ^ w) :
    (extendedGcd a b).1 < 2 ^ w ∧ (extendedGcd a b).2.1.natAbs < 2 ^ w ∧
      (extendedGcd a b).2.2.natAbs < 2 ^ w := by
  have hone : 1 < 2 ^ w := Nat.one_lt_two_pow (Nat.ne_of_gt hw)
  have hgcd : (extendedGcd a b).1 < 2 ^ w := by
    rw [extendedGcd_fst]
    rcases Nat.eq_zero_or_pos a with rfl | hpos
    · rwa [Nat.gcd_zero_left]
    · exact (Nat.gcd_le_left b hpos).trans_lt ha
  obtain ⟨hx, hy⟩ := extendedGcd_natAbs_le_max a b
  exact ⟨hgcd, hx.trans_lt (max_lt hone hb), hy.trans_lt (max_lt hone ha)⟩

/-- Where `a` divides `b` the triple is `(a, 1, 0)`: the inner call is the base case. -/
theorem extendedGcd_of_dvd {a b : Nat} (ha : 0 < a) (h : a ∣ b) : extendedGcd a b = (a, 1, 0) := by
  rw [extendedGcd_of_pos ha, Nat.mod_eq_zero_of_dvd h, extendedGcd_zero_left]
  simp [adjust]

/-- The last row of the special values. -/
theorem extendedGcd_one_right {a : Nat} (ha : 1 < a) : extendedGcd a 1 = (1, 0, 1) := by
  rw [extendedGcd_of_pos (by omega), Nat.mod_eq_of_lt ha, extendedGcd_of_dvd Nat.one_pos (one_dvd a),
    Nat.div_eq_of_lt ha]
  rfl

/-- Settles O30: the gcd, the identity and the bounds by Euclid's induction, the table from the recursion. -/
theorem extendedGcdProperties : Obligations.ExtendedGcdProperties := by
  refine ⟨fun a b g x y htriple => ?general, extendedGcd_zero_left,
    fun a ha => ⟨extendedGcd_of_dvd ha (dvd_zero a), extendedGcd_of_dvd ha dvd_rfl⟩,
    fun b => extendedGcd_of_dvd Nat.one_pos (one_dvd b), fun a => extendedGcd_one_right, ?examples⟩
  case general =>
    have hgcd := extendedGcd_fst a b
    have hbezout := extendedGcd_bezout a b
    have hsharp := extendedGcd_natAbs_le_max_div (a := a) (b := b)
    obtain ⟨hx, hy⟩ := extendedGcd_natAbs_le_max a b
    have hfit (w : Nat) := extendedGcd_lt_two_pow (a := a) (b := b) (w := w)
    rw [← hgcd] at hsharp
    rw [htriple] at hgcd hbezout hsharp hx hy
    simp only [htriple] at hfit
    exact ⟨hgcd, hbezout, hx, hy, hsharp, hfit⟩
  case examples => decide

/-! ### EGCD (42_modinv.md R134) -/

/-- EGCD's word: the opcode, and the five operands in their fields. -/
theorem encode_egcd_toNat (rg rx ry ra rb : RegNo) :
    (encode (.egcd rg rx ry ra rb)).toNat =
      0x02 + rg.val * 2 ^ 8 + rx.val * 2 ^ 11 + ry.val * 2 ^ 14 + ra.val * 2 ^ 17 + rb.val * 2 ^ 20 :=
  buildWord_toNat (by decide) rg rx ry ra rb

/-- The decoder rejects EGCD's word where two destinations are equal (30_encoding.md R74 c). -/
theorem decode_encode_egcd_of_not_distinct {rg rx ry : RegNo} (h : rg = rx ∨ rg = ry ∨ rx = ry) (ra rb : RegNo) :
    decode (encode (.egcd rg rx ry ra rb)) = .illegal .equalDestinations := by
  obtain ⟨hrg, hrx, hry, -, -, hreserved, hopcode⟩ :=
    buildWord_regField (op := 0x02) (by decide) rg rx ry ra rb
  have hdests : ¬ distinctDests rg rx ry = true := by
    rw [distinctDests_iff]
    tauto
  simp [decode, encode, hrg, hrx, hry, hreserved, hopcode, hdests]

/-- With different destinations and a triple that fits, EGCD writes the magnitudes and the signs. -/
theorem egcdOutcome_of_fits {width : Nat} {rg rx ry : RegNo} (hdests : distinctDests rg rx ry = true) {a b g : Nat}
    {cx cy : Int} (htriple : extendedGcd a b = (g, cx, cy)) (hg : g < 2 ^ width) (hx : cx.natAbs < 2 ^ width)
    (hy : cy.natAbs < 2 ^ width) :
    egcdOutcome width rg rx ry a b =
      .success [(rg, g), (rx, cx.natAbs), (ry, cy.natAbs)] false (signFlag cx) (signFlag cy) 0 := by
  simp [egcdOutcome, hdests, htriple, Nat.not_le.2, hg, hx, hy]

/-- Every instance has a width of at least one bit (00_scope.md R6). -/
theorem one_le_width {c : Config} (hc : c.Wf) : 1 ≤ c.width := by
  obtain ⟨hlimbs, -⟩ := hc
  unfold Config.width
  omega

/-- Settles O31: the bounds of the triple keep EGCD away from E_RANGE. -/
theorem egcdResult : Obligations.EgcdResult := by
  intro rg rx ry ra rb s g cx cy
  refine ⟨encode_egcd_toNat rg rx ry ra rb, fun h => ⟨_, decode_encode_egcd_of_not_distinct h ra rb⟩,
    fun hgx hgy hxy hc ha hb htriple => ?result⟩
  case result =>
    have hfit := extendedGcd_lt_two_pow (one_le_width hc) ha hb
    rw [htriple] at hfit
    obtain ⟨hg, hx, hy⟩ := hfit
    rw [exec, execEgcd, egcdOutcome_of_fits (distinctDests_iff.2 ⟨hgx, hgy, hxy⟩) htriple hg hx hy]
    rfl

/-! ### ModInverse (42_modinv.md R135, R137) -/

/-- Reducing first does not change the gcd with the modulus. -/
theorem gcd_mod_self (a m : Nat) : Nat.gcd (a % m) m = Nat.gcd a m := by
  rw [← Nat.gcd_rec, Nat.gcd_comm]

/-- No inverse where the gcd is not 1 (42_modinv.md R137 b). -/
theorem modInverse_eq_none {a m : Nat} (h : Nat.gcd (a % m) m ≠ 1) : modInverse a m = none := by
  simp [modInverse, extendedGcd_fst, h]

/-- The inverse is the coefficient of `a mod m`, reduced, whichever Bézout pair it comes from: two such coefficients
differ by a multiple of `m` (42_modinv.md R137 d). -/
theorem modInverse_eq_of_bezout {a m : Nat} {x y : Int} (h : ((a % m : Nat) : Int) * x + (m : Int) * y = 1) :
    modInverse a m = some (x % (m : Int)).toNat := by
  have hgcd : Nat.gcd (a % m) m = 1 := Nat.isCoprime_iff_coprime.1 ⟨x, y, by linear_combination h⟩
  have hown := extendedGcd_bezout (a % m) m
  rw [extendedGcd_fst, hgcd, Nat.cast_one] at hown
  set x₀ := (extendedGcd (a % m) m).2.1
  set y₀ := (extendedGcd (a % m) m).2.2
  have hcongr : x₀ ≡ x [ZMOD m] :=
    Int.modEq_iff_dvd.2 ⟨x * y₀ - x₀ * y, by linear_combination x₀ * h - x * hown⟩
  simp [modInverse, extendedGcd_fst, hgcd, floorMod, x₀, hcongr.eq]

/-- A Bézout coefficient of `a mod m`, reduced, is below the modulus, and its product with `a` is 1 modulo `m`. -/
theorem inverse_of_bezout {a m : Nat} (hm : 0 < m) {x y : Int}
    (h : ((a % m : Nat) : Int) * x + (m : Int) * y = 1) :
    (x % (m : Int)).toNat < m ∧ a * (x % (m : Int)).toNat % m = 1 % m := by
  have hm' : 0 < (m : Int) := Int.natCast_pos.2 hm
  have hr : ((x % (m : Int)).toNat : Int) = x % m := Int.toNat_of_nonneg (Int.emod_nonneg _ hm'.ne')
  refine ⟨?below, Int.natCast_modEq_iff.1 ?product⟩
  case below => exact Int.ofNat_lt.1 (hr ▸ Int.emod_lt_of_pos x hm')
  case product =>
    have ha : (a : Int) ≡ (a % m : Nat) [ZMOD m] := Int.natCast_modEq_iff.2 (Nat.mod_modEq a m).symm
    calc ((a * (x % (m : Int)).toNat : Nat) : Int)
        = (a : Int) * (x % m) := by rw [Nat.cast_mul, hr]
      _ ≡ (a % m : Nat) * x [ZMOD m] := ha.mul (Int.mod_modEq x m)
      _ ≡ (1 : Nat) [ZMOD m] := Int.modEq_iff_dvd.2 ⟨y, by rw [Nat.cast_one]; linear_combination -h⟩

/-- Where the gcd is 1 there is an inverse (42_modinv.md R137 a). -/
theorem exists_modInverse {a m : Nat} (hm : 0 < m) (h : Nat.gcd (a % m) m = 1) :
    ∃ r, modInverse a m = some r ∧ r < m ∧ a * r % m = 1 % m := by
  have hbezout := extendedGcd_bezout (a % m) m
  rw [extendedGcd_fst, h, Nat.cast_one] at hbezout
  exact ⟨_, modInverse_eq_of_bezout hbezout, inverse_of_bezout hm hbezout⟩

/-- For the modulus 1 the result is 0 (42_modinv.md R137 c). -/
theorem modInverse_one (a : Nat) : modInverse a 1 = some 0 :=
  modInverse_eq_of_bezout (x := 0) (y := 1) (by simp)

/-- Settles O32: with a gcd of 1 any Bézout pair gives the inverse, which is not 0 where the modulus is above 1. -/
theorem modInverseProperties : Obligations.ModInverseProperties := by
  refine fun a m => ⟨fun hm hgcd => ?inverse, fun _ hgcd => ?noInverse, ?one, fun _ _ _ => modInverse_eq_of_bezout⟩
  case inverse =>
    obtain ⟨d, hd, hlt, hmul⟩ := exists_modInverse (Nat.zero_lt_of_lt hm) ((gcd_mod_self a m).trans hgcd)
    rw [Nat.mod_eq_of_lt hm] at hmul
    refine ⟨d, hd, hmul, Nat.pos_of_ne_zero ?_, hlt⟩
    rintro rfl
    simp at hmul
  case noInverse => exact modInverse_eq_none ((gcd_mod_self a m).trans_ne hgcd)
  case one =>
    rintro rfl
    exact modInverse_one a

/-! ### MODINV (42_modinv.md R136) -/

/-- MODINV's word: the opcode, and the three operands in their fields. -/
theorem encode_modinv_toNat (rd ra rm : RegNo) :
    (encode (.modinv rd ra rm)).toNat = 0x03 + rd.val * 2 ^ 8 + ra.val * 2 ^ 11 + rm.val * 2 ^ 14 := by
  simp [encode, buildWord_toNat]

/-- A modulus of 0 ends MODINV with E_ZEROMOD. -/
theorem exec_modinv_of_zero {rm : RegNo} {s : State} (h : readReg rm s = 0) (rd ra : RegNo) :
    exec (.modinv rd ra rm) s = .next (failedWith 3 s) := by
  rw [exec, execModinv, modinvOutcome, if_pos h]
  rfl

/-- With another modulus MODINV ends with E_NOINVERSE where there is no inverse. -/
theorem exec_modinv_of_none {ra rm : RegNo} {s : State} (hm : readReg rm s ≠ 0)
    (h : modInverse (readReg ra s) (readReg rm s) = none) (rd : RegNo) :
    exec (.modinv rd ra rm) s = .next (failedWith 2 s) := by
  rw [exec, execModinv, modinvOutcome, if_neg hm, h]
  rfl

/-- With another modulus MODINV writes the inverse where there is one. -/
theorem exec_modinv_of_some {ra rm : RegNo} {s : State} {r : Nat} (hm : readReg rm s ≠ 0)
    (h : modInverse (readReg ra s) (readReg rm s) = some r) (rd : RegNo) :
    exec (.modinv rd ra rm) s = .next (completedWith (s.x.set rd.val r) false false false 0 s) := by
  rw [exec, execModinv, modinvOutcome, if_neg hm, h]
  rfl

/-- Settles O33: the modulus 0 is asked first; then `ModInverse` answers by the gcd. -/
theorem modinvResult : Obligations.ModinvResult := by
  refine fun rd ra rm s => ⟨encode_modinv_toNat rd ra rm, fun hm => exec_modinv_of_zero hm rd ra,
    fun hm hgcd => exec_modinv_of_none hm (modInverse_eq_none hgcd) rd, fun hm hgcd => ?inverse⟩
  case inverse =>
    obtain ⟨r, hr, hlt, hmul⟩ := exists_modInverse (Nat.pos_of_ne_zero hm) hgcd
    exact ⟨r, hlt, hmul, exec_modinv_of_some hm hr rd⟩

end Sys2Proof.Machine
end

section
/-! Modular exponentiation (43_modexp.md): the reference algorithm computes the power, MODEXP publishes it, and the
powers in the table of corner cases. -/

namespace Sys2Proof.Machine

/-! ### The reference algorithm (43_modexp.md R151) -/

/-- The bits of `e` from `i` up are those from `i + 1` up, doubled, and bit `i`. -/
theorem div_two_pow_eq_two_mul_add_testBit (e i : Nat) :
    e / 2 ^ i = 2 * (e / 2 ^ (i + 1)) + (e.testBit i).toNat := by
  rw [Nat.toNat_testBit, Nat.pow_succ, ← Nat.div_div_eq_div_mul, Nat.div_add_mod]

/-- The loop's invariant: with bits `i - 1` down to 0 of `e` still to do, the accumulator holds the power of `b` to
the bits already done, so the loop ends with the whole power. -/
theorem modExpLoop_pow (b e m i : Nat) : modExpLoop b e m i (b ^ (e / 2 ^ i) % m) = b ^ e % m := by
  induction i with
  | zero => simp [modExpLoop]
  | succ i ih =>
    have hsquare : b ^ (e / 2 ^ (i + 1)) % m * (b ^ (e / 2 ^ (i + 1)) % m) % m =
        b ^ (2 * (e / 2 ^ (i + 1))) % m := by
      rw [← Nat.mul_mod, ← Nat.pow_add, ← Nat.two_mul]
    rw [modExpLoop, hsquare, ← ih, div_two_pow_eq_two_mul_add_testBit e i]
    cases e.testBit i with
    | false => rfl
    | true => simp [Nat.pow_succ]

/-- `ModExpRef` is the normative power (43_modexp.md R150): the loop starts with no bit done. -/
theorem modExpRef_eq_pow_mod (b e m : Nat) : modExpRef b e m = b ^ e % m := by
  have hnone : e / 2 ^ bitLen e = 0 := by
    rw [bitLen_eq_size]
    exact Nat.div_eq_of_lt e.lt_size_self
  have hloop := modExpLoop_pow b e m (bitLen e)
  rwa [hnone, Nat.pow_zero] at hloop

/-! ### MODEXP (43_modexp.md R152) -/

/-- MODEXP's word: the opcode, and the four operands in their fields. -/
theorem encode_modexp_toNat (rd rb re rm : RegNo) :
    (encode (.modexp rd rb re rm)).toNat =
      0x01 + rd.val * 2 ^ 8 + rb.val * 2 ^ 11 + re.val * 2 ^ 14 + rm.val * 2 ^ 17 := by
  simp [encode, buildWord_toNat]

/-- A modulus of 0 ends MODEXP with E_ZEROMOD. -/
theorem exec_modexp_of_zero {rm : RegNo} {s : State} (h : readReg rm s = 0) (rd rb re : RegNo) :
    exec (.modexp rd rb re rm) s = .next (failedWith 3 s) := by
  rw [exec, execModexp, modexpOutcome, if_pos h]
  rfl

/-- With another modulus MODEXP writes the power of its sources as they were before the write. -/
theorem exec_modexp_of_ne_zero {rm : RegNo} {s : State} (h : readReg rm s ≠ 0) (rd rb re : RegNo) :
    exec (.modexp rd rb re rm) s =
      .next (completedWith (s.x.set rd.val (readReg rb s ^ readReg re s % readReg rm s)) false false false 0 s) := by
  rw [exec, execModexp, modexpOutcome, if_neg h, modExpRef_eq_pow_mod]
  rfl

/-- Settles O24: the modulus 0 is asked first; then the reference algorithm answers with the power. -/
theorem modexpResult : Obligations.ModexpResult := fun rd rb re rm _ =>
  ⟨encode_modexp_toNat rd rb re rm, fun h => exec_modexp_of_zero h rd rb re,
    fun h => exec_modexp_of_ne_zero h rd rb re⟩

/-! ### The corner cases (43_modexp.md R153) -/

/-- The destination reads back as the value written. -/
theorem readReg_completedWith_set_self (k : RegNo) (v : Nat) (verdict xneg yneg : Bool) (trials : Nat) (s : State) :
    readReg k (completedWith (s.x.set k.val v) verdict xneg yneg trials s) = v :=
  readReg_writeReg_self k v s

/-- `m - 1` is -1 modulo `m`: its square is 1. -/
theorem pred_sq_modEq_one {m : Nat} (hm : 0 < m) : (m - 1) ^ 2 ≡ 1 [MOD m] := by
  obtain ⟨n, rfl⟩ : ∃ n, m = n + 1 := ⟨m - 1, by omega⟩
  exact Nat.modEq_iff_dvd.2 ⟨1 - n, by push_cast [Nat.add_sub_cancel]; ring⟩

/-- An even power of -1 modulo `m` is 1. -/
theorem pred_pow_mod_of_even {m e : Nat} (hm : 2 ≤ m) (he : e % 2 = 0) : (m - 1) ^ e % m = 1 := by
  have hpow : ((m - 1) ^ 2) ^ (e / 2) ≡ 1 ^ (e / 2) [MOD m] := (pred_sq_modEq_one (by omega)).pow _
  rw [← Nat.pow_mul, Nat.mul_div_cancel' (Nat.dvd_of_mod_eq_zero he), Nat.one_pow] at hpow
  rwa [Nat.ModEq, Nat.mod_eq_of_lt hm] at hpow

/-- An odd power of -1 modulo `m` is -1. -/
theorem pred_pow_mod_of_odd {m e : Nat} (hm : 2 ≤ m) (he : e % 2 = 1) : (m - 1) ^ e % m = m - 1 := by
  obtain ⟨k, rfl⟩ : ∃ k, e = k + 1 := ⟨e - 1, by omega⟩
  rw [Nat.pow_succ, Nat.mul_mod, pred_pow_mod_of_even hm (by omega), Nat.one_mul, Nat.mod_mod,
    Nat.mod_eq_of_lt (by omega)]

/-- Settles O25: the modulus 0 leaves every register alone; with another one each row is a fact about the power. -/
theorem modexpCornerCases : Obligations.ModexpCornerCases := by
  intro rd rb re rm s
  rcases Nat.eq_zero_or_pos (readReg rm s) with hm | hm
  · refine ⟨_, exec_modexp_of_zero hm rd rb re, ?_⟩
    -- every row but the last asks for a modulus other than 0
    rw [hm]
    refine ⟨?_, ?_, ?_, ?_, ?_, ?_, ?_, fun _ => ⟨rfl, rfl, rfl⟩⟩ <;> intros <;> omega
  · refine ⟨_, exec_modexp_of_ne_zero hm.ne' rd rb re, ?_⟩
    rw [readReg_completedWith_set_self]
    generalize readReg rb s = b
    generalize readReg re s = e
    generalize readReg rm s = m at *
    refine ⟨?exponentZero, ?modulusOne, ?baseZero, ?baseOne, fun _ => Nat.pow_mod b e m, ?oddExponent,
      ?evenExponent, fun h => absurd h hm.ne'⟩
    case exponentZero => exact fun he hm2 => by rw [he, Nat.pow_zero, Nat.mod_eq_of_lt hm2]
    case modulusOne => exact fun hm1 => by rw [hm1, Nat.mod_one]
    case baseZero => exact fun hb he _ => by rw [hb, Nat.zero_pow he, Nat.zero_mod]
    case baseOne => exact fun hb hm2 => by rw [hb, Nat.one_pow, Nat.mod_eq_of_lt hm2]
    case oddExponent => exact fun hb hodd hm2 => by rw [hb, pred_pow_mod_of_odd hm2 hodd]
    case evenExponent => exact fun hb heven _ hm2 => by rw [hb, pred_pow_mod_of_even hm2 heven]

end Sys2Proof.Machine
end

section
/-! Bytes and integers (44_host_sequences.md R171): how the two conversions take up one more low byte, from which
each claim follows by induction on the bytes or on the number. -/

namespace Sys2Proof.Machine

/-! ### BytesToInt -/

@[simp] theorem bytesToInt_nil : bytesToInt [] = 0 := rfl

/-- A further byte is the new low one. -/
@[simp] theorem bytesToInt_concat (bs : List Byte) (b : Byte) :
    bytesToInt (bs ++ [b]) = bytesToInt bs * 256 + b.toNat := by
  simp [bytesToInt]

/-- The big-endian sum: a further byte multiplies every summand before it by 256. -/
theorem bytesToInt_eq_sum (bs : List Byte) : bytesToInt bs =
    ((List.range bs.length).map fun j => (bs.getD j 0).toNat * 2 ^ (8 * (bs.length - 1 - j))).sum := by
  induction bs using List.reverseRecOn with
  | nil => rfl
  | append_singleton bs b ih =>
    have hshift : ∀ j ∈ List.range bs.length,
        ((bs ++ [b]).getD j 0).toNat * 2 ^ (8 * (bs.length - j)) =
          (bs.getD j 0).toNat * 2 ^ (8 * (bs.length - 1 - j)) * 256 := by
      intro j hj
      have hlt : j < bs.length := List.mem_range.1 hj
      rw [List.getD_append _ _ _ _ hlt, show 8 * (bs.length - j) = 8 * (bs.length - 1 - j) + 8 by omega, Nat.pow_add,
        ← Nat.mul_assoc]
    rw [bytesToInt_concat, ih, ← List.sum_map_mul_right, List.length_append, List.length_singleton,
      List.range_succ, List.map_append, List.sum_append, Nat.add_sub_cancel, List.map_congr_left hshift]
    simp

/-! ### IntToBytes -/

/-- `IntToBytes(v)` has the least number of bytes that can hold `v`. -/
theorem byteLength_le_iff (v n : Nat) : byteLength v ≤ n ↔ v < 256 ^ n := by
  rw [show 256 ^ n = 2 ^ (8 * n) from (Nat.pow_mul 2 8 n).symm, ← Nat.size_le, byteLength, ceilDiv, bitLen_eq_size]
  omega

@[simp] theorem byteLength_zero : byteLength 0 = 0 := rfl

/-- A number other than 0 has one byte more than its quotient by 256. -/
theorem byteLength_of_ne_zero {v : Nat} (hv : v ≠ 0) : byteLength v = byteLength (v / 256) + 1 := by
  refine eq_of_forall_ge_iff fun n => ?_
  cases n with
  | zero =>
    rw [byteLength_le_iff, Nat.pow_zero]
    omega
  | succ n =>
    rw [Nat.add_le_add_iff_right, byteLength_le_iff, byteLength_le_iff, Nat.div_lt_iff_lt_mul (by decide), Nat.pow_succ]

@[simp] theorem intToBytes_length (v : Nat) : (intToBytes v).length = byteLength v := by
  simp [intToBytes]

@[simp] theorem intToBytes_zero : intToBytes 0 = [] := rfl

/-- The bytes of a number other than 0: those of its quotient by 256, then its low byte. -/
theorem intToBytes_of_ne_zero {v : Nat} (hv : v ≠ 0) :
    intToBytes v = intToBytes (v / 256) ++ [BitVec.ofNat 8 v] := by
  have hshift : ∀ j ∈ List.range (byteLength (v / 256)),
      BitVec.ofNat 8 (v / 2 ^ (8 * (byteLength (v / 256) - j))) =
        BitVec.ofNat 8 (v / 256 / 2 ^ (8 * (byteLength (v / 256) - 1 - j))) := by
    intro j hj
    have hlt : j < byteLength (v / 256) := List.mem_range.1 hj
    rw [show 8 * (byteLength (v / 256) - j) = 8 + 8 * (byteLength (v / 256) - 1 - j) by omega, Nat.pow_add,
      ← Nat.div_div_eq_div_mul]
  rw [intToBytes, byteLength_of_ne_zero hv, List.range_succ, List.map_append, Nat.add_sub_cancel,
    List.map_congr_left hshift]
  simp [intToBytes]

/-! ### Round trips -/

theorem bytesToInt_intToBytes (v : Nat) : bytesToInt (intToBytes v) = v := by
  induction v using Nat.strongRecOn with
  | ind v ih =>
    rcases eq_or_ne v 0 with rfl | hv
    · rfl
    · rw [intToBytes_of_ne_zero hv, bytesToInt_concat, ih (v / 256) (by omega), BitVec.toNat_ofNat]
      omega

/-- The first byte of a number is not 0: it is the first byte of the quotient by 256, or else the number itself. -/
theorem intToBytes_head?_ne_zero (v : Nat) : (intToBytes v).head? ≠ some 0 := by
  induction v using Nat.strongRecOn with
  | ind v ih =>
    rcases eq_or_ne v 0 with rfl | hv
    · simp
    · rw [intToBytes_of_ne_zero hv]
      cases hbs : intToBytes (v / 256) with
      | nil =>
        have hquot : v / 256 = 0 := by rw [← bytesToInt_intToBytes (v / 256), hbs, bytesToInt_nil]
        have hlow : v % 256 ≠ 0 := by omega
        simpa [← BitVec.toNat_inj] using hlow
      | cons b bs => simpa [hbs] using ih (v / 256) (by omega)

/-- Bytes that do not begin with 0 come back: they spell 0 only if there are none. -/
theorem intToBytes_bytesToInt {bs : List Byte} (h : bs.head? ≠ some 0) : intToBytes (bytesToInt bs) = bs := by
  induction bs using List.reverseRecOn with
  | nil => rfl
  | append_singleton bs b ih =>
    have hinit : intToBytes (bytesToInt bs) = bs := by
      refine ih fun h0 => h ?_
      rw [List.head?_append, h0, Option.some_or]
    have hne : bytesToInt bs * 256 + b.toNat ≠ 0 := by
      intro h0
      have hbs : bs = [] := by rw [← hinit, show bytesToInt bs = 0 by omega, intToBytes_zero]
      have hb : b = 0 := BitVec.eq_of_toNat_eq (show b.toNat = 0 by omega)
      exact h (by rw [hbs, hb]; rfl)
    have hquot : (bytesToInt bs * 256 + b.toNat) / 256 = bytesToInt bs := by omega
    have hlow : BitVec.ofNat 8 (bytesToInt bs * 256 + b.toNat) = b :=
      BitVec.eq_of_toNat_eq (by rw [BitVec.toNat_ofNat]; omega)
    rw [bytesToInt_concat, intToBytes_of_ne_zero hne, hquot, hinit, hlow]

/-- Settles O55: the sum and the round trips by induction on the bytes and on the number. -/
theorem bytesAndIntegersConvert : Obligations.BytesAndIntegersConvert := by
  refine ⟨bytesToInt_eq_sum, fun v => ⟨bytesToInt_intToBytes v, ?_⟩,
    fun bs => ⟨fun h => h ▸ intToBytes_head?_ne_zero _, intToBytes_bytesToInt⟩, intToBytes_zero⟩
  rw [intToBytes_length, byteLength, ceilDiv, bitLen_eq_size]
  rfl

end Sys2Proof.Machine
end

section
/-! Exceptions (60_exceptions.md): which accesses the bus refuses and what a refused access leaves, and the error
branch of a completion. -/

namespace Sys2Proof.Machine

/-! ### What the bus refuses (60_exceptions.md R182) -/

/-- Of the map's targets only a limb refuses a read, and only while BUSY = 1 (20_memory.md R55). -/
theorem mayRead_eq_false_iff {addr : Nat} {t : Target} {s : State} (ht : targetAt s.config addr = some t) :
    mayRead t s = false ↔ s.status.busy = true ∧ InOperandWindow addr := by
  rcases targetAt_cases ht with ⟨rfl, rfl⟩ | ⟨rfl, rfl⟩ | ⟨rfl, rfl⟩ | ⟨rfl, rfl⟩ | ⟨rfl, rfl⟩ | ⟨rfl, rfl⟩ |
    ⟨k, i, rfl, hw⟩
  iterate 6 · simp [mayRead, InOperandWindow]
  · simp [mayRead, hw]

/-- Four of the map's targets refuse every write, the others a write while BUSY = 1 (20_memory.md R52, R55). -/
theorem mayWrite_eq_false_iff {addr : Nat} {t : Target} {s : State} (ht : targetAt s.config addr = some t) :
    mayWrite t s = false ↔ (addr = 0x000 ∨ addr = 0x004 ∨ addr = 0x00C ∨ addr = 0x014) ∨
      (s.status.busy = true ∧ (addr = 0x008 ∨ addr = 0x010)) ∨ (s.status.busy = true ∧ InOperandWindow addr) := by
  rcases targetAt_cases ht with ⟨rfl, rfl⟩ | ⟨rfl, rfl⟩ | ⟨rfl, rfl⟩ | ⟨rfl, rfl⟩ | ⟨rfl, rfl⟩ | ⟨rfl, rfl⟩ |
    ⟨k, i, rfl, hw⟩
  iterate 6 · simp [mayWrite, InOperandWindow]
  · have hne : ∀ c < 0x1000, addr ≠ c := fun c hc => (hc.trans_le hw.1).ne'
    simp [mayWrite, hw, hne]

/-- A read is refused for its size, for an offset without a target, or by its target (20_memory.md R50). -/
theorem memRead_eq_err_iff (addr n : Nat) (s : State) :
    memRead addr n s = .err ↔
      n ≠ 4 ∨ targetAt s.config addr = none ∨ (s.status.busy = true ∧ InOperandWindow addr) := by
  cases ht : targetAt s.config addr with
  | none => simp [memRead, ht]
  | some t => simp [memRead, ht, ← mayRead_eq_false_iff ht, imp_iff_not_or]

/-- A write is refused for its size, for an offset without a target, or by its target (20_memory.md R51). -/
theorem memWrite_eq_err_iff (addr n : Nat) (v : Word) (s : State) :
    (memWrite addr n v s).1 = .err ↔
      n ≠ 4 ∨ targetAt s.config addr = none ∨ (addr = 0x000 ∨ addr = 0x004 ∨ addr = 0x00C ∨ addr = 0x014) ∨
        (s.status.busy = true ∧ (addr = 0x008 ∨ addr = 0x010)) ∨
        (s.status.busy = true ∧ InOperandWindow addr) := by
  cases ht : targetAt s.config addr with
  | none => simp [memWrite, ht]
  | some t => simp [memWrite, ht, ← mayWrite_eq_false_iff ht, apply_ite Prod.fst, imp_iff_not_or]

/-- The bus answers `ERR` to the listed accesses and to no other. -/
theorem accessResponse_eq_err_iff (a : Access) (s : State) : accessResponse a s = .err ↔ Refused s a := by
  cases a with
  | read addr n => simp only [accessResponse, memRead_eq_err_iff, targetAt_none_iff, Refused, or_assoc]
  | write addr n v => simp only [accessResponse, memWrite_eq_err_iff, targetAt_none_iff, Refused, or_assoc]

/-! ### What a refused access leaves (60_exceptions.md R182) -/

/-- An access answered with `ERR` does not change the block. -/
theorem accessEffect_of_err {a : Access} {s : State} (h : accessResponse a s = .err) : accessEffect a s = s := by
  rcases accessEffect_cases a s with heq | ⟨-, n, v, addr, -, hok, -⟩
  · exact heq
  · rw [h] at hok
    cases hok

/-- The host's step of a refused access leaves the answer on the bus and nothing else. -/
theorem hostAccess_of_err {a : Access} {s : State} (h : accessResponse a s = .err) :
    hostAccess a s = { s with response := some .err } := by
  rw [hostAccess, accessEffect_of_err h, h]

/-- Settles O10: the list is what the map and BUSY do not admit, and a step goes by the answer alone. -/
theorem busRefusesExactlyTheListedAccesses : Obligations.BusRefusesExactlyTheListedAccesses := by
  refine fun s a => ⟨accessResponse_eq_err_iff a s, fun hrefused => ?_⟩
  have herr : accessResponse a s = .err := (accessResponse_eq_err_iff a s).2 hrefused
  refine ⟨accessEffect_of_err herr, fun rest => ?_⟩
  have herrAt : accessResponse a { s with agenda := rest } = .err := (access_withAgenda a s rest).2.trans herr
  exact ⟨congrArg Host.Outcome.next (hostAccess_of_err herrAt), if_pos herrAt⟩

/-! ### Raising an error (60_exceptions.md R185) -/

/-- The error branch of a completion is the failed state with the error's number, for every error. -/
theorem complete_error (e : CmdError) (s : State) : complete (.error e) s = failedWith (errorCode e) s := rfl

/-- Settles O19: the numbers of the five errors (60_exceptions.md R180). -/
theorem raiseChangesOnlyStatusAndTrialcnt : Obligations.RaiseChangesOnlyStatusAndTrialcnt := fun s =>
  ⟨complete_error .illegal s, complete_error .noInverse s, complete_error .zeroMod s, complete_error .operand s,
    complete_error .range s⟩

end Sys2Proof.Machine
end

section
/-! Reset and hazards (70_reset_and_hazards.md): what the commands do on registers that were never loaded, which
hold 0. -/

namespace Sys2Proof.Machine

/-! ### Domain error and draw (40_primality.md R106, 41_sampler.md R124) -/

/-- Outside its domain MRTRIAL ends with E_OPERAND. -/
theorem exec_mrtrial_of_outside {rn ra : RegNo} {s : State}
    (h : readReg rn s < 5 ∨ readReg rn s % 2 = 0 ∨ readReg ra s < 2 ∨ readReg rn s - 2 < readReg ra s) :
    exec (.mrtrial rn ra) s = .next (failedWith 4 s) := by
  have houtcome : mrtrialOutcome (readReg rn s) (readReg ra s) = .error .operand := by
    rw [mrtrialOutcome]
    split
    · rfl
    · exact if_pos (by omega)
  rw [exec, execMrtrial, houtcome]
  rfl

/-- A range of one value is drawn without a word. -/
theorem sampleRange_self (v : Nat) (ws : List Word) : sampleRange v v ws = some (v, ws) := by
  have haccepted : AcceptedAttempt v v [] := by
    simp [AcceptedAttempt, attemptWords, attemptValue, assemble]
  simpa [attemptValue, assemble] using sampleRange_accepted_append haccepted ws

/-- Where the sampler ends, SAMPLE writes its draw, the drawn words popped. -/
theorem exec_sample_of_sampleRange {rlo rhi : RegNo} {s : State} {v : Nat} {rest : List Word}
    (hle : readReg rlo s ≤ readReg rhi s)
    (h : sampleRange (readReg rlo s) (readReg rhi s) s.entropy = some (v, rest)) (rd : RegNo) :
    exec (.sample rd rlo rhi) s = .next (completedWith (s.x.set rd.val v) false false false 0 (popTo rest s)) := by
  simp only [exec, execSample, if_neg (Nat.not_lt.2 hle), h]
  rfl

/-! ### Registers that were never loaded (70_reset_and_hazards.md R204) -/

/-- Writing to a register the value it holds changes no register. -/
theorem set_readReg_self (k : RegNo) (s : State) : s.x.set k.val (readReg k s) = s.x :=
  Vector.set_getElem_self k.isLt

section
variable {s : State} (hzero : ∀ k : RegNo, readReg k s = 0)
include hzero

/-- EGCD writes the triple (0, 0, 1) of two zeros; of its destinations only `ry` changes. -/
theorem exec_egcd_of_regs_zero (hc : s.config.Wf) {rg rx ry : RegNo} (hgx : rg ≠ rx) (hgy : rg ≠ ry)
    (hxy : rx ≠ ry) (ra rb : RegNo) :
    exec (.egcd rg rx ry ra rb) s = .next (completedWith (s.x.set ry.val 1) false false false 0 s) := by
  have hset (k : RegNo) : s.x.set k.val 0 = s.x := hzero k ▸ set_readReg_self k s
  have hfits (k : RegNo) : readReg k s < 2 ^ s.config.width := hzero k ▸ Nat.two_pow_pos _
  have htriple : extendedGcd (readReg ra s) (readReg rb s) = (0, 0, 1) := by
    rw [hzero ra, hzero rb, extendedGcd_zero_left]
  obtain ⟨-, -, hresult⟩ := egcdResult rg rx ry ra rb s 0 0 1
  rw [hresult hgx hgy hxy hc (hfits ra) (hfits rb) htriple, Int.natAbs_zero, hset rg, hset rx]
  rfl

/-- MRTEST rejects 0 without a draw. -/
theorem exec_mrtest_of_regs_zero (rn : RegNo) :
    exec (.mrtest rn) s = .next (completedWith s.x false false false 0 s) := by
  have hscreen : prescreen (readReg rn s) = .reject := prescreen_eq_reject (.inl (hzero rn ▸ Nat.zero_le 1))
  exact exec_mrtest_of_noDraw (isProbablyPrime_of_reject hscreen _ _)

/-- SAMPLE draws the one value 0 of its range without popping a word. -/
theorem exec_sample_of_regs_zero (rd rlo rhi : RegNo) :
    exec (.sample rd rlo rhi) s = .next (completedWith s.x false false false 0 s) := by
  have hbounds : readReg rhi s = readReg rlo s := (hzero rhi).trans (hzero rlo).symm
  have hdraw : sampleRange (readReg rlo s) (readReg rhi s) s.entropy = some (readReg rd s, s.entropy) := by
    rw [hbounds, sampleRange_self, hzero rlo, hzero rd]
  rw [exec_sample_of_sampleRange hbounds.ge hdraw rd, popTo_self, set_readReg_self]

end

/-- Settles O47: reset clears every operand register and a launch writes none, so each command works on zeros. -/
theorem neverLoadedRegistersHoldZero : Obligations.NeverLoadedRegistersHoldZero := by
  rintro c w a b d e f s hc rfl
  have hzero (k : RegNo) : readReg k (launch w (State.resetOf c)) = 0 := by simp
  refine ⟨exec_modexp_of_zero (hzero e) a b d, exec_modinv_of_zero (hzero d) a b,
    fun hab had hbd => exec_egcd_of_regs_zero hzero hc hab had hbd e f, exec_mrtest_of_regs_zero hzero a,
    exec_mrtrial_of_outside (.inl ?small), exec_sample_of_regs_zero hzero a b d⟩
  case small => rw [hzero a]; decide

end Sys2Proof.Machine
end

section
/-! The command word once more (30_encoding.md R77): the encoder writes a word of the command's row, and a word is
its opcode and its five register fields. -/

namespace Sys2Proof.Machine

/-- The word of a well-formed command is of the command's row: each operand in its field, every other bit 0. -/
theorem selectsRow_encode {i : Instr} (h : i.wellFormed = true) : SelectsRow (encode i) i := by
  cases i with
  | modexp rd rb re rm =>
    obtain ⟨hf0, hf1, hf2, hf3, hf4, hreserved, hop⟩ :=
      buildWord_regField (op := 0x01) (by decide) rd rb re rm 0
    exact ⟨hreserved, hop, regField_eq_iff.1 hf4, hf0, hf1, hf2, hf3⟩
  | egcd rg rx ry ra rb =>
    obtain ⟨hf0, hf1, hf2, hf3, hf4, hreserved, hop⟩ :=
      buildWord_regField (op := 0x02) (by decide) rg rx ry ra rb
    exact ⟨hreserved, hop, distinctDests_iff.1 h, hf0, hf1, hf2, hf3, hf4⟩
  | modinv rd ra rm =>
    obtain ⟨hf0, hf1, hf2, hf3, hf4, hreserved, hop⟩ :=
      buildWord_regField (op := 0x03) (by decide) rd ra rm 0 0
    exact ⟨hreserved, hop, bitsAt_seventeen_eq_zero_iff.2 ⟨regField_eq_iff.1 hf3, regField_eq_iff.1 hf4⟩,
      hf0, hf1, hf2⟩
  | mrtest rn =>
    obtain ⟨hf0, hf1, hf2, hf3, hf4, hreserved, hop⟩ :=
      buildWord_regField (op := 0x04) (by decide) 0 rn 0 0 0
    exact ⟨hreserved, hop, regField_eq_iff.1 hf0, bitsAt_fourteen_eq_zero_iff.2
      ⟨regField_eq_iff.1 hf2, regField_eq_iff.1 hf3, regField_eq_iff.1 hf4⟩, hf1⟩
  | mrtrial rn ra =>
    obtain ⟨hf0, hf1, hf2, hf3, hf4, hreserved, hop⟩ :=
      buildWord_regField (op := 0x05) (by decide) 0 rn ra 0 0
    exact ⟨hreserved, hop, regField_eq_iff.1 hf0,
      bitsAt_seventeen_eq_zero_iff.2 ⟨regField_eq_iff.1 hf3, regField_eq_iff.1 hf4⟩, hf1, hf2⟩
  | sample rd rlo rhi =>
    obtain ⟨hf0, hf1, hf2, hf3, hf4, hreserved, hop⟩ :=
      buildWord_regField (op := 0x06) (by decide) rd rlo rhi 0 0
    exact ⟨hreserved, hop, bitsAt_seventeen_eq_zero_iff.2 ⟨regField_eq_iff.1 hf3, regField_eq_iff.1 hf4⟩,
      hf0, hf1, hf2⟩

/-- Settles O1: the encoder writes a word of the command's row, and the decoder answers the row's command. -/
theorem decodeOfEncodeIsTheCommand : Obligations.DecodeOfEncodeIsTheCommand := fun _ h =>
  decode_of_selectsRow (selectsRow_encode h)

/-- A word whose reserved field is 0 is built from its opcode and its five register fields. -/
theorem buildWord_of_fields {w : Word} (h : bitsAt w 23 9 = 0) :
    buildWord (bitsAt w 0 8) (regField w 8) (regField w 11) (regField w 14) (regField w 17) (regField w 20) = w := by
  have hop : bitsAt w 0 8 < 256 := Nat.mod_lt _ (by decide)
  have hw := w.isLt
  refine BitVec.eq_of_toNat_eq ?_
  rw [buildWord_toNat hop]
  simp only [regField_val]
  unfold bitsAt at *
  omega

/-- A word of a command's row is the command's encoding, and the command is well-formed. -/
theorem encode_of_selectsRow {w : Word} {i : Instr} (h : SelectsRow w i) :
    encode i = w ∧ i.wellFormed = true := by
  obtain ⟨hreserved, hrow⟩ := h
  have hw := buildWord_of_fields hreserved
  have hzero {lo : Nat} (h0 : bitsAt w lo 3 = 0) : regField w lo = 0 := regField_eq_iff.2 h0
  cases i with
  | modexp rd rb re rm =>
    obtain ⟨hop, hf4, rfl, rfl, rfl, rfl⟩ := hrow
    rw [hop, hzero hf4] at hw
    exact ⟨hw, rfl⟩
  | egcd rg rx ry ra rb =>
    obtain ⟨hop, hdests, rfl, rfl, rfl, rfl, rfl⟩ := hrow
    rw [hop] at hw
    exact ⟨hw, distinctDests_iff.2 hdests⟩
  | modinv rd ra rm =>
    obtain ⟨hop, hf34, rfl, rfl, rfl⟩ := hrow
    obtain ⟨hf3, hf4⟩ := bitsAt_seventeen_eq_zero_iff.1 hf34
    rw [hop, hzero hf3, hzero hf4] at hw
    exact ⟨hw, rfl⟩
  | mrtest rn =>
    obtain ⟨hop, hf0, hf234, rfl⟩ := hrow
    obtain ⟨hf2, hf3, hf4⟩ := bitsAt_fourteen_eq_zero_iff.1 hf234
    rw [hop, hzero hf0, hzero hf2, hzero hf3, hzero hf4] at hw
    exact ⟨hw, rfl⟩
  | mrtrial rn ra =>
    obtain ⟨hop, hf0, hf34, rfl, rfl⟩ := hrow
    obtain ⟨hf3, hf4⟩ := bitsAt_seventeen_eq_zero_iff.1 hf34
    rw [hop, hzero hf0, hzero hf3, hzero hf4] at hw
    exact ⟨hw, rfl⟩
  | sample rd rlo rhi =>
    obtain ⟨hop, hf34, rfl, rfl, rfl⟩ := hrow
    obtain ⟨hf3, hf4⟩ := bitsAt_seventeen_eq_zero_iff.1 hf34
    rw [hop, hzero hf3, hzero hf4] at hw
    exact ⟨hw, rfl⟩

/-- Settles O2: what decodes is of the command's row, and only the command's encoding is. -/
theorem decodedCommandsEncodeBack : Obligations.DecodedCommandsEncodeBack := fun _ _ h =>
  encode_of_selectsRow (selectsRow_of_decode h)

/-- Settles O5: each word is the encoding of its command. -/
theorem specWordsDecode : Obligations.SpecWordsDecode := by
  have hdecode {w : Word} {i : Instr} (hword : encode i = w) (h : i.wellFormed = true) :
      decode w = .command i := hword ▸ decodeOfEncodeIsTheCommand i h
  refine ⟨hdecode ?_ rfl, hdecode ?_ rfl, hdecode ?_ rfl, hdecode ?_ rfl, hdecode ?_ rfl, hdecode ?_ rfl⟩ <;> decide

end Sys2Proof.Machine
end

section
/-! The register window and one step of the machine: what an admitted access does (20_memory.md), STATUS as the host
reads it (10_state.md R30), and whose turn a step is (20_memory.md R61). -/

namespace Sys2Proof.Machine

/-! ### Writes to the window (20_memory.md R54, R58) -/

/-- A value with one limb replaced twice by the same word is the value with it replaced once. -/
theorem withLimb_withLimb (v i : Nat) (d : Word) : withLimb (withLimb v i d) i d = withLimb v i d := by
  have hP : 0 < 2 ^ (32 * i) := Nat.two_pow_pos _
  have hd := d.isLt
  have hlow : withLimb v i d % 2 ^ (32 * i) = v % 2 ^ (32 * i) := by
    rw [withLimb_eq, Nat.add_mul_mod_self_left, Nat.mod_mod]
  have hhigh : withLimb v i d / 2 ^ (32 * i) / 2 ^ 32 = v / 2 ^ (32 * i) / 2 ^ 32 := by
    rw [withLimb_eq, Nat.add_mul_div_left _ _ hP, Nat.div_eq_of_lt (Nat.mod_lt _ hP)]
    omega
  rw [withLimb_eq (withLimb v i d), hlow, hhigh, ← withLimb_eq]

/-- On an idle block a write of limb `i` of `x[k]` replaces that limb. -/
theorem memWrite_limbAddr {s : State} (hc : s.config.Wf) {i : Nat} (hi : i < s.config.limbs)
    (hidle : s.status.busy = false) (k : RegNo) (v : Word) :
    memWrite (limbAddr k i) 4 v s = (.ok, writeReg k (withLimb (readReg k s) i v) s) :=
  memWrite_of_target (targetAt_limbAddr hc hi k) (by simp [mayWrite, hidle]) v

/-- On an idle block a write to ROUNDS stores the word. -/
theorem memWrite_rounds_of_idle {s : State} (hidle : s.status.busy = false) (v : Word) :
    memWrite 0x010 4 v s = (.ok, { s with rounds := v }) :=
  memWrite_of_target (t := .rounds) rfl (by simp [mayWrite, hidle]) v

/-- Settles O14: the new value is the formula's, and its limbs are those of the old one but for limb `i`. -/
theorem limbWriteReplacesOneLimb : Obligations.LimbWriteReplacesOneLimb := by
  intro s k i v hc hi hidle
  refine ⟨withLimb (readReg k s) i v, memWrite_limbAddr hc hi hidle k v, ?formula, ?newLimb, fun j hj => ?otherLimbs⟩
  case formula => simp [withLimb, slice, show 32 * i + 31 + 1 - 32 * i = 32 by omega]
  case newLimb => rw [withLimb_limb, if_pos rfl]
  case otherLimbs => rw [withLimb_limb, if_neg hj]

/-- Settles O16: idle, the write stores the word; in flight, every write is refused. -/
theorem roundsWriteStoresTheWord : Obligations.RoundsWriteStoresTheWord := fun _ v =>
  ⟨fun hidle => memWrite_rounds_of_idle hidle v, fun hbusy => memWrite_of_busy hbusy 0x010 4 v⟩

/-- Of two writes to one register the second holds. -/
theorem writeReg_writeReg_self (k : RegNo) (u v : Nat) (s : State) :
    writeReg k v (writeReg k u s) = writeReg k v s := by
  simp [writeReg]

/-- A write of a word to a target other than CMD, done twice, leaves what it leaves done once. -/
theorem writeTarget_writeTarget {t : Target} (ht : t ≠ .cmd) (v : Word) (s : State) :
    writeTarget t v (writeTarget t v s) = writeTarget t v s := by
  cases t with
  | cmd => exact absurd rfl ht
  | limb k i => simp only [writeTarget, readReg_writeReg_self, withLimb_withLimb, writeReg_writeReg_self]
  | id => rfl
  | cfg => rfl
  | status => rfl
  | rounds => rfl
  | trialcnt => rfl

/-- No write but the launch changes what the block lets be written. -/
theorem mayWrite_writeTarget {t : Target} (ht : t ≠ .cmd) (v : Word) (s : State) :
    mayWrite t (writeTarget t v s) = mayWrite t s := by
  cases t with
  | cmd => exact absurd rfl ht
  | limb k i => rfl
  | id => rfl
  | cfg => rfl
  | status => rfl
  | rounds => rfl
  | trialcnt => rfl

/-- No write changes the parameters. -/
theorem writeTarget_config (t : Target) (v : Word) (s : State) : (writeTarget t v s).config = s.config := by
  cases t <;> rfl

/-- Only offset 8 is CMD's (20_memory.md R52). -/
theorem targetAt_cmd {c : Config} {addr : Nat} (h : targetAt c addr = some .cmd) : addr = 0x008 := by
  rcases targetAt_cases h with ⟨ht, -⟩ | ⟨ht, -⟩ | ⟨-, haddr⟩ | ⟨ht, -⟩ | ⟨ht, -⟩ | ⟨ht, -⟩ | ⟨k, i, ht, -⟩
  case inr.inr.inl => exact haddr
  all_goals cases ht

/-- Only offset 16 is ROUNDS' (20_memory.md R52). -/
theorem targetAt_rounds {c : Config} {addr : Nat} (h : targetAt c addr = some .rounds) : addr = 0x010 := by
  rcases targetAt_cases h with ⟨ht, -⟩ | ⟨ht, -⟩ | ⟨ht, -⟩ | ⟨ht, -⟩ | ⟨-, haddr⟩ | ⟨ht, -⟩ | ⟨k, i, ht, -⟩
  case inr.inr.inr.inr.inl => exact haddr
  all_goals cases ht

/-- Settles O17: the second write meets the same target, admits it again and stores what is there. -/
theorem writesButLaunchesAreIdempotent : Obligations.WritesButLaunchesAreIdempotent := by
  intro s addr n v haddr
  rcases memWrite_cases addr n v s with h | ⟨t, ht, rfl, hw, h⟩
  · simp [h]
  · have hcmd : t ≠ .cmd := by
      rintro rfl
      exact haddr (targetAt_cmd ht)
    rw [h, memWrite_of_target (by rwa [writeTarget_config]) ((mayWrite_writeTarget hcmd v s).trans hw),
      writeTarget_writeTarget hcmd]

/-! ### STATUS (10_state.md R30) -/

/-- Settles O12: the fields of STATUS do not overlap in its number. -/
theorem statusWordHoldsEveryField : Obligations.StatusWordHoldsEveryField := by
  intro f
  have hbusy := f.busy.toNat_lt
  have hdone := f.done.toNat_lt
  have herr := f.err.toNat_lt
  have hverdict := f.verdict.toNat_lt
  have hxneg := f.xneg.toNat_lt
  have hyneg := f.yneg.toNat_lt
  have hcode := f.errCode.isLt
  simp only [bitsAt, statusWord_toNat]
  refine ⟨?_, ?_, ?_, ?_, ?_, ?_, ?_, ?_, ?_⟩ <;> omega

/-! ### Whose turn a step is (20_memory.md R61) -/

/-- With nothing to come the engine moves. -/
theorem step_of_agenda_nil {s : State} (h : s.agenda = []) : step s = engineStep s := by
  simp [step, h]

/-- The agent at the head of the agenda moves. -/
theorem step_of_agenda_cons {s : State} {e : Event} {rest : List Event} (h : s.agenda = e :: rest) :
    step s = perform e { s with agenda := rest } := by
  simp [step, h]

/-- With a command in flight the engine's turn is its completion step (30_encoding.md R76). -/
theorem engineStep_of_decode {s : State} {i : Instr} (hbusy : s.status.busy = true)
    (hi : decode s.cmd = .command i) : engineStep s = exec i s := by
  simp [engineStep, hbusy, fetch, hi]

/-- An idle engine changes nothing (60_exceptions.md R197). -/
theorem engineStep_of_idle {s : State} (hidle : s.status.busy = false) : engineStep s = .next s := by
  simp [engineStep, hidle]

/-- Settles O6: both forms of the engine's turn are `engineStep`, which runs the decoded command. -/
theorem stepRunsTheDecodedCommand : Obligations.StepRunsTheDecodedCommand := fun _ _ hbusy hi =>
  ⟨fun hnil => (step_of_agenda_nil hnil).trans (engineStep_of_decode hbusy hi),
    fun _ hcons => (step_of_agenda_cons hcons).trans (engineStep_of_decode hbusy hi)⟩

/-- Settles O7: both forms of the engine's turn are `engineStep`, which leaves an idle block alone. -/
theorem idleBlockKeepsItsState : Obligations.IdleBlockKeepsItsState := fun _ hidle =>
  ⟨fun hnil => (step_of_agenda_nil hnil).trans (engineStep_of_idle hidle),
    fun _ hcons => (step_of_agenda_cons hcons).trans (engineStep_of_idle hidle)⟩

/-- The step of an admitted access performs it, a line of a host program like a plain access. -/
theorem step_of_admitted {s : State} {a : Access} (ha : ¬ Refused s a) {e : Event}
    (he : e = .host a ∨ e = .hostLine a) (rest : List Event) :
    step { s with agenda := e :: rest } =
      .next { accessEffect a s with agenda := rest, response := some (accessResponse a s) } := by
  obtain ⟨heffect, hresponse⟩ := access_withAgenda a s rest
  have hhost : hostAccess a { s with agenda := rest } =
      { accessEffect a s with agenda := rest, response := some (accessResponse a s) } := by
    rw [hostAccess, heffect, hresponse]
  have hne : accessResponse a { s with agenda := rest } ≠ .err := by
    rw [hresponse]
    exact fun h => ha ((accessResponse_eq_err_iff a s).1 h)
  rw [step_of_agenda_cons rfl]
  rcases he with rfl | rfl
  · exact congrArg Host.Outcome.next hhost
  · exact (if_neg hne).trans (congrArg Host.Outcome.next hhost)

/-- An admitted read is answered with a word (20_memory.md R50). -/
theorem accessResponse_of_admitted_read {s : State} {addr n : Nat} (h : ¬ Refused s (.read addr n)) :
    ∃ w, accessResponse (.read addr n) s = .okData w := by
  rcases memRead_cases addr n s with herr | ⟨t, -, -, -, hok⟩
  · exact absurd ((accessResponse_eq_err_iff (.read addr n) s).1 herr) h
  · exact ⟨_, hok⟩

/-- An admitted write is answered with OK (20_memory.md R51). -/
theorem accessResponse_of_admitted_write {s : State} {addr n : Nat} {v : Word} (h : ¬ Refused s (.write addr n v)) :
    accessResponse (.write addr n v) s = .ok := by
  rcases memWrite_cases addr n v s with herr | ⟨t, -, -, -, hok⟩
  · exact absurd ((accessResponse_eq_err_iff (.write addr n v) s).1 (congrArg Prod.fst herr)) h
  · exact congrArg Prod.fst hok

/-- Settles O8: the host's step is the access, a launch among them; the source's step appends its word. -/
theorem hostAndEntropyStepsDoTheirWork : Obligations.HostAndEntropyStepsDoTheirWork := by
  refine fun s rest => ⟨fun a ha e he => step_of_admitted ha he rest,
    fun addr n h => ⟨rfl, accessResponse_of_admitted_read h⟩, fun addr n v h => accessResponse_of_admitted_write h,
    fun v hidle => ?launch, fun w => rfl⟩
  case launch =>
    have hwrite := memWrite_cmd_of_idle hidle v
    have hadmitted : ¬ Refused s (.write 0x008 4 v) := by
      rw [← accessResponse_eq_err_iff, accessResponse, hwrite]
      exact nofun
    rw [step_of_admitted hadmitted (.inl rfl), accessEffect, accessResponse, hwrite]
    rfl

/-- Whether an access is refused does not depend on the steps to come. -/
theorem refused_withAgenda (s : State) (a : Access) (es : List Event) :
    Refused { s with agenda := es } a ↔ Refused s a := by
  rw [← accessResponse_eq_err_iff, ← accessResponse_eq_err_iff, (access_withAgenda a s es).2]

/-- One agent's step stops exactly at a refused line of a host program. -/
theorem perform_next_or_fault (e : Event) (s : State) :
    (∃ t, perform e s = .next t) ∨ ∃ a, e = .hostLine a ∧ Refused s a := by
  cases e with
  | engine => exact .inl ⟨_, engineStep_eq_engineTurn s⟩
  | host a => exact .inl ⟨_, rfl⟩
  | hostLine a =>
    by_cases herr : accessResponse a s = .err
    · exact .inr ⟨a, rfl, (accessResponse_eq_err_iff a s).1 herr⟩
    · exact .inl ⟨_, if_neg herr⟩
  | entropy w => exact .inl ⟨_, rfl⟩
  | reset lost => exact .inl ⟨_, rfl⟩

/-- Settles O9: a refused line at the head of the agenda faults; every other agent's step has a next state. -/
theorem stepStopsOnlyAtARefusedLine : Obligations.StepStopsOnlyAtARefusedLine := by
  refine fun s => ⟨?refused, fun hnot => ?others⟩
  case refused =>
    rintro ⟨a, rest, hagenda, hrefused⟩
    rw [step_of_agenda_cons hagenda]
    exact if_pos ((accessResponse_eq_err_iff _ _).2 ((refused_withAgenda s a rest).2 hrefused))
  case others =>
    rcases step_cases s with ⟨-, hstep⟩ | ⟨e, rest, hagenda, hstep⟩
    · exact ⟨_, hstep.trans (engineStep_eq_engineTurn s)⟩
    · rcases perform_next_or_fault e { s with agenda := rest } with ⟨t, ht⟩ | ⟨a, rfl, hrefused⟩
      · exact ⟨t, hstep.trans ht⟩
      · exact absurd ⟨a, rest, hagenda, (refused_withAgenda s a rest).1 hrefused⟩ hnot

end Sys2Proof.Machine
end

section
/-! What a step can do, said once, and what every step keeps: the invariants (10_state.md R37), the parameters
(00_scope.md R6) and DONE (20_memory.md R61). -/

namespace Sys2Proof.Machine

/-! ### What a step can do -/

/-- The engine's turn, taken apart: idle, or a command that waits or ends with its outcome, or an illegal word
(30_encoding.md R76, R79). -/
theorem engineStep_next_cases {s t : State} (h : engineStep s = .next t) :
    (s.status.busy = false ∧ t = s) ∨
    s.status.busy = true ∧
      ((∃ i, fetch s = .command i ∧ popsEntropy i = true ∧ t = s) ∨
       (∃ i o rest, fetch s = .command i ∧ EndsWith i s o rest ∧ t = complete o (popTo rest s)) ∨
       (∃ why, fetch s = .illegal why ∧ t = raiseError .illegal s)) := by
  rcases engineStep_cases s with ⟨hidle, hstep⟩ | ⟨hbusy, i, hi, hstep⟩ | ⟨hbusy, why, hwhy, hstep⟩ <;>
    rw [hstep] at h
  · exact .inl ⟨hidle, (Host.Outcome.next.inj h).symm⟩
  · rcases exec_outcome i s with ⟨hpops, hexec⟩ | ⟨o, rest, hends, hexec⟩ <;> rw [hexec] at h
    · exact .inr ⟨hbusy, .inl ⟨i, hi, hpops, (Host.Outcome.next.inj h).symm⟩⟩
    · exact .inr ⟨hbusy, .inr (.inl ⟨i, o, rest, hi, hends, (Host.Outcome.next.inj h).symm⟩)⟩
  · exact .inr ⟨hbusy, .inr (.inr ⟨why, hwhy, (Host.Outcome.next.inj h).symm⟩)⟩

/-- What one step of the machine can lead to, whichever agent moves (00_scope.md R3). The agenda and the bus' answer
move on; of the rest only the named fields change. -/
inductive StepsTo (s : State) : State → Prop
  /-- The engine's turn. -/
  | engine {t : State} (es : List Event) (h : engineStep { s with agenda := es } = .next t) : StepsTo s t
  /-- A read or a refused access. -/
  | unchanged (es : List Event) (a : Option BusResponse) : StepsTo s { s with agenda := es, response := a }
  | launched (es : List Event) (a : Option BusResponse) (v : Word) (h : NextWrites s 0x008) :
      StepsTo s { launch v s with agenda := es, response := a }
  | roundsWritten (es : List Event) (a : Option BusResponse) (v : Word) (h : NextWrites s 0x010) :
      StepsTo s { s with rounds := v, agenda := es, response := a }
  | limbWritten (es : List Event) (a : Option BusResponse) (k : RegNo) (i : Nat) (v : Word)
      (hi : i < s.config.limbs) :
      StepsTo s { writeReg k (withLimb (readReg k s) i v) s with agenda := es, response := a }
  | supplied (es : List Event) (ws : List Word) : StepsTo s { s with agenda := es, entropy := ws }
  | reset (es : List Event) (lost : Nat) (h : NextResets s) : StepsTo s (resetStep lost { s with agenda := es })

/-- Only accesses of four bytes are admitted (20_memory.md R51). -/
theorem size_of_write_ok {addr n : Nat} {v : Word} {s : State} (h : accessResponse (.write addr n v) s = .ok) :
    n = 4 := by
  rcases memWrite_cases addr n v s with herr | ⟨t, -, hn, -, -⟩
  · rw [accessResponse, herr] at h
    cases h
  · exact hn

/-- The host's step, by what its access does to the block. -/
theorem stepsTo_of_hostAccess {s : State} {a : Access} {e : Event} {rest : List Event} (hs : s.agenda = e :: rest)
    (he : e = .host a ∨ e = .hostLine a) : StepsTo s (hostAccess a { s with agenda := rest }) := by
  rw [hostAccess, (access_withAgenda a s rest).1]
  rcases accessEffect_cases a s with heq | ⟨hidle, n, v, addr, rfl, hok, hwhat⟩
  · rw [heq]
    exact .unchanged rest _
  · obtain rfl := size_of_write_ok hok
    have hnext : NextWrites s addr := by
      rcases he with rfl | rfl
      · exact ⟨v, rest, .inl hs, hidle⟩
      · exact ⟨v, rest, .inr hs, hidle⟩
    rcases hwhat with ⟨htarget, heq⟩ | ⟨htarget, heq⟩ | ⟨k, i, hi, -, heq⟩ <;> rw [heq]
    · exact .launched rest _ v (targetAt_cmd htarget ▸ hnext)
    · exact .roundsWritten rest _ v (targetAt_rounds htarget ▸ hnext)
    · exact .limbWritten rest _ k i v hi

/-- Every step is one of these. -/
theorem stepsTo_of_step {s t : State} (h : step s = .next t) : StepsTo s t := by
  rcases step_cases s with ⟨-, hstep⟩ | ⟨e, rest, hagenda, hstep⟩ <;> rw [hstep] at h
  · exact .engine s.agenda h
  · rcases perform_cases h with ⟨-, hengine⟩ | ⟨a, he, rfl⟩ | ⟨w, -, rfl⟩ | ⟨lost, rfl, rfl⟩
    · exact .engine rest hengine
    · exact stepsTo_of_hostAccess hagenda (he.imp_right And.left)
    · exact .supplied rest _
    · exact .reset rest lost ⟨lost, rest, hagenda⟩

/-! ### The invariants (10_state.md R37) -/

/-- The invariants speak of the parameters, the registers, CMD, STATUS and TRIALCNT only, and of the registers only
that they fit. -/
theorem State.Inv.with_fitting_regs {s t : State} (h : s.Inv) (hconfig : t.config = s.config)
    (hx : ∀ k, readReg k t < 2 ^ s.config.width)
    (hcmd : t.cmd = s.cmd) (hstatus : t.status = s.status) (htrialcnt : t.trialcnt = s.trialcnt) : t.Inv := by
  obtain ⟨tc, tx, tcmd, tst, tr, ttc, te, tp, ta, tresp⟩ := t
  obtain rfl := hconfig
  obtain rfl := hcmd
  obtain rfl := hstatus
  obtain rfl := htrialcnt
  obtain ⟨h1, -, h3, h4, h5, h6, h7, h8, h9, h10⟩ := h
  exact ⟨h1, hx, h3, h4, h5, h6, h7, h8, h9, h10⟩

/-- The invariants hold of a state with the same parameters, registers, CMD, STATUS and TRIALCNT. -/
theorem State.Inv.congr {s t : State} (h : s.Inv) (hconfig : t.config = s.config) (hx : t.x = s.x)
    (hcmd : t.cmd = s.cmd) (hstatus : t.status = s.status) (htrialcnt : t.trialcnt = s.trialcnt) : t.Inv :=
  h.with_fitting_regs hconfig (fun k => readReg_of_x_eq hx k ▸ h.regs_fit k) hcmd hstatus htrialcnt

/-- A launch keeps the invariants: BUSY is set and every result cleared (30_encoding.md R75). -/
theorem State.Inv.launch {s : State} (h : s.Inv) (w : Word) : (launch w s).Inv where
  config_wf := h.config_wf
  regs_fit := h.regs_fit
  busy_or_done := by simp [launchedStatus]
  err_done := by simp [launchedStatus]
  code_iff_err := by simp [launchedStatus]
  code_known := by simp [launchedStatus]
  busy_clear := by simp [launchedStatus]
  signs_egcd := by simp [launchedStatus]
  verdict_mr := by simp [launchedStatus]
  trials_mr := by simp

/-- The number of an error is one of 1 to 5 (60_exceptions.md R180). -/
theorem errorCode_range (e : CmdError) : errorCode e ≠ 0 ∧ (errorCode e).toNat ≤ 5 := by
  cases e <;> decide

/-- Raising an error keeps the invariants (60_exceptions.md R185). -/
theorem State.Inv.raiseError {s : State} (h : s.Inv) (e : CmdError) : (raiseError e s).Inv where
  config_wf := h.config_wf
  regs_fit := h.regs_fit
  busy_or_done := by simp [errorStatus]
  err_done := by simp [errorStatus]
  code_iff_err := by simpa [errorStatus] using (errorCode_range e).1
  code_known := (errorCode_range e).2
  busy_clear := by simp [errorStatus]
  signs_egcd := by simp [errorStatus]
  verdict_mr := by simp [errorStatus]
  trials_mr := by simp

/-- The reset state of an implementation within range meets the invariants (10_state.md R36). -/
theorem inv_resetOf {c : Config} (hc : c.Wf) : (State.resetOf c).Inv where
  config_wf := hc
  regs_fit := resetOf_fits c
  busy_or_done := by simp [Status.clear]
  err_done := by simp [Status.clear]
  code_iff_err := by simp [Status.clear]
  code_known := by simp [Status.clear]
  busy_clear := by simp [Status.clear]
  signs_egcd := by simp [Status.clear]
  verdict_mr := by simp [Status.clear]
  trials_mr := by simp

/-- Settles O48: reset clears the registers, STATUS and TRIALCNT. -/
theorem resetMeetsTheInvariants : Obligations.ResetMeetsTheInvariants :=
  ⟨fun _ => inv_resetOf, inv_resetOf (by decide)⟩

/-- An inverse is below the modulus (42_modinv.md R135). -/
theorem modInverse_lt {a m r : Nat} (hm : m ≠ 0) (h : modInverse a m = some r) : r < m := by
  unfold modInverse at h
  dsimp only at h
  split at h
  · cases h
  · obtain rfl := Option.some.inj h
    have hm' : (0 : Int) < m := by exact_mod_cast Nat.pos_of_ne_zero hm
    have hlt := Int.emod_lt_of_pos (extendedGcd (a % m) m).2.1 hm'
    rw [floorMod]
    omega

/-- What a command writes fits a register when its sources do (10_state.md R20). -/
theorem EndsWith.writes_fit {i : Instr} {s : State} {ws : List (RegNo × Nat)} {v xn yn : Bool} {c : Nat}
    {rest : List Word} (hfit : ∀ k, readReg k s < 2 ^ s.config.width)
    (h : EndsWith i s (.success ws v xn yn c) rest) : ∀ p ∈ ws, p.2 < 2 ^ s.config.width := by
  cases i with
  | modexp rd rb re rm =>
    obtain ⟨-, h⟩ := h
    rw [modexpOutcome] at h
    split at h
    · cases h
    · rename_i hm
      cases h
      have hlt := Nat.mod_lt (readReg rb s ^ readReg re s) (Nat.pos_of_ne_zero hm)
      simpa [modExpRef_eq_pow_mod] using hlt.trans (hfit rm)
  | egcd rg rx ry ra rb =>
    obtain ⟨-, h⟩ := h
    simp only [egcdOutcome] at h
    split at h
    · cases h
    · split at h
      · cases h
      · rename_i hrange
        cases h
        simpa [not_or] using hrange
  | modinv rd ra rm =>
    obtain ⟨-, h⟩ := h
    rw [modinvOutcome] at h
    split at h
    · cases h
    · split at h
      · cases h
      · rename_i hm _ r hr
        cases h
        simpa using (modInverse_lt hm hr).trans (hfit rm)
  | mrtest rn =>
    obtain ⟨v, c, h, -⟩ := h
    cases h
    exact nofun
  | mrtrial rn ra =>
    obtain ⟨-, h⟩ := h
    rw [mrtrialOutcome] at h
    split at h
    · cases h
    · split at h
      · cases h
      · cases h
        exact nofun
  | sample rd rlo rhi =>
    rcases h with ⟨-, h, -⟩ | ⟨v, h, hle, hdraw⟩ <;> cases h
    simpa using (sampleRange_suffix hle hdraw).2.1.trans_lt (hfit rhi)

/-- The opcode in CMD is the one of the command in flight (30_encoding.md R73). -/
theorem cmdOpcode_eq_opcode {s : State} {i : Instr} (h : fetch s = .command i) :
    cmdOpcode s = Laws.EncodeFields.opcode i := by
  have hfields : Laws.EncodeFields.Statement i := by
    cases i with
    | modexp rd rb re rm => exact Laws.EncodeFields.modexp rd rb re rm
    | egcd rg rx ry ra rb => exact Laws.EncodeFields.egcd rg rx ry ra rb
    | modinv rd ra rm => exact Laws.EncodeFields.modinv rd ra rm
    | mrtest rn => exact Laws.EncodeFields.mrtest rn
    | mrtrial rn ra => exact Laws.EncodeFields.mrtrial rn ra
    | sample rd rlo rhi => exact Laws.EncodeFields.sample rd rlo rhi
  exact (cmdOpcode_of_fetch h).trans hfields.2

/-- The opcode of MRTEST or MRTRIAL is 4 or 5 (30_encoding.md R73). -/
theorem opcode_of_mr {i : Instr} (h : (∃ rn, i = .mrtest rn) ∨ ∃ rn ra, i = .mrtrial rn ra) :
    Laws.EncodeFields.opcode i = 0x04 ∨ Laws.EncodeFields.opcode i = 0x05 := by
  rcases h with ⟨rn, rfl⟩ | ⟨rn, ra, rfl⟩
  · exact .inl rfl
  · exact .inr rfl

/-- The completion of the command in flight keeps the invariants: its flags and its count are its own
(10_state.md R24, R32). -/
theorem EndsWith.inv {i : Instr} {s : State} {o : CmdOutcome} {rest : List Word} (hs : s.Inv)
    (hi : fetch s = .command i) (h : EndsWith i s o rest) : (complete o (popTo rest s)).Inv := by
  cases o with
  | error e => exact (hs.congr rfl rfl rfl rfl rfl : (popTo rest s).Inv).raiseError e
  | success ws v xn yn c =>
    obtain ⟨-, hmr, hegcd, -⟩ := h.success
    have hop : cmdOpcode (complete (.success ws v xn yn c) (popTo rest s)) = Laws.EncodeFields.opcode i := by
      rw [← cmdOpcode_eq_opcode hi, cmdOpcode, cmdOpcode, complete_cmd, popTo_cmd]
    exact {
      config_wf := by
        rw [complete_config]
        exact hs.config_wf
      regs_fit := by
        rw [complete_config]
        refine complete_fits _ _ hs.regs_fit fun ws' v' xn' yn' c' ho => ?_
        cases ho
        exact EndsWith.writes_fit (s := s) hs.regs_fit h
      busy_or_done := by simp [complete, successStatus]
      err_done := by simp [complete, successStatus]
      code_iff_err := by simp [complete, successStatus]
      code_known := by simp [complete, successStatus]
      busy_clear := by simp [complete, successStatus]
      signs_egcd := fun hsigns => by
        obtain ⟨rg, rx, ry, ra, rb, rfl⟩ := hegcd hsigns
        exact ⟨rfl, rfl, hop⟩
      verdict_mr := fun hverdict => ⟨rfl, rfl, hop ▸ opcode_of_mr (hmr (.inl hverdict))⟩
      trials_mr := fun htrials => by
        have hc : c ≠ 0 := by
          rintro rfl
          exact htrials rfl
        exact ⟨rfl, rfl, hop ▸ opcode_of_mr (hmr (.inr hc))⟩ }

/-- The engine's turn keeps the invariants. -/
theorem State.Inv.engineStep {s t : State} (hs : s.Inv) (h : engineStep s = .next t) : t.Inv := by
  rcases engineStep_next_cases h with ⟨-, rfl⟩ | ⟨-, ⟨i, -, -, rfl⟩ | ⟨i, o, rest, hi, hends, rfl⟩ | ⟨why, -, rfl⟩⟩
  · exact hs
  · exact hs
  · exact hends.inv hs hi
  · exact hs.raiseError .illegal

/-- Writing a value that fits keeps the invariants. -/
theorem State.Inv.writeReg {s : State} (hs : s.Inv) (k : RegNo) {v : Nat} (hv : v < 2 ^ s.config.width) :
    (writeReg k v s).Inv := by
  refine hs.with_fitting_regs rfl (fun j => ?_) rfl rfl rfl
  rw [readReg_writeReg]
  split
  · exact hv
  · exact hs.regs_fit j

/-- Settles O49: the engine's turn, a launch, a limb that fits and reset keep the invariants, and nothing else the
invariants speak of changes. -/
theorem stepKeepsTheInvariants : Obligations.StepKeepsTheInvariants := by
  intro s t hs h
  cases stepsTo_of_step h with
  | engine es hengine => exact (hs.congr rfl rfl rfl rfl rfl : State.Inv { s with agenda := es }).engineStep hengine
  | unchanged es a => exact hs.congr rfl rfl rfl rfl rfl
  | launched es a v _ => exact (hs.launch v).congr rfl rfl rfl rfl rfl
  | roundsWritten es a v _ => exact hs.congr rfl rfl rfl rfl rfl
  | limbWritten es a k i v hi =>
    exact (hs.writeReg k (withLimb_lt v hi (hs.regs_fit k))).congr rfl rfl rfl rfl rfl
  | supplied es ws => exact hs.congr rfl rfl rfl rfl rfl
  | reset es lost _ => exact (inv_resetOf hs.config_wf).congr rfl rfl rfl rfl rfl

/-! ### TRIALCNT and ROUNDS (10_state.md R37, last clause) -/

/-- The engine's turn keeps TRIALCNT ≤ ROUNDS after an MRTEST: its trials are at most ROUNDS (40_primality.md R103). -/
theorem State.TrialsWithinRounds.engineStep {s t : State} (hs : s.TrialsWithinRounds)
    (h : engineStep s = .next t) : t.TrialsWithinRounds := by
  rcases engineStep_next_cases h with ⟨-, rfl⟩ | ⟨-, ⟨i, -, -, rfl⟩ | ⟨i, o, rest, hi, hends, rfl⟩ | ⟨why, -, rfl⟩⟩
  · exact hs
  · exact hs
  · rintro ⟨hop, -⟩
    cases o with
    | error e => exact Nat.zero_le _
    | success ws v xn yn c =>
      rw [cmdOpcode, complete_cmd, popTo_cmd, ← cmdOpcode, cmdOpcode_eq_opcode hi] at hop
      obtain ⟨rn, rfl⟩ : ∃ rn, i = .mrtest rn := by
        cases i with
        | mrtest rn => exact ⟨rn, rfl⟩
        | modexp rd rb re rm => cases hop
        | egcd rg rx ry ra rb => cases hop
        | modinv rd ra rm => cases hop
        | mrtrial rn ra => cases hop
        | sample rd rlo rhi => cases hop
      obtain ⟨-, -, -, hcount⟩ := hends.success
      rw [complete_rounds, popTo_rounds, complete, publish_trialcnt, BitVec.toNat_ofNat]
      exact (Nat.mod_le _ _).trans (hcount rn rfl)
  · exact fun _ => Nat.zero_le _

/-- Settles O50: the engine's turn keeps the bound, a launch and reset clear DONE, and only a ROUNDS write touches
ROUNDS. -/
theorem trialsStayWithinRounds : Obligations.TrialsStayWithinRounds := by
  intro s t hs hrounds h
  cases stepsTo_of_step h with
  | engine es hengine =>
    exact State.TrialsWithinRounds.engineStep (s := { s with agenda := es }) hs hengine
  | unchanged es a => exact hs
  | launched es a v _ => exact fun ⟨_, hdone⟩ => nomatch hdone
  | roundsWritten es a v hnext => exact absurd hnext hrounds
  | limbWritten es a k i v hi => exact hs
  | supplied es ws => exact hs
  | reset es lost _ => exact fun ⟨_, hdone⟩ => nomatch hdone

/-! ### The parameters and DONE (00_scope.md R6, 20_memory.md R61) -/

/-- The engine's turn keeps the parameters. -/
theorem engineStep_config {s t : State} (h : engineStep s = .next t) : t.config = s.config := by
  rcases engineStep_next_cases h with ⟨-, rfl⟩ | ⟨-, ⟨i, -, -, rfl⟩ | ⟨i, o, rest, -, -, rfl⟩ | ⟨why, -, rfl⟩⟩
  · rfl
  · rfl
  · exact complete_config o (popTo rest s)
  · rfl

/-- No step changes the parameters. -/
theorem step_config {s t : State} (h : step s = .next t) : t.config = s.config := by
  cases stepsTo_of_step h with
  | engine es hengine => exact engineStep_config (s := { s with agenda := es }) hengine
  | unchanged es a => rfl
  | launched es a v _ => rfl
  | roundsWritten es a v _ => rfl
  | limbWritten es a k i v hi => rfl
  | supplied es ws => rfl
  | reset es lost _ => rfl

/-- Settles O51: ID and CFG read what the parameters say. -/
theorem idAndCfgNeverChange : Obligations.IdAndCfgNeverChange := by
  intro s t h
  refine ⟨step_config h, ?_, ?_⟩
  · rw [memRead_id, memRead_id]
  · rw [memRead_cfg, memRead_cfg, step_config h]

/-- The engine's turn never clears DONE: a completion sets it. -/
theorem engineStep_done {s t : State} (hs : s.status.done = true) (h : engineStep s = .next t) :
    t.status.done = true := by
  rcases engineStep_next_cases h with ⟨-, rfl⟩ | ⟨-, ⟨i, -, -, rfl⟩ | ⟨i, o, rest, -, -, rfl⟩ | ⟨why, -, rfl⟩⟩
  · exact hs
  · exact hs
  · exact (complete_idle o _).2
  · rfl

/-- Settles O53: of the steps only a launch and reset can leave DONE at 0. -/
theorem doneStaysUntilLaunchOrReset : Obligations.DoneStaysUntilLaunchOrReset := by
  intro s t hs h ht
  cases stepsTo_of_step h with
  | launched es a v hnext => exact .inl hnext
  | reset es lost hnext => exact .inr hnext
  | engine es hengine => exact absurd ((engineStep_done (s := { s with agenda := es }) hs hengine).symm.trans ht) nofun
  | unchanged es a => exact absurd (hs.symm.trans ht) nofun
  | roundsWritten es a v _ => exact absurd (hs.symm.trans ht) nofun
  | limbWritten es a k i v hi => exact absurd (hs.symm.trans ht) nofun
  | supplied es ws => exact absurd (hs.symm.trans ht) nofun

end Sys2Proof.Machine
end

section
/-! Completion (30_encoding.md R76, 60_exceptions.md R185): what the state after a command holds, with which errors it
can end, on what it depends, and what a reset leaves of it. -/

namespace Sys2Proof.Machine

/-! ### The completed state -/

/-- A completion ends with DONE = 1; with an error no register is written and every result is cleared, without one
ERRCODE is 0. -/
theorem complete_result (o : CmdOutcome) (s : State) :
    ((complete o s).status.err = true → (complete o s).x = s.x ∧ (complete o s).trialcnt = 0 ∧
      (complete o s).status.verdict = false ∧ (complete o s).status.xneg = false ∧
      (complete o s).status.yneg = false ∧ (complete o s).status.errCode ≠ 0) ∧
    ((complete o s).status.err = false → (complete o s).status.errCode = 0) := by
  cases o with
  | error e => exact ⟨fun _ => ⟨rfl, rfl, rfl, rfl, rfl, (errorCode_range e).1⟩, nofun⟩
  | success ws v xn yn c => exact ⟨nofun, fun _ => rfl⟩

/-- With a command in flight the engine's turn waits for entropy, or it is a completion, of an illegal word too. -/
theorem engineStep_waits_or_completes {s t : State} (hbusy : s.status.busy = true) (h : engineStep s = .next t) :
    (t = s ∧ ∃ i, decode s.cmd = .command i ∧ popsEntropy i = true) ∨ ∃ o rest, t = complete o (popTo rest s) := by
  rcases engineStep_next_cases h with
    ⟨hidle, -⟩ | ⟨-, ⟨i, hi, hpops, hwait⟩ | ⟨i, o, rest, -, -, hends⟩ | ⟨why, -, hillegal⟩⟩
  · rw [hbusy] at hidle
    cases hidle
  · exact .inl ⟨hwait, i, hi, hpops⟩
  · exact .inr ⟨o, rest, hends⟩
  · exact .inr ⟨.error .illegal, s.entropy, by rw [hillegal, popTo_self]; rfl⟩

/-- Settles O20: what a completion leaves, read off its two branches. -/
theorem completionEndsTheCommand : Obligations.CompletionEndsTheCommand := by
  intro s hbusy
  have hstep := engineStep_eq_engineTurn s
  refine ⟨_, hstep, (engineStep_waits_or_completes hbusy hstep).imp_right ?_⟩
  rintro ⟨o, rest, h⟩
  rw [h]
  obtain ⟨hidle, hdone⟩ := complete_idle o (popTo rest s)
  exact ⟨hidle, hdone, complete_cmd o _, complete_rounds o _, complete_result o _⟩

/-- Settles O21: a command that waits leaves the launch's flags, all 0; one that ends sets its own only. -/
theorem flagsAreSetByTheirCommandsOnly : Obligations.FlagsAreSetByTheirCommandsOnly := by
  intro i s t hs h
  rcases exec_outcome i s with ⟨-, hexec⟩ | ⟨o, rest, hends, hexec⟩ <;>
    obtain rfl := Host.Outcome.next.inj (hexec.symm.trans h)
  · simp [hs]
  · cases o with
    | error e => simp [complete, errorStatus]
    | success ws v xn yn c =>
      obtain ⟨-, hmr, hegcd, -⟩ := hends.success
      exact ⟨fun hv => ⟨hmr (.inl hv), rfl, rfl⟩, fun hsigns => ⟨hegcd hsigns, rfl, rfl⟩⟩

/-- Leaving a suffix of the stream is popping the words before it. -/
theorem popTo_of_suffix {s : State} {pre rest : List Word} (h : s.entropy = pre ++ rest) :
    popTo rest s = poppedBy (s.entropy.length - rest.length) s := by
  have hdrop : s.entropy.drop (s.entropy.length - rest.length) = rest := by simp [h]
  rw [popTo, poppedBy, hdrop]

/-- Settles O22: what a command ends with writes its destinations, and it leaves a suffix of the stream. -/
theorem commandsWriteOnlyTheirDestinations : Obligations.CommandsWriteOnlyTheirDestinations := by
  intro i s t h
  rcases exec_outcome i s with ⟨-, hexec⟩ | ⟨o, rest, hends, hexec⟩ <;>
    obtain rfl := Host.Outcome.next.inj (hexec.symm.trans h)
  · exact ⟨⟨rfl, rfl, rfl, rfl, rfl, fun _ _ => rfl⟩, fun _ _ => rfl, 0, Nat.zero_le _, rfl, rfl, fun _ => rfl⟩
  · have hkeeps : KeepsAllBut (dests i) (popTo rest s) (complete o (popTo rest s)) :=
      complete_keeps o _ fun ws v xn yn c ho => by
        subst ho
        exact hends.success.1
    obtain ⟨hconfig, hcmd, hrounds, hagenda, hresponse, hregs⟩ := hkeeps
    obtain ⟨⟨pre, hpre⟩, hall⟩ := hends.suffix
    refine ⟨⟨hconfig, hcmd, hrounds, hagenda, hresponse, hregs⟩,
      fun _ herr => ((complete_result o _).1 herr).1, s.entropy.length - rest.length, Nat.sub_le _ _, ?_, ?_,
      fun hpops => by rw [hall hpops, Nat.sub_self]⟩
    · rw [complete_entropy, popTo_of_suffix hpre, poppedBy]
    · rw [complete_entropyPos, popTo_entropyPos]

/-! ### The errors (60_exceptions.md R181) -/

/-- Where there is no inverse the gcd is not 1 (42_modinv.md R137 b). -/
theorem gcd_ne_one_of_modInverse_eq_none {a m : Nat} (hm : m ≠ 0) (h : modInverse a m = none) :
    Nat.gcd (a % m) m ≠ 1 := by
  intro hgcd
  obtain ⟨r, hr, -⟩ := exists_modInverse (Nat.pos_of_ne_zero hm) hgcd
  rw [h] at hr
  cases hr

/-- Settles O23: each command's pseudocode, read from its error backwards; EGCD's results always fit. -/
theorem errorsByCommand : Obligations.ErrorsByCommand := by
  intro i s t hwf hs hbusy h herr
  rcases exec_outcome i s with ⟨-, hexec⟩ | ⟨o, rest, hends, hexec⟩ <;>
    obtain rfl := Host.Outcome.next.inj (hexec.symm.trans h)
  · rw [(hs.busy_clear hbusy).1] at herr
    cases herr
  cases o with
  | success ws v xn yn c => cases herr
  | error e =>
    cases i with
    | modexp rd rb re rm =>
      obtain ⟨-, hends⟩ := hends
      rw [modexpOutcome] at hends
      split at hends <;> cases hends
      exact ⟨rfl, ‹_›⟩
    | egcd rg rx ry ra rb =>
      obtain ⟨-, hends⟩ := hends
      obtain ⟨hg, hx, hy⟩ := extendedGcd_lt_two_pow (one_le_width hs.config_wf) (hs.regs_fit ra) (hs.regs_fit rb)
      rw [egcdOutcome_of_fits hwf rfl hg hx hy] at hends
      cases hends
    | modinv rd ra rm =>
      obtain ⟨-, hends⟩ := hends
      rw [modinvOutcome] at hends
      split at hends
      · cases hends
        exact .inl ⟨rfl, ‹_›⟩
      · rename_i hm
        split at hends <;> cases hends
        exact .inr ⟨rfl, hm, gcd_ne_one_of_modInverse_eq_none hm ‹_›⟩
    | mrtest rn =>
      obtain ⟨v, c, ho, -⟩ := hends
      cases ho
    | mrtrial rn ra =>
      obtain ⟨-, hends⟩ := hends
      rw [mrtrialOutcome] at hends
      split at hends
      · cases hends
        exact ⟨rfl, by omega⟩
      · split at hends <;> cases hends
        exact ⟨rfl, by omega⟩
    | sample rd rlo rhi =>
      rcases hends with ⟨-, ho, hlt⟩ | ⟨v, ho, -⟩ <;> cases ho
      exact ⟨rfl, hlt⟩

/-! ### What a result depends on (10_state.md R35) -/

/-- A command ends the same on two states that agree on its sources, the parameters, ROUNDS and the stream. -/
theorem EndsWith.congr {i : Instr} {s₁ s₂ : State} (hconfig : s₁.config = s₂.config) (hrounds : s₁.rounds = s₂.rounds)
    (hentropy : s₁.entropy = s₂.entropy) (hregs : ∀ k ∈ sources i, readReg k s₁ = readReg k s₂) {o : CmdOutcome}
    {rest : List Word} (h : EndsWith i s₁ o rest) : EndsWith i s₂ o rest := by
  cases i with
  | modexp rd rb re rm =>
    simp only [sources, List.forall_mem_cons] at hregs
    obtain ⟨hb, he, hm, -⟩ := hregs
    simpa only [EndsWith, hb, he, hm, hentropy] using h
  | egcd rg rx ry ra rb =>
    simp only [sources, List.forall_mem_cons] at hregs
    obtain ⟨ha, hb, -⟩ := hregs
    simpa only [EndsWith, ha, hb, hconfig, hentropy] using h
  | modinv rd ra rm =>
    simp only [sources, List.forall_mem_cons] at hregs
    obtain ⟨ha, hm, -⟩ := hregs
    simpa only [EndsWith, ha, hm, hentropy] using h
  | mrtest rn =>
    simp only [sources, List.forall_mem_cons] at hregs
    obtain ⟨hn, -⟩ := hregs
    simpa only [EndsWith, hn, hrounds, hentropy] using h
  | mrtrial rn ra =>
    simp only [sources, List.forall_mem_cons] at hregs
    obtain ⟨hn, ha, -⟩ := hregs
    simpa only [EndsWith, hn, ha, hentropy] using h
  | sample rd rlo rhi =>
    simp only [sources, List.forall_mem_cons] at hregs
    obtain ⟨hlo, hhi, -⟩ := hregs
    simpa only [EndsWith, hlo, hhi, hentropy] using h

/-- Where a command's pseudocode ends, the command completes with that outcome. -/
theorem EndsWith.exec_eq {i : Instr} {s : State} {o : CmdOutcome} {rest : List Word} (h : EndsWith i s o rest) :
    exec i s = .next (complete o (popTo rest s)) := by
  cases i with
  | modexp rd rb re rm =>
    obtain ⟨rfl, rfl⟩ := h
    rw [popTo_self]
    rfl
  | egcd rg rx ry ra rb =>
    obtain ⟨rfl, rfl⟩ := h
    rw [popTo_self]
    rfl
  | modinv rd ra rm =>
    obtain ⟨rfl, rfl⟩ := h
    rw [popTo_self]
    rfl
  | mrtest rn =>
    obtain ⟨v, c, rfl, htest⟩ := h
    exact exec_mrtest_of_isProbablyPrime htest
  | mrtrial rn ra =>
    obtain ⟨rfl, rfl⟩ := h
    rw [popTo_self]
    rfl
  | sample rd rlo rhi =>
    rcases h with ⟨rfl, rfl, hlt⟩ | ⟨v, rfl, hle, hdraw⟩
    · rw [popTo_self, exec, execSample, if_pos hlt]
      rfl
    · exact exec_sample_of_sampleRange hle hdraw rd

/-- Where a command ends without error, it writes every one of its destinations. -/
theorem EndsWith.dests_subset {i : Instr} {s : State} {ws : List (RegNo × Nat)} {v xn yn : Bool} {c : Nat}
    {rest : List Word} (h : EndsWith i s (.success ws v xn yn c) rest) : dests i ⊆ ws.map Prod.fst := by
  cases i with
  | modexp rd rb re rm =>
    obtain ⟨-, h⟩ := h
    rw [modexpOutcome] at h
    split at h <;> cases h
    exact List.Subset.refl _
  | egcd rg rx ry ra rb =>
    obtain ⟨-, h⟩ := h
    simp only [egcdOutcome] at h
    split at h
    · cases h
    · split at h <;> cases h
      exact List.Subset.refl _
  | modinv rd ra rm =>
    obtain ⟨-, h⟩ := h
    rw [modinvOutcome] at h
    split at h
    · cases h
    · split at h <;> cases h
      exact List.Subset.refl _
  | mrtest rn => exact List.nil_subset _
  | mrtrial rn ra => exact List.nil_subset _
  | sample rd rlo rhi =>
    rcases h with ⟨-, h, -⟩ | ⟨v, h, -⟩ <;> cases h
    exact List.Subset.refl _

/-- A register that is written holds the same value after the writes, whatever the state before. -/
theorem readReg_writeRegs_of_mem {k : RegNo} {ws : List (RegNo × Nat)} (h : k ∈ ws.map Prod.fst) (s₁ s₂ : State) :
    readReg k (writeRegs ws s₁) = readReg k (writeRegs ws s₂) := by
  induction ws generalizing s₁ s₂ with
  | nil => cases h
  | cons p ps ih =>
    by_cases hps : k ∈ ps.map Prod.fst
    · exact ih hps (writeReg p.1 p.2 s₁) (writeReg p.1 p.2 s₂)
    · have hk : k = p.1 := by simpa [hps] using h
      have hval (s : State) : readReg k (writeRegs (p :: ps) s) = p.2 := by
        rw [hk]
        exact (readReg_writeRegs_of_notMem ps (writeReg p.1 p.2 s) (hk ▸ hps)).trans (readReg_writeReg_self _ _ _)
      rw [hval, hval]

/-- Settles O54: the command ends alike on both states, or it ends on neither and both stay as they are. -/
theorem resultDependsOnSourcesOnly : Obligations.ResultDependsOnSourcesOnly := by
  intro i s₁ s₂ t₁ hconfig hstatus htrialcnt hrounds hentropy hregs h
  by_cases hends : ∃ o rest, EndsWith i s₁ o rest
  · obtain ⟨o, rest, hends⟩ := hends
    have hends₂ := hends.congr hconfig hrounds hentropy hregs
    obtain rfl := Host.Outcome.next.inj (hends.exec_eq.symm.trans h)
    refine ⟨_, hends₂.exec_eq, ?_⟩
    cases o with
    | error e => exact ⟨rfl, rfl, rfl, .inl ⟨rfl, rfl⟩⟩
    | success ws v xn yn c =>
      exact ⟨rfl, rfl, by rw [complete_entropy, complete_entropy, popTo_entropy, popTo_entropy],
        .inr fun k hk => readReg_writeRegs_of_mem (hends.dests_subset hk) _ _⟩
  · have hwaits {s : State} (hno : ¬ ∃ o rest, EndsWith i s o rest) : exec i s = .next s := by
      rcases exec_outcome i s with ⟨-, hwait⟩ | ⟨o, rest, hend, -⟩
      · exact hwait
      · exact absurd ⟨o, rest, hend⟩ hno
    have hends₂ : ¬ ∃ o rest, EndsWith i s₂ o rest := fun ⟨o, rest, hend⟩ =>
      hends ⟨o, rest, hend.congr hconfig.symm hrounds.symm hentropy.symm fun k hk => (hregs k hk).symm⟩
    obtain rfl := Host.Outcome.next.inj ((hwaits hends).symm.trans h)
    exact ⟨s₂, hwaits hends₂, hstatus, htrialcnt, hentropy, .inl ⟨rfl, rfl⟩⟩

/-! ### Reset while a command is in flight (70_reset_and_hazards.md R201) -/

/-- What can have been popped, by the engine's turn on the abandoned command. -/
theorem poppable_of_engineStep {s t : State} (h : engineStep s = .next t) :
    poppable s = if t.status.busy then s.entropy.length else s.entropy.length - t.entropy.length := by
  rw [poppable, h]

/-- No more can have been popped than was supplied. -/
theorem poppable_le (s : State) : poppable s ≤ s.entropy.length := by
  rw [poppable_of_engineStep (engineStep_eq_engineTurn s)]
  split <;> omega

/-- A command that ends without popping a word has popped none before. -/
theorem poppable_of_entropy_eq {s t : State} (h : engineStep s = .next t) (hidle : t.status.busy = false)
    (hentropy : t.entropy = s.entropy) : poppable s = 0 := by
  simp [poppable_of_engineStep h, hidle, hentropy]

/-- A command in flight that pops no entropy has popped none. -/
theorem poppable_of_not_popsEntropy {s : State} {i : Instr} (hbusy : s.status.busy = true)
    (hi : decode s.cmd = .command i) (hpops : popsEntropy i = false) : poppable s = 0 := by
  rcases exec_outcome i s with ⟨hpops', -⟩ | ⟨o, rest, hends, hexec⟩
  · rw [hpops] at hpops'
    cases hpops'
  · refine poppable_of_entropy_eq ((engineStep_of_decode hbusy hi).trans hexec) (complete_idle _ _).1 ?_
    rw [complete_entropy, popTo_entropy, hends.suffix.2 hpops]

/-- An illegal word in flight has popped none. -/
theorem poppable_of_illegal {s : State} {why : IllegalReason} (hbusy : s.status.busy = true)
    (hwhy : decode s.cmd = .illegal why) : poppable s = 0 := by
  have hstep : engineStep s = .next (raiseError .illegal s) := by simp [engineStep, hbusy, fetch, hwhy]
  exact poppable_of_entropy_eq hstep rfl rfl

/-- Settles O46: the reset step's count of words, by what the abandoned command can have popped. -/
theorem resetForcesTheResetState : Obligations.ResetForcesTheResetState := by
  intro lost s
  refine ⟨if s.status.busy then min lost (poppable s) else 0, rfl, ?_⟩
  cases hbusy : s.status.busy with
  | false => simp
  | true =>
    have hle := poppable_le s
    refine ⟨Nat.min_le_left _ _, (Nat.min_le_right _ _).trans hle, nofun, fun i hi hpops => ?_, fun why hwhy => ?_,
      fun _ hstep => ?_, fun t _ hstep hidle => ?_⟩
    · simp [poppable_of_not_popsEntropy hbusy hi hpops]
    · simp [poppable_of_illegal hbusy hwhy]
    · simp [poppable_of_engineStep hstep, hbusy]
    · simp [poppable_of_engineStep hstep, hidle]

end Sys2Proof.Machine
end

section
/-! The RSA law (43_modexp.md R155) and the iterative form of the extended Euclidean algorithm (42_modinv.md R132). -/

namespace Sys2Proof.Machine

/-- Settles O26: the value is the power's remainder, which is below the modulus. -/
theorem referenceAlgorithmComputesThePower : Obligations.ReferenceAlgorithmComputesThePower := by
  intro b e m hm
  rw [modExpRef_eq_pow_mod]
  exact ⟨rfl, Nat.mod_lt _ hm⟩

/-! ### The RSA law (43_modexp.md R155) -/

/-- Fermat, for every base: modulo a prime `p` an exponent that is 1 modulo `p - 1` gives the base back. -/
theorem pow_modEq_self_of_dvd {p k : Nat} (hp : p.Prime) (hk : 1 ≤ k) (h : p - 1 ∣ k - 1) (m : Nat) :
    m ^ k ≡ m [MOD p] := by
  have := Fact.mk hp
  obtain ⟨j, hj⟩ := h
  obtain rfl : k = (p - 1) * j + 1 := by omega
  refine (ZMod.natCast_eq_natCast_iff _ _ _).1 ?_
  push_cast
  rcases eq_or_ne (m : ZMod p) 0 with hzero | hne
  · simp [hzero]
  · rw [pow_succ, pow_mul, ZMod.pow_card_sub_one_eq_one hne, one_pow, one_mul]

/-- `(p - 1)(q - 1)` is above 1 for different primes. -/
theorem one_lt_pred_mul_pred {p q : Nat} (hp : p.Prime) (hq : q.Prime) (hne : p ≠ q) : 1 < (p - 1) * (q - 1) := by
  have hp2 := hp.two_le
  have hq2 := hq.two_le
  rcases Nat.lt_or_gt_of_ne hne with hlt | hlt
  · exact Nat.one_lt_mul_iff.2 ⟨by omega, by omega, .inr (by omega)⟩
  · exact Nat.one_lt_mul_iff.2 ⟨by omega, by omega, .inl (by omega)⟩

/-- Two powers with exponents inverse modulo `(p - 1)(q - 1)` give a message below `p · q` back. -/
theorem rsa_pow_pow {p q m e d : Nat} (hp : p.Prime) (hq : q.Prime) (hne : p ≠ q)
    (hde : d * e % ((p - 1) * (q - 1)) = 1 % ((p - 1) * (q - 1))) (hm : m < p * q) :
    (m ^ e % (p * q)) ^ d % (p * q) = m := by
  have hpos : 1 ≤ d * e := by
    rw [Nat.mod_eq_of_lt (one_lt_pred_mul_pred hp hq hne)] at hde
    rcases Nat.eq_zero_or_pos (d * e) with hzero | hpos
    · rw [hzero, Nat.zero_mod] at hde
      cases hde
    · exact hpos
  have hdvd : (p - 1) * (q - 1) ∣ d * e - 1 := (Nat.modEq_iff_dvd' hpos).1 (Nat.ModEq.symm hde)
  have hcoprime : Nat.Coprime p q := (Nat.coprime_primes hp hq).2 hne
  have hpow : m ^ (d * e) ≡ m [MOD p * q] := (Nat.modEq_and_modEq_iff_modEq_mul hcoprime).1
    ⟨pow_modEq_self_of_dvd hp hpos ((dvd_mul_right _ _).trans hdvd) m,
      pow_modEq_self_of_dvd hq hpos ((dvd_mul_left _ _).trans hdvd) m⟩
  rw [← Nat.pow_mod, ← Nat.pow_mul, Nat.mul_comm e d, hpow, Nat.mod_eq_of_lt hm]

/-- What a register holds after a command with one destination. -/
theorem readReg_completedWith_set (j k : RegNo) (v : Nat) (verdict xneg yneg : Bool) (trials : Nat) (s : State) :
    readReg j (completedWith (s.x.set k.val v) verdict xneg yneg trials s) = if j = k then v else readReg j s :=
  readReg_writeReg j k v s

/-- Settles O27: the second MODEXP raises the first one's result to the exponent that undoes it. -/
theorem rsaRoundTrip : Obligations.RsaRoundTrip := by
  intro s rm re rd rn rc rr p q hp hq hne hn hde hm hcd hcn
  have hmod : readReg rn s ≠ 0 := by
    rw [hn]
    exact Nat.mul_ne_zero hp.ne_zero hq.ne_zero
  refine ⟨_, _, exec_modexp_of_ne_zero hmod rc rm re, exec_modexp_of_ne_zero ?_ rr rc rd, rfl, ?_⟩
  · rwa [readReg_completedWith_set, if_neg hcn.symm]
  · rw [readReg_completedWith_set_self]
    simp only [readReg_completedWith_set, if_true, if_neg hcn.symm, if_neg hcd.symm, hn]
    exact rsa_pow_pow hp hq hne hde hm

/-! ### The iterative form (42_modinv.md R132) -/

/-- The loop's invariant: what is still to do on `(r0, r1)` is the recursion's pair for `(r1, r0)`, applied to the
coefficients so far. -/
theorem iterateGcd_eq {fuel r0 r1 : Nat} (hfuel : r1 ≤ fuel) (s0 s1 t0 t1 : Int) :
    iterateGcd fuel r0 r1 s0 s1 t0 t1 =
      ((extendedGcd r1 r0).1,
        (extendedGcd r1 r0).2.1 * s1 + (extendedGcd r1 r0).2.2 * s0,
        (extendedGcd r1 r0).2.1 * t1 + (extendedGcd r1 r0).2.2 * t0) := by
  induction fuel generalizing r0 r1 s0 s1 t0 t1 with
  | zero =>
    obtain rfl := Nat.le_zero.1 hfuel
    simp [iterateGcd, extendedGcd_zero_left]
  | succ fuel ih =>
    rcases Nat.eq_zero_or_pos r1 with rfl | hpos
    · simp [iterateGcd, extendedGcd_zero_left]
    · have hmod : r0 - r0 / r1 * r1 = r0 % r1 := by
        have := Nat.div_add_mod' r0 r1
        omega
      have hlt := Nat.mod_lt r0 hpos
      rw [iterateGcd, if_neg hpos.ne', hmod]
      dsimp only
      rw [ih (by omega), extendedGcd_of_pos hpos r0]
      simp only [adjust]
      refine Prod.ext rfl (Prod.ext ?_ ?_) <;> simp only <;> ring

/-- Settles O29: the loop starts with the coefficients 0, 1 and 1, 0, which pick the recursion's own. -/
theorem iterativeGcdEqualsTheRecursion : Obligations.IterativeGcdEqualsTheRecursion := by
  intro a b
  rw [extendedGcdIter, iterateGcd_eq le_rfl]
  simp

end Sys2Proof.Machine
end

section
/-! The sampler's properties (41_sampler.md R123): blocks of words as numbers, which draw each value of the range
gets from how many blocks; and SAMPLE (41_sampler.md R124). -/

namespace Sys2Proof.Machine

/-! ### Blocks of words as numbers (20_memory.md R53, 41_sampler.md R122) -/

/-- The low `n` limbs of a value spell its low `32 n` bits. -/
theorem assemble_map_limbOf (v n : Nat) : assemble ((List.range n).map (limbOf v)) = v % 2 ^ (32 * n) := by
  induction n with
  | zero => simp [assemble, Nat.mod_one]
  | succ n ih =>
    have hpow : 2 ^ (32 * (n + 1)) = 2 ^ (32 * n) * 2 ^ 32 := by rw [← Nat.pow_add, Nat.mul_succ]
    rw [List.range_succ, List.map_append, assemble_append, ih, hpow, Nat.mod_mul]
    simp [assemble, limbOf_toNat]

/-- Blocks of the same length that spell the same number are the same. -/
theorem assemble_inj {a b : List Word} (hlen : a.length = b.length) (h : assemble a = assemble b) : a = b := by
  induction a generalizing b with
  | nil => exact (List.eq_nil_of_length_eq_zero hlen.symm).symm
  | cons w ws ih =>
    obtain ⟨w', ws', rfl⟩ := List.exists_cons_of_length_eq_add_one hlen.symm
    have hw := w.isLt
    have hw' := w'.isLt
    simp only [assemble] at h
    have hword : w = w' := BitVec.eq_of_toNat_eq (by omega)
    rw [hword, ih (Nat.succ.inj hlen) (by omega)]

/-- The block of `n` words that spells a number. -/
def blockOf (n v : Nat) : Fin n → Word := fun i => limbOf v i

/-- A block spells the number it is the block of. -/
theorem assemble_blockOf {n v : Nat} (hv : v < 2 ^ (32 * n)) : assemble (List.ofFn (blockOf n v)) = v := by
  have hlist : List.ofFn (blockOf n v) = (List.range n).map (limbOf v) :=
    List.ext_getElem (by simp) fun i _ _ => by simp [blockOf]
  rw [hlist, assemble_map_limbOf, Nat.mod_eq_of_lt hv]

/-! ### Properties of a draw (41_sampler.md R123) -/

/-- Words after those used do not change the draw. -/
theorem sampleRange_append {lo hi v : Nat} {ws rest : List Word} (h : sampleRange lo hi ws = some (v, rest))
    (more : List Word) : sampleRange lo hi (ws ++ more) = some (v, rest ++ more) := by
  obtain ⟨rejected, block, hrejected, haccepted, rfl, rfl⟩ := exists_attempts_of_sampleRange h
  rw [List.append_assoc, List.append_assoc, sampleRange_rejected_flatten_append hrejected,
    sampleRange_accepted_append haccepted]

/-- An attempt's words hold all the bits it keeps. -/
theorem size_le_attemptWords (lo hi : Nat) : (hi - lo).size ≤ 32 * attemptWords lo hi := by
  unfold attemptWords
  omega

/-- More than half of the values of an attempt are accepted (41_sampler.md R123 d). -/
theorem two_pow_size_lt {n : Nat} (hn : 0 < n) : 2 ^ n.size < 2 * (n + 1) := by
  obtain ⟨m, hm⟩ : ∃ m, n.size = m + 1 := Nat.exists_eq_add_one.2 (Nat.size_pos.2 hn)
  have hle : 2 ^ m ≤ n := Nat.lt_size.1 (by omega)
  rw [hm, Nat.pow_succ]
  omega

/-- An attempt whose bits spell `v - lo` draws `v`. -/
theorem sampleRange_block_of_attemptValue {lo hi v : Nat} (hlo : lo ≤ v) (hhi : v ≤ hi) {block : List Word}
    (hlen : block.length = attemptWords lo hi) (hval : attemptValue lo hi block = v - lo) (rest : List Word) :
    sampleRange lo hi (block ++ rest) = some (v, rest) := by
  rw [sampleRange_accepted_append ⟨hlen, by omega⟩, hval, Nat.add_sub_cancel' hlo]

/-- The words of a number whose low bits are `v - lo` draw `v`. -/
theorem attemptValue_blockOf {lo hi v : Nat} (hhi : v ≤ hi) {y : Nat}
    (hy : v - lo + 2 ^ (hi - lo).size * y < 2 ^ (32 * attemptWords lo hi)) :
    attemptValue lo hi (List.ofFn (blockOf (attemptWords lo hi) (v - lo + 2 ^ (hi - lo).size * y))) = v - lo := by
  have hlt : v - lo < 2 ^ (hi - lo).size := (Nat.sub_le_sub_right hhi lo).trans_lt (hi - lo).lt_size_self
  rw [attemptValue, assemble_blockOf hy, Nat.add_mul_mod_self_left, Nat.mod_eq_of_lt hlt]

/-- Settles O41: each property is one of the attempts that make up a draw. -/
theorem sampleRangeProperties : Obligations.SampleRangeProperties := by
  intro lo hi hle
  refine ⟨fun ws v rest h => ?range, fun v hlo hhi => ?reach, fun hlt => two_pow_size_lt (by omega),
    fun rejected short hrejected hshort => ?waits⟩
  case range =>
    obtain ⟨hlo, hhi, -⟩ := sampleRange_suffix hle h
    exact ⟨hlo, hhi, sampleRange_append h⟩
  case reach =>
    have hlt : v - lo < 2 ^ (32 * attemptWords lo hi) := ((Nat.sub_le_sub_right hhi lo).trans_lt
      (hi - lo).lt_size_self).trans_le (Nat.pow_le_pow_right (by decide) (size_le_attemptWords lo hi))
    have hval := attemptValue_blockOf (lo := lo) hhi (y := 0) (by simpa using hlt)
    exact ⟨_, List.length_ofFn, sampleRange_block_of_attemptValue hlo hhi List.length_ofFn hval⟩
  case waits => rw [sampleRange_rejected_flatten_append hrejected, sampleRange_of_short hshort]

/-! ### Uniformity as a count (41_sampler.md R123 e) -/

/-- A block of one attempt's words draws `v`, leaving none, exactly when its bits spell `v - lo`. -/
theorem sampleRange_block_eq_iff {lo hi v : Nat} (hlo : lo ≤ v) (hhi : v ≤ hi) {block : List Word}
    (hlen : block.length = attemptWords lo hi) :
    sampleRange lo hi block = some (v, []) ↔ attemptValue lo hi block = v - lo := by
  constructor
  · intro h
    obtain ⟨rejected, last, -, ⟨hlast, -⟩, hwords, hv⟩ := exists_attempts_of_sampleRange h
    have hnone : rejected.flatten.length = 0 := by
      have := congrArg List.length hwords
      simp only [List.length_append, List.length_nil] at this
      omega
    rw [List.eq_nil_of_length_eq_zero hnone, List.nil_append, List.append_nil] at hwords
    rw [hwords]
    omega
  · intro hval
    simpa using sampleRange_block_of_attemptValue hlo hhi hlen hval []

/-- A low part below `2^k` and one of the high parts below `2^(N-k)` make a number below `2^N`. -/
theorem low_add_high_lt {N k c y : Nat} (hk : k ≤ N) (hc : c < 2 ^ k) (hy : y < 2 ^ (N - k)) :
    c + 2 ^ k * y < 2 ^ N := by
  calc c + 2 ^ k * y < 2 ^ k * (y + 1) := by rw [Nat.mul_add_one]; omega
    _ ≤ 2 ^ k * 2 ^ (N - k) := Nat.mul_le_mul_left _ hy
    _ = 2 ^ N := by rw [← Nat.pow_add, Nat.add_sub_cancel' hk]

/-- The number of a block that draws `v`: `v - lo` in the bits the attempt keeps, anything above them. -/
theorem blockNumber_lt {lo hi v : Nat} (hhi : v ≤ hi) {y : Nat}
    (hy : y < 2 ^ (32 * attemptWords lo hi - (hi - lo).size)) :
    v - lo + 2 ^ (hi - lo).size * y < 2 ^ (32 * attemptWords lo hi) :=
  low_add_high_lt (size_le_attemptWords lo hi) ((Nat.sub_le_sub_right hhi lo).trans_lt (hi - lo).lt_size_self) hy

section
variable {lo hi v : Nat} (hlo : lo ≤ v) (hhi : v ≤ hi)
include hlo hhi

/-- The blocks that draw `v`, one for each value of the bits the attempt drops. -/
def drawingBlock (y : Fin (2 ^ (32 * attemptWords lo hi - (hi - lo).size))) :
    { b : Fin (attemptWords lo hi) → Word // sampleRange lo hi (List.ofFn b) = some (v, []) } :=
  ⟨blockOf (attemptWords lo hi) (v - lo + 2 ^ (hi - lo).size * y),
    (sampleRange_block_eq_iff hlo hhi List.length_ofFn).2 (attemptValue_blockOf hhi (blockNumber_lt hhi y.isLt))⟩

/-- Every block that draws `v` is one of these, for one value of the dropped bits. -/
theorem drawingBlock_bijective : Function.Bijective (drawingBlock hlo hhi) := by
  constructor
  · intro y z h
    have hsame : blockOf (attemptWords lo hi) (v - lo + 2 ^ (hi - lo).size * y) =
        blockOf (attemptWords lo hi) (v - lo + 2 ^ (hi - lo).size * z) := congrArg Subtype.val h
    have hnumber := congrArg (fun b => assemble (List.ofFn b)) hsame
    simp only [assemble_blockOf (blockNumber_lt hhi y.isLt),
      assemble_blockOf (blockNumber_lt hhi z.isLt)] at hnumber
    exact Fin.ext (Nat.eq_of_mul_eq_mul_left (Nat.two_pow_pos (hi - lo).size) (by omega))
  · rintro ⟨b, hb⟩
    have hlow : assemble (List.ofFn b) % 2 ^ (hi - lo).size = v - lo :=
      (sampleRange_block_eq_iff hlo hhi List.length_ofFn).1 hb
    have hbound : assemble (List.ofFn b) < 2 ^ (32 * attemptWords lo hi) := by
      simpa using assemble_lt (List.ofFn b)
    have hnumber : v - lo + 2 ^ (hi - lo).size * (assemble (List.ofFn b) / 2 ^ (hi - lo).size) =
        assemble (List.ofFn b) := by
      rw [← hlow, Nat.mod_add_div]
    have hhigh : assemble (List.ofFn b) / 2 ^ (hi - lo).size < 2 ^ (32 * attemptWords lo hi - (hi - lo).size) := by
      rw [Nat.div_lt_iff_lt_mul (Nat.two_pow_pos _), ← Nat.pow_add, Nat.sub_add_cancel (size_le_attemptWords lo hi)]
      exact hbound
    refine ⟨⟨_, hhigh⟩, Subtype.ext (List.ofFn_injective (assemble_inj (by simp) ?_))⟩
    simp only [drawingBlock, hnumber, assemble_blockOf hbound]

end

/-- Settles O42: the blocks that draw `v` are as many as the values of the bits an attempt drops. -/
theorem everyDrawHasEquallyManyBlocks : Obligations.EveryDrawHasEquallyManyBlocks := by
  intro lo hi v hlo hhi
  rw [← Nat.card_eq_of_bijective _ (drawingBlock_bijective hlo hhi), Nat.card_fin]

/-! ### SAMPLE (41_sampler.md R124) -/

/-- SAMPLE's word: the opcode, and the three operands in their fields. -/
theorem encode_sample_toNat (rd rlo rhi : RegNo) :
    (encode (.sample rd rlo rhi)).toNat = 0x06 + rd.val * 2 ^ 8 + rlo.val * 2 ^ 11 + rhi.val * 2 ^ 14 := by
  simp [encode, buildWord_toNat]

/-- An empty range ends SAMPLE with E_OPERAND before any word is popped. -/
theorem exec_sample_of_empty {rlo rhi : RegNo} {s : State} (h : readReg rhi s < readReg rlo s) (rd : RegNo) :
    exec (.sample rd rlo rhi) s = .next (failedWith 4 s) := by
  rw [exec, execSample, if_pos h]
  rfl

/-- Where the sampler does not end, SAMPLE waits. -/
theorem exec_sample_of_none {rlo rhi : RegNo} {s : State} (hle : readReg rlo s ≤ readReg rhi s)
    (h : sampleRange (readReg rlo s) (readReg rhi s) s.entropy = none) (rd : RegNo) :
    exec (.sample rd rlo rhi) s = .next s := by
  simp only [exec, execSample, if_neg (Nat.not_lt.2 hle), h]

/-- Settles O43: the range is checked first; then the sampler answers, and what it leaves is what was not popped. -/
theorem sampleResult : Obligations.SampleResult := by
  refine fun rd rlo rhi s => ⟨encode_sample_toNat rd rlo rhi, fun h => exec_sample_of_empty h rd,
    fun rejected block rest hle hrejected haccepted hentropy => ?draw⟩
  case draw =>
    have hdraw : sampleRange (readReg rlo s) (readReg rhi s) s.entropy =
        some (readReg rlo s + attemptValue (readReg rlo s) (readReg rhi s) block, rest) := by
      rw [hentropy, List.append_assoc, sampleRange_rejected_flatten_append hrejected,
        sampleRange_accepted_append haccepted]
    have hcount : s.entropy.length - rest.length = rejected.flatten.length + block.length := by
      rw [hentropy, List.length_append, List.length_append, Nat.add_sub_cancel]
    rw [exec_sample_of_sampleRange hle hdraw rd, popTo_of_suffix hentropy, hcount]

end Sys2Proof.Machine
end

section
/-! The Miller-Rabin trials (40_primality.md): what a trial answers, the trials of MRTEST one after the other, and
primes; and the commands that wait for entropy (30_encoding.md R79). -/

namespace Sys2Proof.Machine

/-! ### One trial (40_primality.md R102) -/

/-- The squarings reach `n - 1` exactly when one of the next `count` squares of `x` is `n - 1` modulo `n`. -/
theorem squaresReach_iff (n count x : Nat) :
    squaresReach n count x = true ↔ ∃ i < count, x ^ 2 ^ (i + 1) % n = n - 1 := by
  induction count generalizing x with
  | zero => simp [squaresReach]
  | succ count ih =>
    have hfirst : x ^ 2 ^ (0 + 1) % n = x * x % n := by rw [Nat.zero_add, Nat.pow_one, Nat.pow_two]
    have hnext (i : Nat) : (x * x % n) ^ 2 ^ (i + 1) % n = x ^ 2 ^ (i + 1 + 1) % n := by
      rw [← Nat.pow_mod, ← Nat.pow_two, ← Nat.pow_mul, ← Nat.pow_succ']
    rw [Nat.exists_lt_succ_left, hfirst, squaresReach]
    simp only [← hnext, ← ih]
    by_cases h : x * x % n = n - 1 <;> simp [h]

/-- A trial's answer, for a decomposition with at least one halving. -/
theorem trial_iff {s : Nat} (hs : 1 ≤ s) (n a d : Nat) :
    trial n a d s = true ↔ a ^ d % n = 1 ∨ ∃ i < s, a ^ (d * 2 ^ i) % n = n - 1 := by
  obtain ⟨k, rfl⟩ : ∃ k, s = k + 1 := ⟨s - 1, by omega⟩
  have hsquare (i : Nat) : (a ^ d % n) ^ 2 ^ (i + 1) % n = a ^ (d * 2 ^ (i + 1)) % n := by
    rw [← Nat.pow_mod, ← Nat.pow_mul]
  rw [Nat.exists_lt_succ_left, Nat.pow_zero, Nat.mul_one]
  simp only [trial, modExpRef_eq_pow_mod, Nat.add_sub_cancel, ← hsquare, ← squaresReach_iff, ← or_assoc]
  by_cases h : a ^ d % n = 1 ∨ a ^ d % n = n - 1 <;> simp [h]

/-- A trial on the decomposition of an odd number from 5 passes exactly on the bases that R102 names. -/
theorem trial_decompose_iff {n : Nat} (h5 : 5 ≤ n) (hodd : n % 2 = 1) (a : Nat) :
    trial n a (decompose n).1 (decompose n).2 = true ↔ PassesTrial n a := by
  obtain ⟨hd, hn, hs, honly⟩ := decomposeIsTheOnlyDecomposition n h5 hodd
  rw [trial_iff hs]
  constructor
  · exact fun h => ⟨_, _, hd, hn, h⟩
  · rintro ⟨d, s, hd', hn', h⟩
    rwa [honly d s hd' hn']

/-- Settles O35: the trial's squarings are the powers of the rule. -/
theorem trialPassesExactlyOnStrongLiars : Obligations.TrialPassesExactlyOnStrongLiars := fun _ a h5 hodd _ _ =>
  trial_decompose_iff h5 hodd a

/-! ### MRTRIAL (40_primality.md R106) -/

/-- MRTRIAL's word: the opcode, rn in f1 and ra in f2. -/
theorem encode_mrtrial_toNat (rn ra : RegNo) :
    (encode (.mrtrial rn ra)).toNat = 0x05 + rn.val * 2 ^ 11 + ra.val * 2 ^ 14 := by
  simp [encode, buildWord_toNat]

/-- Within its domain MRTRIAL publishes the trial's answer. -/
theorem exec_mrtrial_of_inside {rn ra : RegNo} {s : State} (h5 : 5 ≤ readReg rn s) (hodd : readReg rn s % 2 = 1)
    (h2 : 2 ≤ readReg ra s) (hle : readReg ra s ≤ readReg rn s - 2) :
    exec (.mrtrial rn ra) s = .next (completedWith s.x
      (trial (readReg rn s) (readReg ra s) (decompose (readReg rn s)).1 (decompose (readReg rn s)).2)
      false false 1 s) := by
  have hn : ¬ (readReg rn s < 5 ∨ readReg rn s % 2 = 0) := by omega
  have ha : ¬ (readReg ra s < 2 ∨ readReg rn s - 2 < readReg ra s) := by omega
  rw [exec, execMrtrial, mrtrialOutcome, if_neg hn, if_neg ha]
  rfl

/-- Settles O36: outside the domain the error, inside it the trial. -/
theorem mrtrialResult : Obligations.MrtrialResult := fun rn ra _ =>
  ⟨encode_mrtrial_toNat rn ra, exec_mrtrial_of_outside, fun h5 hodd h2 hle =>
    ⟨_, trial_decompose_iff h5 hodd _, exec_mrtrial_of_inside h5 hodd h2 hle⟩⟩

/-! ### The trials of MRTEST (40_primality.md R103, R104) -/

/-- Passing trials on the bases drawn leave the remaining trials on the words left. -/
theorem runTrials_of_passing {n d s : Nat} {bases : List Nat} {ws rest : List Word}
    (hdrawn : DrawnBases n bases ws rest) (hpass : ∀ a ∈ bases, trial n a d s = true) (left done : Nat) :
    runTrials n d s (left + bases.length) done ws = runTrials n d s left (done + bases.length) rest := by
  induction bases generalizing ws done with
  | nil =>
    obtain rfl : rest = ws := hdrawn
    rfl
  | cons a as ih =>
    obtain ⟨mid, hdraw, hdrawn⟩ := hdrawn
    obtain ⟨hpass_a, hpass⟩ := List.forall_mem_cons.1 hpass
    have hleft : left + (a :: as).length = left + as.length + 1 := rfl
    have hdone : done + (a :: as).length = done + 1 + as.length := by rw [List.length_cons]; omega
    simp only [hleft, hdone, runTrials, hdraw, hpass_a, if_true, ih hdrawn hpass]

/-- The last of the bases drawn is drawn from what the others left. -/
theorem drawnBases_concat {n a : Nat} {init : List Nat} {ws rest : List Word}
    (h : DrawnBases n (init ++ [a]) ws rest) :
    ∃ mid, DrawnBases n init ws mid ∧ sampleRange 2 (n - 2) mid = some (a, rest) := by
  induction init generalizing ws with
  | nil =>
    obtain ⟨mid, hdraw, hrest⟩ := h
    obtain rfl : rest = mid := hrest
    exact ⟨ws, rfl, hdraw⟩
  | cons b bs ih =>
    obtain ⟨next, hdraw, hdrawn⟩ := h
    obtain ⟨mid, hinit, hlast⟩ := ih hdrawn
    exact ⟨mid, ⟨next, hdraw, hinit⟩, hlast⟩

/-- Where the test does not end, MRTEST waits. -/
theorem exec_mrtest_of_none {rn : RegNo} {s : State}
    (h : isProbablyPrime (readReg rn s) s.rounds.toNat s.entropy = none) : exec (.mrtest rn) s = .next s := by
  simp only [exec, execMrtest, h]

/-- Where the test ends, MRTEST completes with the words it drew popped, counted from the front of the stream. -/
theorem exec_mrtest_of_some {rn : RegNo} {s : State} {v : Bool} {c : Nat} {rest : List Word}
    (h : isProbablyPrime (readReg rn s) s.rounds.toNat s.entropy = some (v, c, rest)) :
    exec (.mrtest rn) s =
      .next (completedWith s.x v false false c (poppedBy (s.entropy.length - rest.length) s)) := by
  obtain ⟨⟨pre, hpre⟩, -⟩ := isProbablyPrime_suffix h
  rw [exec_mrtest_of_isProbablyPrime h, popTo_of_suffix hpre]

/-- Settles O38: the drawn bases are tried in order; the trials end with the last or with the first that fails. -/
theorem mrtestRunsTrialsInSequence : Obligations.MrtestRunsTrialsInSequence := by
  intro rn s bases rest h5 hodd hdrawn
  have htest := isProbablyPrime_of_goOn (prescreen_eq_goOn h5 hodd) s.rounds.toNat s.entropy
  simp only [← trial_decompose_iff h5 hodd]
  refine ⟨fun hcount hpass => exec_mrtest_of_some ?allPass, fun init a hbases hcount hpass hfail =>
    exec_mrtest_of_some ?lastFails⟩
  case allPass =>
    have hrun := runTrials_of_passing hdrawn hpass 0 0
    rw [Nat.zero_add] at hrun
    rw [htest, ← hcount, hrun]
    rfl
  case lastFails =>
    subst hbases
    obtain ⟨mid, hinit, hlast⟩ := drawnBases_concat hdrawn
    rw [List.length_append, List.length_singleton] at hcount
    obtain ⟨left, hleft⟩ : ∃ left, s.rounds.toNat = left + 1 + init.length :=
      ⟨s.rounds.toNat - 1 - init.length, by omega⟩
    rw [htest, hleft, runTrials_of_passing hinit hpass, List.length_append, List.length_singleton]
    simp only [runTrials, hlast, hfail, Nat.zero_add]
    rfl

/-- Settles O44: the sampler's attempts, or the draw of the next base, do not end on the words supplied. -/
theorem commandsWaitForEntropy : Obligations.CommandsWaitForEntropy := by
  refine fun s => ⟨fun rd rlo rhi rejected short hle hrejected hshort hentropy => exec_sample_of_none hle ?_ rd,
    fun rn bases mid h5 hodd hdrawn hpass hcount hnone => exec_mrtest_of_none ?_⟩
  · rw [hentropy, sampleRange_rejected_flatten_append hrejected, sampleRange_of_short hshort]
  · simp only [← trial_decompose_iff h5 hodd] at hpass
    obtain ⟨left, hleft⟩ : ∃ left, s.rounds.toNat = left + 1 + bases.length :=
      ⟨s.rounds.toNat - 1 - bases.length, by omega⟩
    rw [isProbablyPrime_of_goOn (prescreen_eq_goOn h5 hodd), hleft, runTrials_of_passing hdrawn hpass]
    simp only [runTrials, hnone]

/-! ### Primes (40_primality.md R105) -/

/-- In a domain, an element whose `2^s`-th power is 1 is 1, or one of the squares before that power is -1: each
square root of 1 is 1 or -1. -/
theorem eq_one_or_exists_pow_eq_neg_one {R : Type} [CommRing R] [NoZeroDivisors R] {x : R} {s : Nat}
    (h : x ^ 2 ^ s = 1) : x = 1 ∨ ∃ i < s, x ^ 2 ^ i = -1 := by
  induction s with
  | zero => exact .inl (by simpa using h)
  | succ s ih =>
    rw [Nat.pow_succ, pow_mul] at h
    rcases sq_eq_one_iff.1 h with hone | hneg
    · exact (ih hone).imp_right fun ⟨i, hi, hpow⟩ => ⟨i, hi.trans (Nat.lt_succ_self s), hpow⟩
    · exact .inr ⟨s, Nat.lt_succ_self s, hneg⟩

/-- A prime passes a trial on every base of the domain: `a^(n-1)` is 1 modulo `n`. -/
theorem passesTrial_of_prime {n a : Nat} (hn : n.Prime) (h2 : 2 ≤ a) (hle : a ≤ n - 2) : PassesTrial n a := by
  have := Fact.mk hn
  have hn2 := hn.two_le
  obtain ⟨s, d, hd, hnd⟩ := Nat.exists_eq_two_pow_mul_odd (n := n - 1) (by omega)
  rw [Nat.mul_comm] at hnd
  have hne : (a : ZMod n) ≠ 0 := fun hzero =>
    absurd (Nat.le_of_dvd (by omega) ((ZMod.natCast_eq_zero_iff a n).1 hzero)) (by omega)
  have hfermat : ((a : ZMod n) ^ d) ^ 2 ^ s = 1 := by
    rw [← pow_mul, ← hnd]
    exact ZMod.pow_card_sub_one_eq_one hne
  have hneg : ((n - 1 : Nat) : ZMod n) = -1 := by
    rw [Nat.cast_sub hn.one_le, ZMod.natCast_self]
    simp
  refine ⟨d, s, Nat.odd_iff.1 hd, hnd, (eq_one_or_exists_pow_eq_neg_one hfermat).imp (fun hone => ?_)
    fun ⟨i, hi, hpow⟩ => ⟨i, hi, ?_⟩⟩
  · have hcast : ((a ^ d : Nat) : ZMod n) = (1 : Nat) := by
      push_cast
      exact hone
    rw [(ZMod.natCast_eq_natCast_iff' _ _ _).1 hcast, Nat.mod_eq_of_lt (by omega)]
  · have hcast : ((a ^ (d * 2 ^ i) : Nat) : ZMod n) = (n - 1 : Nat) := by
      rw [hneg, Nat.cast_pow, pow_mul]
      exact hpow
    rw [(ZMod.natCast_eq_natCast_iff' _ _ _).1 hcast, Nat.mod_eq_of_lt (by omega)]

/-- Where every base of the domain passes, the trials that end have all run. -/
theorem runTrials_of_all_pass {n d s : Nat} (hn : 4 ≤ n) (hpass : ∀ a, 2 ≤ a → a ≤ n - 2 → trial n a d s = true)
    {left done c : Nat} {v : Bool} {ws rest : List Word}
    (h : runTrials n d s left done ws = some (v, c, rest)) : v = true ∧ c = done + left := by
  induction left generalizing done ws with
  | zero =>
    cases h
    exact ⟨rfl, rfl⟩
  | succ left ih =>
    rw [runTrials] at h
    split at h
    · cases h
    · rename_i a mid hdraw
      obtain ⟨hlo, hhi, -⟩ := sampleRange_suffix (by omega) hdraw
      rw [if_pos (hpass a hlo hhi)] at h
      obtain ⟨hv, hc⟩ := ih h
      exact ⟨hv, by omega⟩

/-- The test accepts every prime it ends on, from 5 on after all its trials. -/
theorem isProbablyPrime_of_prime {n rounds c : Nat} {v : Bool} {ws rest : List Word} (hn : n.Prime)
    (h : isProbablyPrime n rounds ws = some (v, c, rest)) : v = true ∧ (5 ≤ n → c = rounds) := by
  rcases Nat.lt_or_ge n 5 with hlt | h5
  · have hsmall : n = 2 ∨ n = 3 := by
      have h2 := hn.two_le
      have h4 : n ≠ 4 := by
        rintro rfl
        exact absurd hn (by decide)
      omega
    rw [isProbablyPrime_of_accept (prescreen_eq_accept hsmall)] at h
    cases h
    exact ⟨rfl, fun h5 => by omega⟩
  · have hodd : n % 2 = 1 := (hn.eq_two_or_odd).resolve_left (by omega)
    rw [isProbablyPrime_of_goOn (prescreen_eq_goOn h5 hodd)] at h
    obtain ⟨hv, hc⟩ := runTrials_of_all_pass (by omega)
      (fun a h2 hle => (trial_decompose_iff h5 hodd a).2 (passesTrial_of_prime hn h2 hle)) h
    exact ⟨hv, fun _ => hc.trans (Nat.zero_add _)⟩

/-- Settles O39: a prime passes on every base, so the test can only accept it. -/
theorem primesAreNeverRejected : Obligations.PrimesAreNeverRejected := by
  refine ⟨fun n a hn _ => passesTrial_of_prime hn, fun rn s t hn hbusy h hidle => ?mrtest⟩
  case mrtest =>
    cases htest : isProbablyPrime (readReg rn s) s.rounds.toNat s.entropy with
    | none =>
      rw [exec_mrtest_of_none htest] at h
      obtain rfl := Host.Outcome.next.inj h
      rw [hbusy] at hidle
      cases hidle
    | some result =>
      obtain ⟨v, c, rest⟩ := result
      rw [exec_mrtest_of_some htest] at h
      obtain rfl := Host.Outcome.next.inj h
      obtain ⟨rfl, hc⟩ := isProbablyPrime_of_prime hn htest
      refine ⟨rfl, rfl, fun h5 => ?_⟩
      simp [completedWith, hc h5]

end Sys2Proof.Machine
end

section
/-! The lines of a host program (30_encoding.md R81): LDI loads a register limb by limb, RDR reads one back, and WAIT
reads STATUS until the engine has had its turn. -/

namespace Sys2Proof.Machine

/-! ### LDI (20_memory.md R54, 30_encoding.md R81) -/

/-- Numbers of `n` limbs with the same limbs are the same. -/
theorem eq_of_limbs_eq {n a b : Nat} (ha : a < 2 ^ (32 * n)) (hb : b < 2 ^ (32 * n))
    (h : ∀ j < n, a / 2 ^ (32 * j) % 2 ^ 32 = b / 2 ^ (32 * j) % 2 ^ 32) : a = b := by
  have hsum := sum_limbs_eq_mod a n
  rw [List.map_congr_left fun j hj => by rw [h j (List.mem_range.1 hj)], sum_limbs_eq_mod b n] at hsum
  rw [← Nat.mod_eq_of_lt ha, ← Nat.mod_eq_of_lt hb, hsum]

/-- The value `v` with the listed limbs replaced by those of `V`. -/
def loadedLimbs (V : Nat) (is : List Nat) (v : Nat) : Nat := is.foldl (fun y i => withLimb y i (limbOf V i)) v

/-- A loaded limb is `V`'s, another one as before. -/
theorem loadedLimbs_limb (V : Nat) (is : List Nat) (v j : Nat) :
    loadedLimbs V is v / 2 ^ (32 * j) % 2 ^ 32 =
      if j ∈ is then V / 2 ^ (32 * j) % 2 ^ 32 else v / 2 ^ (32 * j) % 2 ^ 32 := by
  induction is generalizing v with
  | nil => rfl
  | cons i is ih =>
    refine (ih (withLimb v i (limbOf V i))).trans ?_
    rw [withLimb_limb, limbOf_toNat]
    by_cases hmem : j ∈ is
    · simp [hmem]
    · by_cases heq : j = i <;> simp [hmem, heq]

/-- Loading limbs below `n` keeps a value of `n` limbs one. -/
theorem loadedLimbs_lt {V n v : Nat} {is : List Nat} (his : ∀ i ∈ is, i < n) (hv : v < 2 ^ (32 * n)) :
    loadedLimbs V is v < 2 ^ (32 * n) := by
  induction is generalizing v with
  | nil => exact hv
  | cons i is ih =>
    obtain ⟨hi, his⟩ := List.forall_mem_cons.1 his
    exact ih his (withLimb_lt (limbOf V i) hi hv)

/-- Loading every limb loads the value. -/
theorem loadedLimbs_range {V n v : Nat} (hV : V < 2 ^ (32 * n)) (hv : v < 2 ^ (32 * n)) :
    loadedLimbs V (List.range n) v = V :=
  eq_of_limbs_eq (loadedLimbs_lt (fun _ => List.mem_range.1) hv) hV fun j hj => by
    rw [loadedLimbs_limb, if_pos (List.mem_range.2 hj)]

/-- Writing to a register the value it holds changes nothing. -/
theorem writeReg_readReg_self (k : RegNo) (s : State) : writeReg k (readReg k s) s = s := by
  rw [writeReg, set_readReg_self]

/-- On an idle block the limb writes load the register, each using up one turn. -/
theorem loadLimbs_of_idle {r : HostRun} (hc : r.state.config.Wf) (hidle : r.state.status.busy = false) (k : RegNo)
    (V : Nat) {is : List Nat} (his : ∀ i ∈ is, i < r.state.config.limbs) :
    loadLimbs k V is r = .done ()
      ⟨{ writeReg k (loadedLimbs V is (readReg k r.state)) r.state with
          response := if is = [] then r.state.response else some .ok }, r.turns.drop is.length⟩ := by
  induction is generalizing r with
  | nil =>
    have hsame := writeReg_readReg_self k r.state
    simp only [loadLimbs, hostReturn, loadedLimbs, List.foldl_nil, hsame, if_true, List.length_nil, List.drop_zero]
  | cons i is ih =>
    obtain ⟨hi, his⟩ := List.forall_mem_cons.1 his
    have hwrite : memWrite (limbAddr k i) 4 (limbOf V i) r.advance.state =
        (.ok, writeReg k (withLimb (readReg k r.state) i (limbOf V i)) r.state) := by
      rw [advance_idle hidle]
      exact memWrite_limbAddr hc hi hidle k (limbOf V i)
    have hrest := ih (r := ⟨{ writeReg k (withLimb (readReg k r.state) i (limbOf V i)) r.state with
      response := some .ok }, r.turns.tail⟩) hc hidle his
    have hread (v : Nat) : readReg k { writeReg k v r.state with response := some .ok } = v :=
      readReg_writeReg_self k v r.state
    rw [loadLimbs, hostThen_done (wr_ok hwrite), hrest, hread]
    simp [loadedLimbs, writeReg]

/-- LDI on an idle block loads the register and changes nothing else but the bus answer. -/
theorem ldi_of_idle {r : HostRun} (hs : r.state.Inv) (hidle : r.state.status.busy = false) (k : RegNo) {V : Nat}
    (hV : V < 2 ^ r.state.config.width) :
    ldi k V r = .done ()
      ⟨{ writeReg k V r.state with response := some .ok }, r.turns.drop r.state.config.limbs⟩ := by
  have hsome : List.range r.state.config.limbs ≠ [] := by
    have := hs.config_wf.1
    rw [Ne, List.range_eq_nil]
    omega
  rw [ldi, hostNeeds_fits (by simpa using hV), loadLimbs_of_idle hs.config_wf hidle k V fun _ => List.mem_range.1,
    loadedLimbs_range hV (hs.regs_fit k), if_neg hsome, List.length_range]

/-! ### RDR (20_memory.md R53, 30_encoding.md R81) -/

/-- On an idle block the limb reads answer the register's limbs, each using up one turn. -/
theorem fetchLimbs_of_idle {r : HostRun} (hc : r.state.config.Wf) (hidle : r.state.status.busy = false) (k : RegNo)
    {is : List Nat} (his : ∀ i ∈ is, i < r.state.config.limbs) :
    ∃ a, fetchLimbs k is r = .done (is.map (limbOf (readReg k r.state)))
      ⟨{ r.state with response := a }, r.turns.drop is.length⟩ := by
  induction is generalizing r with
  | nil => exact ⟨r.state.response, rfl⟩
  | cons i is ih =>
    obtain ⟨hi, his⟩ := List.forall_mem_cons.1 his
    have hread : memRead (limbAddr k i) 4 r.advance.state = .okData (limbOf (readReg k r.state) i) := by
      rw [advance_idle hidle]
      exact memRead_limbAddr hc hi hidle k
    obtain ⟨a, ha⟩ := ih (r := ⟨{ r.advance.state with
      response := some (.okData (limbOf (readReg k r.state) i)) }, r.turns.tail⟩)
      (by rwa [advance_idle hidle]) (by rwa [advance_idle hidle]) (by rwa [advance_idle hidle])
    refine ⟨a, ?_⟩
    rw [fetchLimbs, hostThen_done (rd_okData hread), hostThen_done ha, advance_idle hidle]
    simp only [hostReturn, List.length_cons, List.drop_tail, List.map_cons]
    rfl

/-- RDR on an idle block answers the register and changes nothing but the bus answer. -/
theorem rdr_of_idle {r : HostRun} (hs : r.state.Inv) (hidle : r.state.status.busy = false) (k : RegNo) :
    ∃ a, rdr k r = .done (readReg k r.state)
      ⟨{ r.state with response := a }, r.turns.drop r.state.config.limbs⟩ := by
  obtain ⟨a, ha⟩ := fetchLimbs_of_idle hs.config_wf hidle k (is := List.range r.state.config.limbs)
    fun _ => List.mem_range.1
  have hvalue : readReg k r.state % 2 ^ (32 * r.state.config.limbs) = readReg k r.state :=
    Nat.mod_eq_of_lt (hs.regs_fit k)
  refine ⟨a, ?_⟩
  rw [rdr, hostThen_done ha, hostReturn, assemble_map_limbOf, hvalue, List.length_range]

/-! ### WAIT (30_encoding.md R81, 93_implementation_defined.md Z15) -/

/-- The block with the status word `STATUS` as the bus' last answer: what a read of STATUS leaves. -/
def statusRead (s : State) : State := { s with response := some (.okData (statusWord s.status)) }

/-- A poll that reads BUSY = 0 is the last. -/
theorem waitPolls_of_idle (polls : Nat) {r : HostRun} (h : r.advance.state.status.busy = false) :
    waitPolls polls r = .done (statusWord r.advance.state.status) ⟨statusRead r.advance.state, r.turns.tail⟩ := by
  have hbit : (statusWord r.advance.state.status).getLsbD 0 = false := (statusWord_bits _).1.trans h
  cases polls with
  | zero =>
    rw [waitPolls, hostThen_done (rd_status r), hbit]
    rfl
  | succ polls =>
    rw [waitPolls, hostThen_done (rd_status r), hbit]
    rfl

/-- A poll that reads BUSY = 1 is followed by the next. -/
theorem waitPolls_of_busy (polls : Nat) {r : HostRun} (h : r.advance.state.status.busy = true) :
    waitPolls (polls + 1) r = waitPolls polls ⟨statusRead r.advance.state, r.turns.tail⟩ := by
  have hbit : (statusWord r.advance.state.status).getLsbD 0 = true := (statusWord_bits _).1.trans h
  rw [waitPolls, hostThen_done (rd_status r), hbit]
  rfl

/-- The last poll that reads BUSY = 1 waits. -/
theorem waitPolls_zero_of_busy {r : HostRun} (h : r.advance.state.status.busy = true) :
    waitPolls 0 r = .waiting ⟨statusRead r.advance.state, r.turns.tail⟩ := by
  have hbit : (statusWord r.advance.state.status).getLsbD 0 = true := (statusWord_bits _).1.trans h
  rw [waitPolls, hostThen_done (rd_status r), hbit]
  rfl

/-- With the engine's turn next, or no turn listed, the block is taken to the engine's next state. -/
theorem advance_of_turn {s t : State} (h : engineStep s = .next t) (turns : List Bool)
    (hturn : turns.headD true = true) : HostRun.advance ⟨s, turns⟩ = ⟨t, turns.tail⟩ := by
  simp only [HostRun.advance, hturn, engineTurn, h, if_true]

/-- Where the completion is enabled the polls read BUSY = 1 up to the engine's first turn, and then the completed
command's STATUS. -/
theorem waitPolls_of_completion {s t : State} (hbusy : s.status.busy = true) (hidle : t.status.busy = false)
    (h : engineStep s = .next t) (turns : List Bool) :
    ∃ left, waitPolls turns.length ⟨s, turns⟩ = .done (statusWord t.status) ⟨statusRead t, left⟩ ∧
      ∀ n rest, turns = List.replicate n false ++ true :: rest → left = rest := by
  induction turns generalizing s t with
  | nil =>
    have hpoll := waitPolls_of_idle 0 (r := ⟨s, []⟩) (by rwa [advance_of_turn h [] rfl])
    rw [advance_of_turn h [] rfl] at hpoll
    exact ⟨[], hpoll, fun n rest hnil => by simp at hnil⟩
  | cons turn turns ih =>
    cases turn with
    | true =>
      have hpoll := waitPolls_of_idle (turns.length + 1) (r := ⟨s, true :: turns⟩)
        (by rwa [advance_of_turn h (true :: turns) rfl])
      rw [advance_of_turn h (true :: turns) rfl] at hpoll
      refine ⟨turns, hpoll, fun n rest heq => ?_⟩
      cases n with
      | zero => exact (List.cons.inj heq).2
      | succ n => cases (List.cons.inj heq).1
    | false =>
      obtain ⟨left, hdone, hleft⟩ := ih (s := statusRead s)
        (t := { t with response := some (.okData (statusWord s.status)) }) hbusy hidle (engineStep_withResponse _ h)
      refine ⟨left, (waitPolls_of_busy turns.length (r := ⟨s, false :: turns⟩) hbusy).trans hdone,
        fun n rest heq => ?_⟩
      cases n with
      | zero => cases (List.cons.inj heq).1
      | succ n => exact hleft n rest (List.cons.inj heq).2

/-- Where the completion is not enabled every poll reads BUSY = 1. -/
theorem waitPolls_of_waiting {s : State} (hbusy : s.status.busy = true) (h : engineStep s = .next s)
    (turns : List Bool) : waitPolls turns.length ⟨s, turns⟩ = .waiting ⟨statusRead s, []⟩ := by
  induction turns generalizing s with
  | nil =>
    have hpoll := waitPolls_zero_of_busy (r := ⟨s, []⟩) (by rwa [advance_of_turn h [] rfl])
    rwa [advance_of_turn h [] rfl] at hpoll
  | cons turn turns ih =>
    have hadvance : HostRun.advance ⟨s, turn :: turns⟩ = ⟨s, turns⟩ := by
      cases turn with
      | true => exact advance_of_turn h (true :: turns) rfl
      | false => rfl
    have hpoll := waitPolls_of_busy turns.length (r := ⟨s, turn :: turns⟩) (by rwa [hadvance])
    rw [hadvance] at hpoll
    exact hpoll.trans (ih (s := statusRead s) hbusy (engineStep_withResponse _ h))

/-- Settles O56: the lines on an idle block, and a WAIT by the turns listed for it. -/
theorem hostLinesLoadReadBackAndWait : Obligations.HostLinesLoadReadBackAndWait := by
  refine fun r k V hs => ⟨fun hV => hostNeeds_tooWide (List.mem_singleton.2 rfl) hV, fun hidle =>
    ⟨fun hV => ldi_of_idle hs hidle k hV, rdr_of_idle hs hidle k, ?waitIdle⟩, fun t hbusy h => ⟨fun hidle => ?waitDone,
    fun hstill => ?waiting⟩⟩
  case waitIdle =>
    have hpoll := waitPolls_of_idle r.turns.length (r := r) (by rwa [advance_idle hidle])
    rwa [advance_idle hidle] at hpoll
  case waitDone => exact waitPolls_of_completion hbusy hidle h r.turns
  case waiting =>
    obtain rfl := engineStep_stillBusy h hstill
    exact waitPolls_of_waiting hbusy h r.turns

end Sys2Proof.Machine
end

section
/-! Host programs as a whole (30_encoding.md R81): how a program that runs on an idle block ends, whatever its turns,
line by line and command by command. -/

namespace Sys2Proof.Machine

/-! ### The block between two lines -/

/-- An idle block that meets the invariants: it admits every line. -/
structure State.Ready (s : State) : Prop where
  inv : s.Inv
  idle : s.status.busy = false

/-- The idle block `t` that lines lead to from `s`: they have written the registers `ks` only, and have popped entropy
words at most. -/
structure ReadyFrom (ks : List RegNo) (s t : State) : Prop where
  ready : t.Ready
  config_eq : t.config = s.config
  rounds_eq : t.rounds = s.rounds
  entropy_le : t.entropy.length ≤ s.entropy.length
  regs_eq : ∀ k ∉ ks, readReg k t = readReg k s

theorem ReadyFrom.refl {s : State} (hs : s.Ready) : ReadyFrom [] s s := ⟨hs, rfl, rfl, le_rfl, fun _ _ => rfl⟩

/-- Lines after lines. -/
theorem ReadyFrom.trans {ks ls ms : List RegNo} {s t u : State} (h : ReadyFrom ks s t) (h' : ReadyFrom ls t u)
    (hks : ks ⊆ ms) (hls : ls ⊆ ms) : ReadyFrom ms s u where
  ready := h'.ready
  config_eq := h'.config_eq.trans h.config_eq
  rounds_eq := h'.rounds_eq.trans h.rounds_eq
  entropy_le := h'.entropy_le.trans h.entropy_le
  regs_eq k hk := (h'.regs_eq k fun hmem => hk (hls hmem)).trans (h.regs_eq k fun hmem => hk (hks hmem))

/-- A command in flight whose completion is not enabled (30_encoding.md R79). -/
def WaitsForEntropy (s : State) : Prop := s.status.busy = true ∧ engineStep s = .next s

/-! ### How a program ends -/

/-- Started in `s`, whatever the turns, the program is done with an answer and a state that meet `Q`, or waits in a
state that meets `W`; it never fails. -/
def Ends {α : Type} (W : State → Prop) (Q : α → State → Prop) (p : HostProg α) (s : State) : Prop :=
  ∀ turns, (∃ a t, p ⟨s, turns⟩ = .done a t ∧ Q a t.state) ∨ ∃ t, p ⟨s, turns⟩ = .waiting t ∧ W t.state

section
variable {α β : Type} {W : State → Prop} {s : State}

theorem Ends.hostReturn {Q : α → State → Prop} {a : α} (h : Q a s) : Ends W Q (hostReturn a) s :=
  fun turns => .inl ⟨a, ⟨s, turns⟩, rfl, h⟩

/-- One program after another: the second starts where the first is done. -/
theorem Ends.hostThen {Q : β → State → Prop} {p : HostProg α} {q : α → HostProg β}
    (h : Ends W (fun a t => Ends W Q (q a) t) p s) : Ends W Q (hostThen p q) s := by
  intro turns
  rcases h turns with ⟨a, t, hdone, hq⟩ | ⟨t, hwait, ht⟩
  · rw [hostThen_done hdone]
    exact hq t.turns
  · exact .inr ⟨t, hostThen_waiting hwait, ht⟩

theorem Ends.mono {Q R : α → State → Prop} {p : HostProg α} (h : Ends W Q p s) (hQR : ∀ a t, Q a t → R a t) :
    Ends W R p s := fun turns =>
  (h turns).imp_left fun ⟨a, t, hdone, hq⟩ => ⟨a, t, hdone, hQR a _ hq⟩

/-- A program that looks at the state it starts in. -/
theorem Ends.ofState {Q : α → State → Prop} {p : State → HostProg α} (h : Ends W Q (p s) s) :
    Ends W Q (fun r => p r.state r) s := h

/-- A program whose values fit runs. -/
theorem Ends.hostNeeds {Q : α → State → Prop} {vs : List Nat} {p : HostProg α}
    (hvs : ∀ V ∈ vs, V < 2 ^ s.config.width) (h : Ends W Q p s) : Ends W Q (hostNeeds vs p) s := by
  intro turns
  rw [hostNeeds_fits (r := ⟨s, turns⟩) hvs]
  exact h turns

/-- LDI on an idle block loads its register. -/
theorem Ends.ldi {Q : Unit → State → Prop} {k : RegNo} {V : Nat} (hs : s.Ready) (hV : V < 2 ^ s.config.width)
    (hQ : ∀ t, ReadyFrom [k] s t → readReg k t = V → Q () t) : Ends W Q (ldi k V) s := fun turns =>
  .inl ⟨(), _, ldi_of_idle (r := ⟨s, turns⟩) hs.inv hs.idle k hV, hQ _
    { ready := ⟨(hs.inv.writeReg k hV).congr rfl rfl rfl rfl rfl, hs.idle⟩
      config_eq := rfl
      rounds_eq := rfl
      entropy_le := le_rfl
      regs_eq := fun _ hj => readReg_writeReg_ne (fun h => hj (List.mem_singleton.2 h)) V s }
    (readReg_writeReg_self k V s)⟩

/-- RDR on an idle block answers its register. -/
theorem Ends.rdr {Q : Nat → State → Prop} {k : RegNo} (hs : s.Ready)
    (hQ : ∀ t, ReadyFrom [] s t → Q (readReg k s) t) : Ends W Q (rdr k) s := by
  intro turns
  obtain ⟨a, ha⟩ := rdr_of_idle (r := ⟨s, turns⟩) hs.inv hs.idle k
  exact .inl ⟨_, _, ha, hQ _ ⟨⟨hs.inv.congr rfl rfl rfl rfl rfl, hs.idle⟩, rfl, rfl, le_rfl, fun _ _ => rfl⟩⟩

end

/-! ### A command line and its WAIT -/

/-- The idle block `t` after the command `i`, run on `s`, has ended with the outcome `o`. -/
structure CompletedFrom (i : Instr) (o : CmdOutcome) (s t : State) : Prop extends ReadyFrom (dests i) s t where
  x_eq : t.x = (complete o s).x
  status_eq : t.status = (complete o s).status
  cmd_eq : t.cmd = encode i

/-- The registers after a completion depend on the registers before it only. -/
theorem complete_x_congr {s t : State} (h : t.x = s.x) (o : CmdOutcome) : (complete o t).x = (complete o s).x := by
  cases o with
  | error e => exact h
  | success ws v xn yn c =>
    change (writeRegs ws t).x = (writeRegs ws s).x
    induction ws generalizing s t with
    | nil => exact h
    | cons p ps ih => exact ih (by rw [writeReg_x, writeReg_x, h])

/-- STATUS after a completion is the outcome's. -/
theorem complete_status_congr (s t : State) (o : CmdOutcome) : (complete o t).status = (complete o s).status := by
  cases o <;> rfl

/-- The block right after a command line: the launch, answered with OK. -/
def launchedBy (i : Instr) (s : State) : State := { launch (encode i) s with response := some .ok }

/-- A command line on an idle block launches its command, using up one turn. -/
theorem launchLine_of_idle {s : State} (hidle : s.status.busy = false) (i : Instr) (turns : List Bool) :
    launchLine i ⟨s, turns⟩ = .done () ⟨launchedBy i s, turns.tail⟩ := by
  refine wr_ok ?_
  rw [advance_idle (r := ⟨s, turns⟩) hidle]
  exact memWrite_cmd_of_idle hidle (encode i)

/-- A launch keeps the invariants. -/
theorem inv_launchedBy {s : State} (hs : s.Inv) (i : Instr) : (launchedBy i s).Inv :=
  (hs.launch (encode i)).congr rfl rfl rfl rfl rfl

/-- The engine's turn after a command line runs the command. -/
theorem engineStep_launchedBy {i : Instr} (hwf : i.wellFormed = true) (s : State) :
    engineStep (launchedBy i s) = exec i (launchedBy i s) :=
  engineStep_of_decode rfl (decodeOfEncodeIsTheCommand i hwf)

/-- What the WAIT after a command line finds once the command has ended. -/
theorem completedFrom_of_endsWith {i : Instr} {s : State} {o : CmdOutcome} {rest : List Word} (hs : s.Inv)
    (hwf : i.wellFormed = true) (hends : EndsWith i s o rest) :
    CompletedFrom i o s (statusRead (complete o (popTo rest (launchedBy i s)))) := by
  have hends' : EndsWith i (launchedBy i s) o rest := hends.congr rfl rfl rfl fun _ _ => rfl
  have hinv := (inv_launchedBy hs i).engineStep ((engineStep_launchedBy hwf s).trans hends'.exec_eq)
  obtain ⟨⟨pre, hpre⟩, -⟩ := hends.suffix
  obtain ⟨hconfig, hcmd, hrounds, -, -, hregs⟩ := complete_keeps (ds := dests i) o (popTo rest (launchedBy i s))
    fun ws v xn yn c ho => by
      subst ho
      exact hends.success.1
  exact {
    ready := ⟨hinv.congr rfl rfl rfl rfl rfl, (complete_idle o _).1⟩
    config_eq := hconfig
    rounds_eq := hrounds
    entropy_le := by
      rw [statusRead, complete_entropy, popTo_entropy, hpre, List.length_append]
      exact Nat.le_add_left _ _
    regs_eq := hregs
    x_eq := complete_x_congr (s := s) (t := popTo rest (launchedBy i s)) rfl o
    status_eq := complete_status_congr s (popTo rest (launchedBy i s)) o
    cmd_eq := hcmd }

section
variable {W : State → Prop} {Q : Word → State → Prop} {s : State}

/-- A command line on an idle block: the command ends with its outcome and WAIT answers its STATUS, or the command
waits for entropy. -/
theorem Ends.runCommand {i : Instr} (hs : s.Ready) (hwf : i.wellFormed = true)
    (hW : popsEntropy i = true → ∀ t, WaitsForEntropy t → W t)
    (hQ : ∀ o rest t, EndsWith i s o rest → CompletedFrom i o s t → t.entropy = rest → Q (statusWord t.status) t) :
    Ends W Q (runCommand i) s := by
  intro turns
  have hstep := engineStep_launchedBy hwf s
  rw [Machine.runCommand, hostThen_done (launchLine_of_idle hs.idle i turns)]
  rcases exec_outcome i (launchedBy i s) with ⟨hpops, hexec⟩ | ⟨o, rest, hends, hexec⟩ <;> rw [hexec] at hstep
  · exact .inr ⟨_, waitPolls_of_waiting rfl hstep turns.tail,
      hW hpops _ ⟨rfl, engineStep_withResponse _ hstep⟩⟩
  · have hends' : EndsWith i s o rest := hends.congr rfl rfl rfl fun _ _ => rfl
    obtain ⟨left, hdone, -⟩ := waitPolls_of_completion rfl (complete_idle o _).1 hstep turns.tail
    exact .inl ⟨_, _, hdone,
      hQ o rest _ hends' (completedFrom_of_endsWith hs.inv hwf hends') (complete_entropy o _)⟩

/-! ### The commands of the host sequences -/

/-- A draw from a range of more than one value uses up words. -/
theorem sampleRange_length_lt {lo hi v : Nat} {ws rest : List Word} (hlt : lo < hi)
    (h : sampleRange lo hi ws = some (v, rest)) : rest.length < ws.length := by
  obtain ⟨rejected, block, -, ⟨hlen, -⟩, rfl, -⟩ := exists_attempts_of_sampleRange h
  have hsize : 0 < (hi - lo).size := Nat.size_pos.2 (by omega)
  have hpos : 0 < attemptWords lo hi := by
    unfold attemptWords
    omega
  simp only [List.length_append]
  omega

/-- A register that a completion has written last holds the value. -/
theorem readReg_of_written {t u : State} {k : RegNo} {v : Nat} (h : t.x = (writeReg k v u).x) : readReg k t = v :=
  (readReg_of_x_eq h k).trans (readReg_writeReg_self k v u)

/-- SAMPLE over a range of more than one value draws a value of it, or waits for entropy. -/
theorem Ends.sample {rd rlo rhi : RegNo} (hs : s.Ready) (hlt : readReg rlo s < readReg rhi s)
    (hW : ∀ t, WaitsForEntropy t → W t)
    (hQ : ∀ t st, ReadyFrom [rd] s t → readReg rlo s ≤ readReg rd t → readReg rd t ≤ readReg rhi s →
      t.entropy.length < s.entropy.length → Q st t) :
    Ends W Q (Machine.runCommand (.sample rd rlo rhi)) s := by
  refine .runCommand hs rfl (fun _ => hW) fun o rest t hends ht hrest => ?_
  rcases hends with ⟨-, -, hempty⟩ | ⟨v, rfl, hle, hdraw⟩
  · omega
  · obtain ⟨hlo, hhi, -⟩ := sampleRange_suffix hle hdraw
    have hv : readReg rd t = v := readReg_of_written (u := s) ht.x_eq
    rw [← hv] at hlo hhi
    exact hQ t _ ht.toReadyFrom hlo hhi (hrest ▸ sampleRange_length_lt hlt hdraw)

/-- MRTEST ends with DONE and without error, or waits for entropy. -/
theorem Ends.mrtest {rn : RegNo} (hs : s.Ready) (hW : ∀ t, WaitsForEntropy t → W t)
    (hQ : ∀ t, ReadyFrom [] s t → t.status.done = true → t.cmd = encode (.mrtest rn) → Q (statusWord t.status) t) :
    Ends W Q (Machine.runCommand (.mrtest rn)) s := by
  refine .runCommand hs rfl (fun _ => hW) fun o rest t _ ht _ => hQ t ht.toReadyFrom ?_ ht.cmd_eq
  rw [ht.status_eq]
  exact (complete_idle o s).2

/-- MODEXP with a modulus other than 0 leaves the power in its destination. -/
theorem Ends.modexp {rd rb re rm : RegNo} (hs : s.Ready) (hm : readReg rm s ≠ 0)
    (hQ : ∀ t st, ReadyFrom [rd] s t → readReg rd t = readReg rb s ^ readReg re s % readReg rm s → Q st t) :
    Ends W Q (Machine.runCommand (.modexp rd rb re rm)) s := by
  refine .runCommand hs rfl nofun fun o rest t hends ht _ => ?_
  obtain ⟨-, rfl⟩ := hends
  refine hQ t _ ht.toReadyFrom ?_
  rw [← modExpRef_eq_pow_mod]
  have hx := ht.x_eq
  rw [modexpOutcome, if_neg hm] at hx
  exact readReg_of_written (u := s) hx

/-- EGCD leaves the gcd in its first destination. -/
theorem Ends.egcd {rg rx ry ra rb : RegNo} (hs : s.Ready) (hdests : distinctDests rg rx ry = true)
    (hQ : ∀ t st, ReadyFrom [rg, rx, ry] s t → readReg rg t = Nat.gcd (readReg ra s) (readReg rb s) → Q st t) :
    Ends W Q (Machine.runCommand (.egcd rg rx ry ra rb)) s := by
  refine .runCommand hs hdests nofun fun o rest t hends ht _ => ?_
  obtain ⟨-, rfl⟩ := hends
  obtain ⟨hg, hx, hy⟩ :=
    extendedGcd_lt_two_pow (one_le_width hs.inv.config_wf) (hs.inv.regs_fit ra) (hs.inv.regs_fit rb)
  obtain ⟨hgx, hgy, -⟩ := distinctDests_iff.1 hdests
  have hwritten := ht.x_eq
  rw [egcdOutcome_of_fits hdests (g := (extendedGcd (readReg ra s) (readReg rb s)).1) rfl hg hx hy] at hwritten
  refine hQ t _ ht.toReadyFrom ?_
  rw [← extendedGcd_fst, readReg_of_x_eq hwritten rg, complete, readReg_publish]
  simp only [writeRegs, List.foldl_cons, List.foldl_nil, readReg_writeReg_ne hgx, readReg_writeReg_ne hgy,
    readReg_writeReg_self]

/-- MODINV with a gcd of 1 leaves the inverse in its destination, without error. -/
theorem Ends.modinv {rd ra rm : RegNo} (hs : s.Ready) (hm : readReg rm s ≠ 0)
    (hgcd : Nat.gcd (readReg ra s) (readReg rm s) = 1)
    (hQ : ∀ t, ReadyFrom [rd] s t → t.status.err = false → readReg rd t < readReg rm s →
      readReg ra s * readReg rd t % readReg rm s = 1 % readReg rm s → Q (statusWord t.status) t) :
    Ends W Q (Machine.runCommand (.modinv rd ra rm)) s := by
  refine .runCommand hs rfl nofun fun o rest t hends ht _ => ?_
  obtain ⟨-, rfl⟩ := hends
  obtain ⟨r, hr, hlt, hmul⟩ := exists_modInverse (Nat.pos_of_ne_zero hm) ((gcd_mod_self _ _).trans hgcd)
  have houtcome : modinvOutcome rd (readReg ra s) (readReg rm s) = .success [(rd, r)] false false false 0 := by
    rw [modinvOutcome, if_neg hm, hr]
  have hwritten := ht.x_eq
  have hstatus := ht.status_eq
  rw [houtcome] at hwritten hstatus
  have hreg : readReg rd t = r := readReg_of_written (u := s) hwritten
  rw [← hreg] at hlt hmul
  exact hQ t ht.toReadyFrom (by rw [hstatus]; rfl) hlt hmul

end

end Sys2Proof.Machine
end

section
/-! The host sequences (44_host_sequences.md): ENCRYPT and DECRYPT, GENPRIME and KEYGEN, each by how it ends. -/

namespace Sys2Proof.Machine

/-! ### ENCRYPT and DECRYPT (44_host_sequences.md R172 to R174) -/

/-- What ENCRYPT and DECRYPT share: three loaded numbers, raised to the power, and what follows. -/
theorem Ends.loadAndRaise {α : Type} {W : State → Prop} {Q : α → State → Prop} {s : State} {rd rb re rm : RegNo}
    {b e n : Nat} {p : HostProg α} (hs : s.Ready) (hregs : rb ≠ re ∧ rb ≠ rm ∧ re ≠ rm)
    (hb : b < 2 ^ s.config.width) (he : e < 2 ^ s.config.width) (hn : n < 2 ^ s.config.width) (hpos : n ≠ 0)
    (hp : ∀ t, t.Ready → t.config = s.config → readReg rd t = b ^ e % n → Ends W Q p t) :
    Ends W Q (Machine.hostThen (Machine.ldi rb b) fun _ => Machine.hostThen (Machine.ldi re e) fun _ =>
      Machine.hostThen (Machine.ldi rm n) fun _ =>
      Machine.hostThen (Machine.runCommand (.modexp rd rb re rm)) fun _ => p) s := by
  obtain ⟨hbe, hbm, hem⟩ := hregs
  refine .hostThen (.ldi hs hb fun t₁ h₁ hb₁ => .hostThen (.ldi h₁.ready (h₁.config_eq ▸ he) fun t₂ h₂ he₂ =>
    .hostThen (.ldi h₂.ready (h₂.config_eq ▸ h₁.config_eq ▸ hn) fun t₃ h₃ hn₃ => ?_)))
  have he₃ : readReg re t₃ = e := (h₃.regs_eq re (by simpa using hem)).trans he₂
  have hb₃ : readReg rb t₃ = b :=
    ((h₃.regs_eq rb (by simpa using hbm)).trans (h₂.regs_eq rb (by simpa using hbe))).trans hb₁
  refine .hostThen (.modexp h₃.ready (hn₃ ▸ hpos) fun t₄ _ h₄ hpow => hp t₄ h₄.ready ?_ ?_)
  · rw [h₄.config_eq, h₃.config_eq, h₂.config_eq, h₁.config_eq]
  · rw [hpow, hb₃, he₃, hn₃]

section
variable {Text : Type} {enc : TextEncoding Text} {s : State} {n : Nat}

/-- ENCRYPT of numbers that fit returns the power, without waiting. -/
theorem encrypt_ends {text : Text} {e : Nat} (hs : s.Ready)
    (hm : bytesToInt (enc.encode text) < 2 ^ s.config.width) (he : e < 2 ^ s.config.width)
    (hn : n < 2 ^ s.config.width) (hpos : n ≠ 0) :
    Ends (fun _ => False) (fun c t => c = bytesToInt (enc.encode text) ^ e % n ∧ t.Ready ∧ t.config = s.config)
      (encrypt enc text ⟨e, n⟩) s := by
  refine .hostNeeds (by simpa using ⟨hm, he, hn⟩) (.loadAndRaise hs (by decide) hm he hn hpos
    fun t ht hconfig hpow => .rdr ht fun u hu => ⟨hpow, hu.ready, hu.config_eq.trans hconfig⟩)

/-- DECRYPT of numbers that fit, whose power spells a text, returns the text, without waiting. -/
theorem decrypt_ends {text : Text} {c d : Nat} (hs : s.Ready) (hc : c < 2 ^ s.config.width)
    (hd : d < 2 ^ s.config.width) (hn : n < 2 ^ s.config.width) (hpos : n ≠ 0)
    (hpow : c ^ d % n = bytesToInt (enc.encode text)) (hhead : (enc.encode text).head? ≠ some 0) :
    Ends (fun _ => False) (fun a _ => a = text) (decrypt enc c ⟨d, n⟩) s := by
  refine .hostNeeds (by simpa using ⟨hc, hd, hn⟩) (.loadAndRaise hs (by decide) hc hd hn hpos
    fun t ht _ hresult => .hostThen (.rdr ht fun u _ => ?_))
  rw [hresult, hpow, intToBytes_bytesToInt hhead, enc.decode_encode]
  exact .hostReturn rfl

end

/-- A program that can wait nowhere is done. -/
theorem Ends.exists_done {α : Type} {Q : α → State → Prop} {p : HostProg α} {s : State}
    (h : Ends (fun _ => False) Q p s) (turns : List Bool) : ∃ a t, p ⟨s, turns⟩ = .done a t ∧ Q a t.state :=
  (h turns).resolve_right fun ⟨_, _, hfalse⟩ => hfalse

/-- Settles O57: both calls end, and the second power undoes the first by the RSA law. -/
theorem encryptThenDecryptGivesTheTextBack : Obligations.EncryptThenDecryptGivesTheTextBack := by
  refine fun Text enc text r => ⟨fun key ⟨V, hV, hwide⟩ => hostNeeds_tooWide hV hwide,
    fun c key ⟨V, hV, hwide⟩ => hostNeeds_tooWide hV hwide,
    fun p q e d hinv hidle hp hq hne hn he hd hde hm hhead => ?roundTrip⟩
  case roundTrip =>
    have hpos : p * q ≠ 0 := Nat.mul_ne_zero hp.ne_zero hq.ne_zero
    obtain ⟨c, t, hencrypt, rfl, ht, hconfig⟩ :=
      (encrypt_ends ⟨hinv, hidle⟩ (hm.trans hn) he hn hpos).exists_done r.turns
    have hc : bytesToInt (enc.encode text) ^ e % (p * q) < 2 ^ t.state.config.width :=
      hconfig ▸ (Nat.mod_lt _ (Nat.pos_of_ne_zero hpos)).trans hn
    obtain ⟨a, u, hdecrypt, rfl⟩ := (decrypt_ends ht hc (hconfig ▸ hd) (hconfig ▸ hn) hpos
      (rsa_pow_pow hp hq hne hde hm) hhead).exists_done t.turns
    exact ⟨t, u, hencrypt, hdecrypt⟩

/-! ### GENPRIME (44_host_sequences.md R162, R163) -/

/-- A candidate is odd and has exactly the bits asked for. -/
theorem forceBits_odd_size {bits c : Nat} (hbits : 1 ≤ bits) (hc : c < 2 ^ bits) :
    forceBits bits c % 2 = 1 ∧ (forceBits bits c).size = bits := by
  have hlt : forceBits bits c < 2 ^ bits := Nat.or_lt_two_pow
    (Nat.or_lt_two_pow hc (Nat.pow_lt_pow_right (by decide) (by omega))) (Nat.one_lt_two_pow (by omega))
  have hge : 2 ^ (bits - 1) ≤ forceBits bits c := Nat.right_le_or.trans Nat.left_le_or
  have hlow : bits - 1 < (forceBits bits c).size := Nat.lt_size.2 hge
  have hhigh : (forceBits bits c).size ≤ bits := Nat.size_le.2 hlt
  refine ⟨?_, by omega⟩
  rw [Nat.mod_two_eq_one_iff_testBit_zero, forceBits, Nat.testBit_or]
  simp

/-- What GENPRIME returns, and the state it leaves (44_host_sequences.md R163). -/
structure AcceptedCandidate (bits p : Nat) (t : State) : Prop where
  odd : p % 2 = 1
  size_eq : p.size = bits
  verdict : t.status.verdict = true
  done : t.status.done = true
  reg_eq : readReg 0 t = p
  cmd_eq : t.cmd = encode (.mrtest 0)

/-- The candidate loop ends with an accepted candidate, or waits for entropy: every round pops words, so the bound on
the rounds is not met. -/
theorem genPrimeLoop_ends {bits rounds : Nat} {s : State} (hs : s.Ready) (hbits : 1 ≤ bits)
    (hfit : bits ≤ s.config.width) (hlo : readReg 6 s = 0) (hhi : readReg 7 s = 2 ^ bits - 1)
    (hrounds : s.entropy.length < rounds) :
    Ends WaitsForEntropy (fun p t => ReadyFrom [0] s t ∧ AcceptedCandidate bits p t) (genPrimeLoop bits rounds) s := by
  induction rounds generalizing s with
  | zero => omega
  | succ rounds ih =>
    have htwo : 1 < 2 ^ bits := Nat.one_lt_two_pow (by omega)
    refine .hostThen (.sample hs (by omega) (fun _ => id) fun t₁ _ h₁ _ hle hpopped =>
      .hostThen (.rdr h₁.ready fun t₂ h₂ => .hostThen (.ldi h₂.ready ?fits fun t₃ h₃ hreg =>
        .hostThen (.mrtest h₃.ready (fun _ => id) fun t₄ h₄ hdone hcmd => ?verdict))))
    all_goals obtain ⟨hodd, hsize⟩ := forceBits_odd_size hbits (c := readReg 0 t₁) (by omega)
    case fits =>
      rw [h₂.config_eq, h₁.config_eq]
      exact (Nat.size_le.1 hsize.le).trans_le (Nat.pow_le_pow_right (by decide) hfit)
    case verdict =>
      have h₂₀ : ReadyFrom [0] s t₂ := h₁.trans h₂ (by simp) (by simp)
      have h₃₀ : ReadyFrom [0] s t₃ := h₂₀.trans h₃ (by simp) (by simp)
      have h₄₀ : ReadyFrom [0] s t₄ := h₃₀.trans h₄ (by simp) (by simp)
      rw [(statusWord_bits t₄.status).2.2]
      cases hverdict : t₄.status.verdict with
      | true =>
        exact .hostReturn ⟨h₄₀, hodd, hsize, hverdict, hdone, (h₄.regs_eq 0 (by simp)).trans hreg, hcmd⟩
      | false =>
        have hfewer : t₄.entropy.length < rounds := by
          have h₂₁ := h₂.entropy_le
          have h₃₂ := h₃.entropy_le
          have h₄₃ := h₄.entropy_le
          omega
        exact (ih h₄₀.ready (h₄₀.config_eq ▸ hfit) ((h₄₀.regs_eq 6 (by simp)).trans hlo)
          ((h₄₀.regs_eq 7 (by simp)).trans hhi) hfewer).mono fun p t ⟨ht, hp⟩ =>
            ⟨h₄₀.trans ht (by simp) (by simp), hp⟩

/-- The lines of GENPRIME, with a bound on the rounds. -/
def genPrimeLines (bits rounds : Nat) : HostProg Nat :=
  hostThen (ldi 6 0) fun _ => hostThen (ldi 7 (2 ^ bits - 1)) fun _ => genPrimeLoop bits rounds

/-- On an idle block GENPRIME's lines end with an accepted candidate, or wait for entropy. -/
theorem genPrimeLines_ends {bits rounds : Nat} {s : State} (hs : s.Ready) (hbits : 1 ≤ bits)
    (hfit : bits ≤ s.config.width) (hrounds : s.entropy.length < rounds) :
    Ends WaitsForEntropy (fun p t => ReadyFrom [0, 6, 7] s t ∧ AcceptedCandidate bits p t)
      (genPrimeLines bits rounds) s := by
  have hpow : 2 ^ bits ≤ 2 ^ s.config.width := Nat.pow_le_pow_right (by decide) hfit
  have hpos : 0 < 2 ^ bits := Nat.two_pow_pos bits
  refine .hostThen (.ldi hs (Nat.two_pow_pos _) fun t₁ h₁ hlo =>
    .hostThen (.ldi h₁.ready (h₁.config_eq ▸ by omega) fun t₂ h₂ hhi => ?_))
  have h₂₀ : ReadyFrom [0, 6, 7] s t₂ := h₁.trans h₂ (by simp) (by simp)
  exact (genPrimeLoop_ends h₂.ready hbits (h₂₀.config_eq ▸ hfit) ((h₂.regs_eq 6 (by simp)).trans hlo) hhi
    (h₂₀.entropy_le.trans_lt hrounds)).mono fun p t ⟨ht, hp⟩ => ⟨h₂₀.trans ht (by simp) (by simp), hp⟩

/-- Within its domain GENPRIME is its lines. -/
theorem genPrime_eq_lines {bits : Nat} {r : HostRun} (hbits : 1 ≤ bits) (hfit : bits ≤ r.state.config.width)
    (hrounds : r.state.rounds = 5) : genPrime bits r = genPrimeLines bits (r.state.entropy.length + 1) r := by
  have hpow : 2 ^ bits ≤ 2 ^ r.state.config.width := Nat.pow_le_pow_right (by decide) hfit
  have hpos : 0 < 2 ^ bits := Nat.two_pow_pos bits
  have hdomain : ¬ (bits = 0 ∨ r.state.rounds ≠ 5) := not_or.2 ⟨by omega, not_not.2 hrounds⟩
  rw [genPrime, hostNeeds_fits (by simp only [List.mem_singleton, forall_eq]; omega), if_neg hdomain]
  rfl

/-- A width of no bits or another ROUNDS is outside GENPRIME's domain, where the number fits. -/
theorem genPrime_domain {bits : Nat} {r : HostRun} (hfit : bits ≤ r.state.config.width)
    (h : bits = 0 ∨ r.state.rounds ≠ 5) : genPrime bits r = .failed .domain r := by
  have hpow : 2 ^ bits ≤ 2 ^ r.state.config.width := Nat.pow_le_pow_right (by decide) hfit
  have hpos : 0 < 2 ^ bits := Nat.two_pow_pos bits
  rw [genPrime, hostNeeds_fits (by simp only [List.mem_singleton, forall_eq]; omega), if_pos h]

/-- GENPRIME of more bits than a register has is refused. -/
theorem genPrime_tooWide {bits : Nat} {r : HostRun} (h : r.state.config.width < bits) :
    genPrime bits r = .failed .tooWide r := by
  have hpow : 2 ^ (r.state.config.width + 1) ≤ 2 ^ bits := Nat.pow_le_pow_right (by decide) h
  have hpos : 0 < 2 ^ r.state.config.width := Nat.two_pow_pos _
  rw [Nat.pow_succ] at hpow
  exact hostNeeds_tooWide (List.mem_singleton.2 rfl) (by omega)

/-! ### A sequence that begins while a command is in flight (93_implementation_defined.md Z15) -/

/-- The engine's turn keeps ROUNDS and supplies no word. -/
theorem engineStep_rounds_entropy {s t : State} (h : engineStep s = .next t) :
    t.rounds = s.rounds ∧ t.entropy.length ≤ s.entropy.length := by
  rcases engineStep_next_cases h with ⟨-, rfl⟩ | ⟨-, ⟨i, -, -, rfl⟩ | ⟨i, o, rest, -, hends, rfl⟩ | ⟨why, -, rfl⟩⟩
  · exact ⟨rfl, le_rfl⟩
  · exact ⟨rfl, le_rfl⟩
  · obtain ⟨⟨pre, hpre⟩, -⟩ := hends.suffix
    refine ⟨complete_rounds o _, ?_⟩
    rw [complete_entropy, popTo_entropy, hpre, List.length_append]
    exact Nat.le_add_left _ _
  · exact ⟨rfl, le_rfl⟩

/-- What happens before an access keeps the invariants, the parameters and ROUNDS, and supplies no word. -/
theorem advance_keeps {r : HostRun} (hs : r.state.Inv) :
    r.advance.state.Inv ∧ r.advance.state.config = r.state.config ∧ r.advance.state.rounds = r.state.rounds ∧
      r.advance.state.entropy.length ≤ r.state.entropy.length := by
  rw [HostRun.advance]
  split
  · have hstep := engineStep_eq_engineTurn r.state
    exact ⟨hs.engineStep hstep, engineStep_config hstep, engineStep_rounds_entropy hstep⟩
  · exact ⟨hs, rfl, rfl, le_rfl⟩

/-- An LDI of a value that fits is its limb writes. -/
theorem ldi_eq_loadLimbs {r : HostRun} {V : Nat} (hV : V < 2 ^ r.state.config.width) (k : RegNo) :
    ldi k V r = loadLimbs k V (List.range r.state.config.limbs) r := by
  rw [ldi, hostNeeds_fits (by simpa using hV)]

/-- An LDI as a program's first line: it meets a command still in flight and fails, or it runs on an idle block, the
engine having had its turn. -/
theorem ldi_first {r : HostRun} (hs : r.state.Inv) {k : RegNo} {V : Nat} (hV : V < 2 ^ r.state.config.width) :
    (r.state.status.busy = true ∧ ∃ t, ldi k V r = .failed .errResponse t) ∨
    ∃ r', ReadyFrom (List.finRange 8) r.state r'.state ∧ ldi k V r = ldi k V r' := by
  obtain ⟨n, hn⟩ : ∃ n, r.state.config.limbs = n + 1 := Nat.exists_eq_add_one.2 hs.config_wf.1
  obtain ⟨hinv, hconfig, hrounds, hentropy⟩ := advance_keeps hs
  have hload := ldi_eq_loadLimbs hV k
  rw [hn, List.range_succ_eq_map] at hload
  cases hbusy : r.advance.state.status.busy with
  | true =>
    have hflight : r.state.status.busy = true := by
      by_contra hidle
      rw [advance_idle (Bool.eq_false_iff.2 hidle)] at hbusy
      exact hidle hbusy
    exact .inl ⟨hflight, _, hload.trans (hostThen_failed (wr_err (memWrite_of_busy hbusy _ _ _)))⟩
  | false =>
    have hload' := ldi_eq_loadLimbs (r := ⟨r.advance.state, false :: r.advance.turns⟩) (hconfig ▸ hV) k
    rw [hconfig, hn, List.range_succ_eq_map] at hload'
    exact .inr ⟨⟨r.advance.state, false :: r.advance.turns⟩,
      ⟨⟨hinv, hbusy⟩, hconfig, hrounds, hentropy, fun j hj => absurd (List.mem_finRange j) hj⟩,
      hload.trans hload'.symm⟩

/-- Programs whose first lines agree on two runs agree on them. -/
theorem hostThen_congr {α β : Type} {p : HostProg α} {r r' : HostRun} (h : p r = p r') (q : α → HostProg β) :
    hostThen p q r = hostThen p q r' := by
  simp only [hostThen, h]

/-- How GENPRIME within its domain ends from any state with the invariants: it meets a command still in flight, or it
returns an accepted candidate, or it waits for entropy. -/
theorem genPrime_cases {bits : Nat} {r : HostRun} (hs : r.state.Inv) (hbits : 1 ≤ bits)
    (hfit : bits ≤ r.state.config.width) (hrounds : r.state.rounds = 5) :
    (r.state.status.busy = true ∧ ∃ t, genPrime bits r = .failed .errResponse t) ∨
    (∃ p t, genPrime bits r = .done p t ∧ ReadyFrom (List.finRange 8) r.state t.state ∧
      AcceptedCandidate bits p t.state) ∨
    ∃ t, genPrime bits r = .waiting t ∧ WaitsForEntropy t.state := by
  rw [genPrime_eq_lines hbits hfit hrounds]
  rcases ldi_first hs (k := 6) (Nat.two_pow_pos _) with ⟨hbusy, t, hfail⟩ | ⟨r', hr', hsame⟩
  · exact .inl ⟨hbusy, t, hostThen_failed hfail⟩
  · rw [genPrimeLines, hostThen_congr hsame, ← genPrimeLines]
    exact .inr ((genPrimeLines_ends hr'.ready hbits (hr'.config_eq ▸ hfit) (Nat.lt_succ_of_le hr'.entropy_le)
      r'.turns).imp_left fun ⟨p, t, hdone, ht, hp⟩ =>
        ⟨p, t, hdone, hr'.trans ht (List.Subset.refl _) fun k _ => List.mem_finRange k, hp⟩)

/-- Settles O58: only an accepting MRTEST ends the loop, and GENPRIME is done only within its domain. -/
theorem genPrimeReturnsAnAcceptedCandidate : Obligations.GenPrimeReturnsAnAcceptedCandidate := by
  intro bits p r t hs hbits hdone
  have hfit : bits ≤ r.state.config.width := by
    by_contra hwide
    rw [genPrime_tooWide (Nat.not_le.1 hwide)] at hdone
    cases hdone
  have hrounds : r.state.rounds = 5 := by
    by_contra hother
    rw [genPrime_domain hfit (.inr hother)] at hdone
    cases hdone
  rcases genPrime_cases hs (by omega) hfit hrounds with ⟨-, u, h⟩ | ⟨p', u, h, hu, hp⟩ | ⟨u, h, -⟩ <;>
    rw [h] at hdone <;> cases hdone
  exact ⟨hp.odd, hp.size_eq, hp.verdict, hp.done, hp.reg_eq, hp.cmd_eq, hu.rounds_eq.trans hrounds⟩

/-- Outside its domain GENPRIME is refused before any access. -/
theorem genPrime_refused {bits : Nat} {r : HostRun}
    (h : bits = 0 ∨ r.state.config.width < bits ∨ r.state.rounds ≠ 5) : ∃ f, genPrime bits r = .failed f r := by
  rcases Nat.lt_or_ge r.state.config.width bits with hwide | hfit
  · exact ⟨_, genPrime_tooWide hwide⟩
  · exact ⟨_, genPrime_domain hfit (h.imp_right fun h => h.resolve_left (Nat.not_lt.2 hfit))⟩

/-- Settles O59: on an idle block no line fails, and a WAIT is the only place to stop short. -/
theorem genPrimeIsNotCapped : Obligations.GenPrimeIsNotCapped := by
  refine fun bits r hs => ⟨genPrime_refused, fun hbits hfit hrounds hidle f t hfail => ?idle, fun t hwait => ?waiting⟩
  case idle =>
    rcases genPrime_cases hs hbits hfit hrounds with ⟨hbusy, -⟩ | ⟨p, u, h, -⟩ | ⟨u, h, -⟩
    · rw [hidle] at hbusy
      cases hbusy
    · rw [h] at hfail
      cases hfail
    · rw [h] at hfail
      cases hfail
  case waiting =>
    by_cases hdomain : bits = 0 ∨ r.state.config.width < bits ∨ r.state.rounds ≠ 5
    · obtain ⟨f, h⟩ := genPrime_refused hdomain
      rw [h] at hwait
      cases hwait
    · simp only [not_or, Nat.not_lt, not_not] at hdomain
      obtain ⟨hbits, hfit, hrounds⟩ := hdomain
      rcases genPrime_cases hs (Nat.one_le_iff_ne_zero.2 hbits) hfit hrounds with
        ⟨-, u, h⟩ | ⟨p, u, h, -⟩ | ⟨u, h, hu⟩ <;> rw [h] at hwait <;> cases hwait
      exact hu

end Sys2Proof.Machine
end

section
/-! KEYGEN (44_host_sequences.md R164 to R166): the two exponents and the pair. -/

namespace Sys2Proof.Machine

/-! ### The public exponent (44_host_sequences.md R164, R166) -/

section
variable {W : State → Prop} {s : State}

/-- The gcd of e and φ, read back. -/
theorem Ends.gcdOfExponent {Q : Nat → State → Prop} (hs : s.Ready)
    (hQ : ∀ t, ReadyFrom [3, 4, 5] s t → Q (Nat.gcd (readReg 1 s) (readReg 6 s)) t) :
    Ends W Q gcdOfExponent s := by
  refine .hostThen (.egcd hs (by decide) fun t _ ht hgcd => .rdr ht.ready fun u hu => ?_)
  rw [hgcd]
  exact hQ u (ht.trans hu (by simp) (by simp))

end

/-- The exponent loop ends with an exponent in its range that is coprime to φ, or waits for entropy. -/
theorem exponentLoop_ends {phi rounds : Nat} {s : State} (hs : s.Ready) (hphi : 4 ≤ phi) (hlo : readReg 0 s = 2)
    (hhi : readReg 7 s = phi - 1) (hphi_reg : readReg 6 s = phi) (hrounds : s.entropy.length < rounds) :
    Ends WaitsForEntropy (fun e t => ReadyFrom [1, 3, 4, 5] s t ∧ readReg 1 t = e ∧ 2 ≤ e ∧ e ≤ phi - 1 ∧
      Nat.gcd e phi = 1) (exponentLoop rounds) s := by
  induction rounds generalizing s with
  | zero => omega
  | succ rounds ih =>
    refine .hostThen (.sample hs (by omega) (fun _ => id) fun t₁ _ h₁ hge hle hpopped =>
      .hostThen (.gcdOfExponent h₁.ready fun t₂ h₂ => ?_))
    have h₂₀ : ReadyFrom [1, 3, 4, 5] s t₂ := h₁.trans h₂ (by simp) (by simp)
    have hphi₁ : readReg 6 t₁ = phi := (h₁.regs_eq 6 (by simp)).trans hphi_reg
    have he₂ : readReg 1 t₂ = readReg 1 t₁ := h₂.regs_eq 1 (by simp)
    rw [hphi₁]
    split
    · refine .rdr h₂.ready fun t₃ h₃ => ⟨h₂₀.trans h₃ (by simp) (by simp), h₃.regs_eq 1 (by simp), ?_⟩
      rw [he₂]
      exact ⟨by omega, by omega, ‹_›⟩
    · exact (ih h₂₀.ready ((h₂₀.regs_eq 0 (by simp)).trans hlo) ((h₂₀.regs_eq 7 (by simp)).trans hhi)
        ((h₂₀.regs_eq 6 (by simp)).trans hphi_reg) (by have := h₂.entropy_le; omega)).mono fun e t ⟨ht, he⟩ =>
          ⟨h₂₀.trans ht (by simp) (by simp), he⟩

/-- A public exponent as KEYGEN chooses it: above 1, coprime to φ, and 65537 or a fallback at most φ - 1. -/
structure ValidExponent (phi e : Nat) : Prop where
  one_lt : 1 < e
  coprime : Nat.gcd e phi = 1
  fallback : e = 65537 ∨ Nat.gcd 65537 phi ≠ 1 ∧ e ≤ phi - 1

/-- The choice of the exponent ends with a valid one in r1 and φ in r6, or waits for entropy. -/
theorem chooseExponent_ends {phi : Nat} {s : State} (hs : s.Ready) (hphi : 4 ≤ phi)
    (hfit : phi < 2 ^ s.config.width) :
    Ends WaitsForEntropy (fun e t => t.Ready ∧ ValidExponent phi e ∧ readReg 1 t = e ∧ readReg 6 t = phi)
      (chooseExponent phi) s := by
  have hwide : 2 ^ 32 ≤ 2 ^ s.config.width := by
    have hlimbs := hs.inv.config_wf.1
    exact Nat.pow_le_pow_right (by decide) (by unfold Config.width; omega)
  refine .hostThen (.ldi hs (by omega) fun t₁ h₁ he₁ => .hostThen (.ldi h₁.ready (h₁.config_eq ▸ hfit)
    fun t₂ h₂ hphi₂ => .hostThen (.gcdOfExponent h₂.ready fun t₃ h₃ => ?_)))
  have hconfig : t₃.config = s.config := (h₃.config_eq.trans h₂.config_eq).trans h₁.config_eq
  have he₂ : readReg 1 t₂ = 65537 := (h₂.regs_eq 1 (by simp)).trans he₁
  rw [he₂, hphi₂]
  split
  · exact .hostReturn ⟨h₃.ready, ⟨by decide, ‹_›, .inl rfl⟩, (h₃.regs_eq 1 (by simp)).trans he₂,
      (h₃.regs_eq 6 (by simp)).trans hphi₂⟩
  · rename_i hgcd
    refine .hostThen (.ldi h₃.ready (hconfig ▸ by omega) fun t₄ h₄ hlo => .hostThen (.ldi h₄.ready
      (h₄.config_eq ▸ hconfig ▸ by omega) fun t₅ h₅ hhi => ?_))
    have h₅₃ : ReadyFrom [0, 7] t₃ t₅ := h₄.trans h₅ (by simp) (by simp)
    have hphi₅ : readReg 6 t₅ = phi := ((h₅₃.regs_eq 6 (by simp)).trans (h₃.regs_eq 6 (by simp))).trans hphi₂
    refine .ofState (p := fun t => exponentLoop (t.entropy.length + 1)) ?_
    exact (exponentLoop_ends h₅.ready hphi ((h₅.regs_eq 0 (by simp)).trans hlo) hhi hphi₅
      (Nat.lt_succ_self _)).mono fun e t ⟨ht, hreg, hge, hle, hcoprime⟩ =>
        ⟨ht.ready, ⟨hge, hcoprime, .inr ⟨hgcd, hle⟩⟩, hreg, (ht.regs_eq 6 (by simp)).trans hphi₅⟩

/-! ### The decryption exponent and the pair (44_host_sequences.md R164) -/

/-- With a gcd of 1 the decryption exponent is the inverse of r1 modulo r6; E_NOINVERSE does not occur. -/
theorem privateExponent_ends {W : State → Prop} {s : State} (hs : s.Ready) (hm : readReg 6 s ≠ 0)
    (hgcd : Nat.gcd (readReg 1 s) (readReg 6 s) = 1) :
    Ends W (fun d _ => d < readReg 6 s ∧ readReg 1 s * d % readReg 6 s = 1 % readReg 6 s) privateExponent s := by
  refine .hostThen (.modinv hs hm hgcd fun t ht herr hlt hmul => ?_)
  have hok : ¬ ((statusWord t.status).getLsbD 2 = true ∧ (statusWord t.status).extractLsb' 8 8 = 2) := by
    rw [(statusWord_bits t.status).2.1, herr]
    exact fun h => nomatch h.1
  rw [if_neg hok]
  exact .rdr ht.ready fun u _ => ⟨hlt, hmul⟩

/-- A key pair for the primes' product as KEYGEN returns it (44_host_sequences.md R164, R166). -/
structure ValidKeyPair (p q : Nat) (kp : KeyPair) : Prop where
  pub_n : kp.pub.n = p * q
  priv_n : kp.priv.n = p * q
  exponent : ValidExponent ((p - 1) * (q - 1)) kp.pub.e
  priv_lt : kp.priv.d < (p - 1) * (q - 1)
  inverse : kp.priv.d * kp.pub.e % ((p - 1) * (q - 1)) = 1

/-- The lines of KEYGEN after the two primes. -/
def keyGenKeys (p q : Nat) : HostProg KeyPair :=
  hostThen (chooseExponent ((p - 1) * (q - 1))) fun e => hostThen privateExponent fun d =>
  hostReturn ⟨⟨e, p * q⟩, ⟨d, p * q⟩⟩

/-- The lines after the primes end with a valid pair, or wait for entropy. -/
theorem keyGenKeys_ends {p q : Nat} {s : State} (hs : s.Ready) (hphi : 4 ≤ (p - 1) * (q - 1))
    (hfit : (p - 1) * (q - 1) < 2 ^ s.config.width) :
    Ends WaitsForEntropy (fun kp _ => ValidKeyPair p q kp) (keyGenKeys p q) s := by
  refine .hostThen ((chooseExponent_ends hs hphi hfit).mono fun e t ⟨ht, he, hreg, hphi_reg⟩ => .hostThen
    ((privateExponent_ends ht (by omega) (by rw [hreg, hphi_reg, he.coprime])).mono
      fun d u ⟨hlt, hmul⟩ => .hostReturn ⟨rfl, rfl, he, hphi_reg ▸ hlt, ?_⟩))
  rw [hreg, hphi_reg, Nat.mod_eq_of_lt (show 1 < (p - 1) * (q - 1) by omega)] at hmul
  rw [Nat.mul_comm]
  exact hmul

/-- φ of two odd numbers of `b ≥ 2` bits is at least 4 and has at most `2 b` bits. -/
theorem totient_bounds {p q b : Nat} (hb : 2 ≤ b) (hp : p % 2 = 1) (hq : q % 2 = 1) (hp_size : p.size = b)
    (hq_size : q.size = b) : 4 ≤ (p - 1) * (q - 1) ∧ (p - 1) * (q - 1) < 2 ^ (2 * b) := by
  have hge {n : Nat} (hodd : n % 2 = 1) (hsize : n.size = b) : 2 ≤ n - 1 := by
    have hlow : 2 ^ 1 ≤ n := Nat.lt_size.1 (by omega)
    omega
  have hlt {n : Nat} (hsize : n.size = b) : n - 1 < 2 ^ b := (Nat.sub_le n 1).trans_lt (Nat.size_le.1 hsize.le)
  refine ⟨Nat.mul_le_mul (hge hp hp_size) (hge hq hq_size), ?_⟩
  rw [Nat.two_mul, Nat.pow_add]
  exact Nat.mul_lt_mul'' (hlt hp_size) (hlt hq_size)

/-- How KEYGEN within its domain ends from any state with the invariants. -/
theorem keyGen_cases {bits : Nat} {r : HostRun} (hs : r.state.Inv) (hbits : 2 ≤ bits / 2)
    (hfit : bits ≤ r.state.config.width) (hrounds : r.state.rounds = 5) :
    (∃ t, keyGen bits r = .failed .errResponse t) ∨
    (∃ kp t, keyGen bits r = .done kp t ∧ ∃ p q : Nat, p.size = bits / 2 ∧ q.size = bits / 2 ∧ p % 2 = 1 ∧
      q % 2 = 1 ∧ ValidKeyPair p q kp) ∨
    ∃ t, keyGen bits r = .waiting t := by
  have hdomain : ¬ (bits / 2 < 2 ∨ r.state.config.width < bits) := by omega
  rw [keyGen, if_neg hdomain]
  rcases genPrime_cases hs (bits := bits / 2) (by omega) (by omega) hrounds with
    ⟨-, t, hfail⟩ | ⟨p, t, hdone, ht, hp⟩ | ⟨t, hwait, -⟩
  · exact .inl ⟨t, hostThen_failed hfail⟩
  · rw [hostThen_done hdone]
    rcases genPrime_cases ht.ready.inv (bits := bits / 2) (by omega) (by rw [ht.config_eq]; omega)
      (ht.rounds_eq.trans hrounds) with ⟨hbusy, -⟩ | ⟨q, u, hdone', hu, hq⟩ | ⟨u, hwait, -⟩
    · rw [ht.ready.idle] at hbusy
      cases hbusy
    · rw [hostThen_done hdone']
      obtain ⟨hlow, hhigh⟩ := totient_bounds hbits hp.odd hq.odd hp.size_eq hq.size_eq
      have hwidth : (p - 1) * (q - 1) < 2 ^ u.state.config.width := by
        rw [hu.config_eq, ht.config_eq]
        exact hhigh.trans_le (Nat.pow_le_pow_right (by decide) (by omega))
      rcases keyGenKeys_ends hu.ready hlow hwidth u.turns with ⟨kp, v, hkeys, hkp⟩ | ⟨v, hwait, -⟩
      · exact .inr (.inl ⟨kp, v, hkeys, p, q, hp.size_eq, hq.size_eq, hp.odd, hq.odd, hkp⟩)
      · exact .inr (.inr ⟨v, hwait⟩)
    · exact .inr (.inr ⟨u, hostThen_waiting hwait⟩)
  · exact .inr (.inr ⟨t, hostThen_waiting hwait⟩)

/-- Outside its domain KEYGEN is refused before any access. -/
theorem keyGen_refused {bits : Nat} {r : HostRun}
    (h : bits / 2 < 2 ∨ r.state.config.width < bits ∨ r.state.rounds ≠ 5) : keyGen bits r = .failed .domain r := by
  rw [keyGen]
  split
  · rfl
  · rename_i hdomain
    simp only [not_or, Nat.not_lt] at hdomain
    obtain ⟨hbits, hfit⟩ := hdomain
    have hrounds : r.state.rounds ≠ 5 := (h.resolve_left (by omega)).resolve_left (by omega)
    exact hostThen_failed (genPrime_domain (by omega) (.inr hrounds))

/-- Settles O60: KEYGEN is refused, or meets a command in flight, or ends with a valid pair, or waits. -/
theorem keyGenReturnsAValidKeyPair : Obligations.KeyGenReturnsAValidKeyPair := by
  intro bits r hs
  by_cases hdomain : bits / 2 < 2 ∨ r.state.config.width < bits ∨ r.state.rounds ≠ 5
  · have hrefused := keyGen_refused hdomain
    refine ⟨fun _ => hrefused, fun t h => ?_, fun kp t h => ?_⟩ <;>
      (rw [hrefused] at h; cases h)
  · refine ⟨fun h => absurd h hdomain, ?_⟩
    simp only [not_or, Nat.not_lt, not_not] at hdomain
    obtain ⟨hbits, hfit, hrounds⟩ := hdomain
    rcases keyGen_cases hs hbits hfit hrounds with
      ⟨u, h⟩ | ⟨kp, u, h, p, q, hp_size, hq_size, hp, hq, hkp⟩ | ⟨u, h⟩
    · refine ⟨fun t h' => ?_, fun kp t h' => ?_⟩ <;> (rw [h] at h'; cases h')
    · refine ⟨fun t h' => ?_, fun kp' t h' => ?_⟩ <;> rw [h] at h' <;> cases h'
      have hd : 0 < kp.priv.d := by
        refine Nat.pos_of_ne_zero fun hzero => ?_
        have hinverse := hkp.inverse
        rw [hzero, Nat.zero_mul, Nat.zero_mod] at hinverse
        cases hinverse
      exact ⟨p, q, hp_size, hq_size, hp, hq, hkp.pub_n, hkp.priv_n, hkp.exponent.one_lt, hkp.exponent.coprime,
        hkp.exponent.fallback, hd, hkp.priv_lt, hkp.inverse⟩
    · refine ⟨fun t h' => ?_, fun kp t h' => ?_⟩ <;> (rw [h] at h'; cases h')

end Sys2Proof.Machine
end
